-- ==== Sys2Proof/Word.lean ====
section
/-! DEFINITION. The words the block moves (R13, R16, R72): unsigned, at fixed widths. -/

namespace Sys2Proof

/-- One byte of the output stream or of the history buffer (R55). -/
abbrev Byte := BitVec 8

/-- One probability entry. R39 asks for at least 11 bits and allows ZA's u16 (assumption log 5). -/
abbrev Prob := BitVec 16

/-- One word on the command port: the opcode in bits 71..64, the argument in bits 63..0 (R72). -/
abbrev CommandWord := BitVec 72

/-- A command's 8-bit opcode (R72). -/
abbrev Opcode := BitVec 8

/-- A command's 64-bit argument (R72). -/
abbrev Argument := BitVec 64

end Sys2Proof
end

