-- ==== Sys2Proof/Syntax.lean ====
section
/-! DEFINITION. The nine commands of spec/opcode_table.json (R80), each with the operands of its format (R73 to R79).
An operand has the width of its field, so every term is encodable; whether its values are legal is
Sys2Proof/WellFormed.lean. -/

namespace Sys2Proof

/-- One command. -/
inductive Instr where
  /-- CONFIG, format C (R77): start an encoding invocation. -/
  | config (lc lp pb : BitVec 4) (hdrSize roundPow2 : Bool) (dictSize : BitVec 32)
  /-- SETSIZE, format S (R78): record the uncompressed size. -/
  | setsize (size : BitVec 64)
  /-- HEADER, format N (R73): write the stream header. -/
  | header
  /-- LIT, format B (R74): commit one literal byte. -/
  | lit (byte : Byte)
  /-- SHORTREP, format N (R73): commit a rep-0 match of length 1. -/
  | shortrep
  /-- REP, format R (R75): commit a rep match of length `len` at the distance `rep_dist[i]`. -/
  | rep (i : BitVec 2) (len : BitVec 9)
  /-- MATCH, format M (R76): commit a simple match of length `len` at the zero-based distance `dist0`. -/
  | simpleMatch (dist0 : BitVec 32) (len : BitVec 9)
  /-- EOS, format N (R73): code the end-of-stream marker. -/
  | eos
  /-- FLUSH, format N (R73): flush the range coder and end the stream. -/
  | flush
deriving DecidableEq, Repr

end Sys2Proof
end

