-- ==== Sys2Proof/Decode.lean ====
section
/-! DEFINITION. The command word (30_encoding.md): the decoder, total on every 72-bit word, rejecting by name; the
encoder, from the same formats; and the opcode map with its masks. -/

namespace Sys2Proof

/-- What the decoder says of a word: a command, or why it is illegal (R81; both raise IllegalCommand). -/
inductive Decoded where
  /-- A legal encoding of the command. -/
  | command (i : Instr)
  /-- The opcode is not in the opcode map. -/
  | reservedOpcode
  /-- The opcode is defined, and a bit its format marks "must be 0" is 1. -/
  | mustBeZero
deriving DecidableEq, Repr

/-- Bits 71..64 of a word (R72). -/
def opField (w : CommandWord) : Opcode := w.extractLsb' 64 8

/-- Bits 63..0 of a word (R72). -/
def argField (w : CommandWord) : Argument := w.extractLsb' 0 64

/-- The command if the must-be-zero bits are 0. -/
def unlessReserved (zero : Bool) (i : Instr) : Decoded :=
  if zero then .command i else .mustBeZero

/-- Format N (R73): the whole argument must be 0. -/
def decodeN (i : Instr) (arg : Argument) : Decoded :=
  unlessReserved (arg == 0) i

/-- Format B (R74): `byte` in 7..0. -/
def decodeB (arg : Argument) : Decoded :=
  unlessReserved (arg.extractLsb' 8 56 == 0) (.lit (arg.extractLsb' 0 8))

/-- Format R (R75): `i` in 1..0, `L` in 40..32. -/
def decodeR (arg : Argument) : Decoded :=
  unlessReserved (arg.extractLsb' 2 30 == 0 && arg.extractLsb' 41 23 == 0)
    (.rep (arg.extractLsb' 0 2) (arg.extractLsb' 32 9))

/-- Format M (R76): `dist0` in 31..0, `L` in 40..32. -/
def decodeM (arg : Argument) : Decoded :=
  unlessReserved (arg.extractLsb' 41 23 == 0)
    (.simpleMatch (arg.extractLsb' 0 32) (arg.extractLsb' 32 9))

/-- Format C (R77): `lc` in 3..0, `lp` in 7..4, `pb` in 11..8, `hdr_size` in 12, `round_pow2` in 13, `dict_size` in
63..32. -/
def decodeC (arg : Argument) : Decoded :=
  unlessReserved (arg.extractLsb' 14 18 == 0)
    (.config (arg.extractLsb' 0 4) (arg.extractLsb' 4 4) (arg.extractLsb' 8 4)
      (arg.getLsbD 12) (arg.getLsbD 13) (arg.extractLsb' 32 32))

/-- Format S (R78): the whole argument is `size`. -/
def decodeS (arg : Argument) : Decoded :=
  unlessReserved true (.setsize arg)

/-- The opcode map (R80); every other opcode is reserved (R81). -/
def decode (w : CommandWord) : Decoded :=
  if opField w = 0x01 then decodeC (argField w)
  else if opField w = 0x02 then decodeS (argField w)
  else if opField w = 0x03 then decodeN .header (argField w)
  else if opField w = 0x10 then decodeB (argField w)
  else if opField w = 0x11 then decodeN .shortrep (argField w)
  else if opField w = 0x12 then decodeR (argField w)
  else if opField w = 0x13 then decodeM (argField w)
  else if opField w = 0x14 then decodeN .eos (argField w)
  else if opField w = 0x15 then decodeN .flush (argField w)
  else .reservedOpcode

/-- A command's opcode (R80). -/
def Instr.opcode : Instr → Opcode
  | .config .. => 0x01
  | .setsize _ => 0x02
  | .header => 0x03
  | .lit _ => 0x10
  | .shortrep => 0x11
  | .rep .. => 0x12
  | .simpleMatch .. => 0x13
  | .eos => 0x14
  | .flush => 0x15

/-- A command's argument, most significant field first (R73 to R78). -/
def Instr.argument : Instr → Argument
  | .config lc lp pb hdrSize roundPow2 dictSize =>
    dictSize ++ (0#18 ++ (BitVec.ofBool roundPow2 ++ (BitVec.ofBool hdrSize ++ (pb ++ (lp ++ lc)))))
  | .setsize size => size
  | .header => 0
  | .lit byte => 0#56 ++ byte
  | .shortrep => 0
  | .rep i len => 0#23 ++ (len ++ (0#30 ++ i))
  | .simpleMatch dist0 len => 0#23 ++ (len ++ dist0)
  | .eos => 0
  | .flush => 0

/-- The word of a command (R72). -/
def encode (i : Instr) : CommandWord :=
  i.opcode ++ i.argument

/-- One row of spec/opcode_table.json (R80): `w` is a legal encoding of the row's command iff
`w &&& mask = pattern`. -/
structure OpcodeRow where
  mnemonic : String
  mask : CommandWord
  pattern : CommandWord
deriving DecidableEq, Repr

/-- spec/opcode_table.json, row by row. -/
def opcodeTable : List OpcodeRow :=
  [⟨"CONFIG",   0xFF00000000FFFFC000, 0x010000000000000000⟩,
   ⟨"SETSIZE",  0xFF0000000000000000, 0x020000000000000000⟩,
   ⟨"HEADER",   0xFFFFFFFFFFFFFFFFFF, 0x030000000000000000⟩,
   ⟨"LIT",      0xFFFFFFFFFFFFFFFF00, 0x100000000000000000⟩,
   ⟨"SHORTREP", 0xFFFFFFFFFFFFFFFFFF, 0x110000000000000000⟩,
   ⟨"REP",      0xFFFFFFFE00FFFFFFFC, 0x120000000000000000⟩,
   ⟨"MATCH",    0xFFFFFFFE0000000000, 0x130000000000000000⟩,
   ⟨"EOS",      0xFFFFFFFFFFFFFFFFFF, 0x140000000000000000⟩,
   ⟨"FLUSH",    0xFFFFFFFFFFFFFFFFFF, 0x150000000000000000⟩]

/-- The row is legal for the word (R80). -/
def OpcodeRow.accepts (row : OpcodeRow) (w : CommandWord) : Bool :=
  w &&& row.mask == row.pattern

/-- A command's row in the table. -/
def Instr.mnemonic : Instr → String
  | .config .. => "CONFIG"
  | .setsize _ => "SETSIZE"
  | .header => "HEADER"
  | .lit _ => "LIT"
  | .shortrep => "SHORTREP"
  | .rep .. => "REP"
  | .simpleMatch .. => "MATCH"
  | .eos => "EOS"
  | .flush => "FLUSH"

/-- The command that the word on the port stands for, if any. -/
def Decoded.command? : Decoded → Option Instr
  | .command i => some i
  | .reservedOpcode => none
  | .mustBeZero => none

/-- The word that the low `nbits` bits of `w` put on the command port, numbered as the opcode table numbers them; bits
above `nbits` are 0. -/
def tableWord (nbits w : Nat) : CommandWord := BitVec.ofNat 72 (w % 2 ^ nbits)

/-- The command the decoder reads from an opcode-table word. -/
def decodeTableWord (nbits w : Nat) : Option Instr := (decode (tableWord nbits w)).command?

end Sys2Proof
end

