-- ==== Sys2Proof/Machine/Constants.lean ====
section
/-! DEFINITION. The constants of the block (R5 to R8). -/

namespace Sys2Proof.Machine

/-- `PROB_BITS` (R5). -/
def probBits : Nat := 11
/-- `PROB_SCALE = 1 << PROB_BITS` (R5). -/
def probScale : Prob := 2048
/-- `PROB_INIT` (R5): the probability ½. -/
def probInit : Prob := 1024
/-- `MOVE_BITS` (R5): the adaptation rate. -/
def moveBits : Nat := 5
/-- `WIDTH_MIN = 2^24` (R6). -/
def widthMin : BitVec 32 := 0x01000000
/-- `MIN_MATCH_LEN` (R7). -/
def minMatchLen : Nat := 2
/-- `MAX_MATCH_LEN` (R7). -/
def maxMatchLen : Nat := 273
/-- `LEN_LOW_SYM` (R7). -/
def lenLowSym : Nat := 8
/-- `LEN_MID_SYM` (R7). -/
def lenMidSym : Nat := 8
/-- `LEN_LOW_BITS` (R7). -/
def lenLowBits : Nat := 3
/-- `LEN_MID_BITS` (R7). -/
def lenMidBits : Nat := 3
/-- `LEN_HIGH_BITS` (R7). -/
def lenHighBits : Nat := 8
/-- `ALIGN_BITS` (R8). -/
def alignBits : Nat := 4
/-- `DIST_SLOT_BITS` (R8). -/
def distSlotBits : Nat := 6
/-- `START_DIST_MODEL` (R8): the slot below which the distance is the slot. -/
def startDistModel : Nat := 4
/-- `END_DIST_MODEL` (R8): the slot from which alignment and direct bits are used. -/
def endDistModel : Nat := 14
/-- `EOS_MAGIC_DIST` (R8): the distance that marks the end of the stream. -/
def eosMagicDist : BitVec 32 := 0xFFFFFFFF
/-- The largest legal `lc` (R9). -/
def maxLc : Nat := 8
/-- The largest legal `lp` (R9). -/
def maxLp : Nat := 4
/-- The largest legal `pb` (R9). -/
def maxPb : Nat := 4
/-- The least effective dictionary size, `2^12` (R10). -/
def minDict : Nat := 4096
/-- The greatest effective dictionary size, `2^25` (R10). -/
def maxDict : Nat := 33554432
/-- The size of one literal cluster, `0x300` entries (R41). -/
def clusterSize : Nat := 0x300

end Sys2Proof.Machine
end

