-- ==== Sys2Proof/Config.lean ====
section
/-! DEFINITION. What the spec leaves open. The block has no implementation-fixed parameter: the configuration of a
run (R9) is state, loaded by CONFIG. The only open values are the contents of registers and entries that the spec
calls unspecified (R54, R158; I1, I2, I3). -/

namespace Sys2Proof

/-- The unspecified value number `tag` of the storage that the observation port shows at `addr` of `space` (R50 to
R53). It has no body that Lean can unfold, so nothing can be proved of a value of it. `tag` 0 is the contents at
power-on (R54, I1, I2); every SinkAborted fault of a running command draws a fresh tag (R158, I3). Assumption log 3
and 4. -/
opaque Config.freeValue (tag space addr : Nat) : BitVec 64

end Sys2Proof
end

