-- ==== Sys2Proof/Machine/State.lean ====
section
/-! DEFINITION. The state of the block (10_state.md) with its ports (20_memory.md R55), as plain data, and the state
after power-on reset (R54, R169). -/

namespace Sys2Proof.Machine

/-- Why the model stops: no reachable state gets there, and no block is said to. Both are safe. -/
inductive Fault where
  /-- HistRead of an entry whose written bit is clear (R58: "has no value, and a model treats it as a fault"). Raised
  by LIT in matched mode, SHORTREP, REP and MATCH in states no run reaches. Safe: the model stops. -/
  | unwrittenHistoryRead
  /-- `state` is 12 to 15, for which the FSM tables have no entry (R120; R33: never reached). Raised by LIT, SHORTREP,
  REP, MATCH and EOS in states no run reaches. Safe: the model stops. -/
  | illegalFsmState
deriving DecidableEq, Repr

/-- Why an instruction has no meaning. -/
inductive Refusal where
  /-- The command has no meaning in the model yet; raised by exec's arms only. Safe. No arm uses it now. -/
  | notModelled (mnemonic : String)
deriving DecidableEq, Repr

/-- `STATUS.phase` (R25): the six values it takes; 5 and 6 are never taken. -/
inductive Phase where
  | unconfigured | configured | coding | ended | done | fault
deriving DecidableEq, Repr

/-- `STATUS.cause` (R26, R150): codes 0 to 6; 7 to 15 are never written (I6). -/
inductive Cause where
  | none | illegalCommand | sequenceError | configRange | lengthRange | historyRange | sinkAborted
deriving DecidableEq, Repr

/-- The configuration registers CFG (R29). -/
structure CfgRegs where
  lc : BitVec 4
  lp : BitVec 4
  pb : BitVec 4
  hdrSize : Bool
  roundPow2 : Bool
  dictSize : BitVec 32
deriving DecidableEq, Repr

/-- The range coder registers (R31). -/
structure RangeCoder where
  width : BitVec 32
  low : BitVec 64
  cache : BitVec 8
  cacheSize : BitVec 64
deriving DecidableEq, Repr

/-- `rep_dist[0..3]`, the MRU stack of zero-based distances, newest first (R38). -/
structure Mru where
  rep0 : BitVec 32
  rep1 : BitVec 32
  rep2 : BitVec 32
  rep3 : BitVec 32
deriving DecidableEq, Repr

/-- The encoder-state registers ES (R33 to R38); `r` is the history cursor `R`. -/
structure EncoderState where
  state : BitVec 4
  posState : BitVec 4
  prevByte : Byte
  r : BitVec 32
  totalPos : BitVec 64
  mru : Mru
deriving DecidableEq, Repr

/-- What an entry of an internal memory holds when no write since has reached it. -/
inductive Background where
  /-- CONFIG's initialisation: 1024 in the probability file (R46), unwritten in the history (R48). -/
  | initial
  /-- Unspecified contents (R54, R158): the free values of set `tag` (assumption log 3, 4). -/
  | unspecified (tag : Nat)
deriving DecidableEq, Repr

/-- The two length table sets (R42). -/
inductive LenSet where
  | len | repLen
deriving DecidableEq, Repr

/-- The probability tables (R40 to R45); R52 numbers them. -/
inductive ProbTable where
  | matchSwitch | rep | repG0 | repG1 | repG2 | rep0Long
  | choice1 (c : LenSet) | choice2 (c : LenSet)
  | lowCoder (c : LenSet) | midCoder (c : LenSet) | highCoder (c : LenSet)
  | slotCoder | posCoder | alignCoder | lit
deriving DecidableEq, Repr

/-- The probability file (R39 to R46): `cells` lists the entries that differ from what `background` gives, by their
observation address `table · 2^24 + index` (R52), addresses strictly rising. -/
structure ProbFile where
  background : Background
  cells : List (Nat × Prob)
deriving DecidableEq, Repr

/-- The history buffer `Text_Buf` (R48): `cells` lists the entries whose written bit is set, by index, indices
strictly rising; every other entry holds what `background` gives. -/
structure History where
  background : Background
  cells : List Host.Cell
deriving DecidableEq, Repr

/-- What the host does to the block between commands (R21, R55). -/
inductive HostEvent where
  /-- A word on the command port. -/
  | command (w : CommandWord)
  /-- A read on the observation port (R50). -/
  | observe (space addr : Nat)
  /-- The abort input is asserted while no command executes (R158). -/
  | abort
deriving DecidableEq, Repr

/-- The whole machine: the registers, the two memories, the ports. -/
structure State where
  /-- `STATUS.phase` (R25). -/
  phase : Phase
  /-- `STATUS.cause` (R26). -/
  cause : Cause
  /-- `FAULT_OP` (R27). -/
  faultOp : Opcode
  /-- `FAULT_ARG` (R27). -/
  faultArg : Argument
  /-- `OUT_COUNT` (R28). -/
  outCount : BitVec 64
  /-- `CFG` (R29). -/
  cfg : CfgRegs
  /-- `DICT_EFF` (R29, R10). -/
  dictEff : BitVec 32
  /-- `HIST_N` (R29, R11). -/
  histN : BitVec 32
  /-- `SIZE.known` (R30). -/
  sizeKnown : Bool
  /-- `SIZE.value` (R30). -/
  sizeValue : BitVec 64
  /-- The range coder registers (R31). -/
  rc : RangeCoder
  /-- The encoder-state registers (R33 to R38). -/
  es : EncoderState
  /-- The probability file (R39 to R46). -/
  probs : ProbFile
  /-- The history buffer (R48). -/
  hist : History
  /-- What the host has done and the block has not yet served, oldest first (R55 (a), (e), (f), R68). -/
  input : List HostEvent
  /-- Every byte emitted since power-on, in emission order (R55 (b), R62, R63). -/
  output : List Byte
  /-- The values the observation port has answered, oldest first (R50). -/
  readData : List (BitVec 64)
  /-- How many bytes the sink takes before each assertion of the abort input during an emission; empty: no further
  assertion (R158; assumption log 2). -/
  sinkPlan : List Nat
  /-- The model's own counter of sets of free values drawn (assumption log 4). -/
  freeCount : Nat
deriving DecidableEq, Repr

/-- CFG with the unspecified contents of set `tag`, field by field at the places of R51. -/
def CfgRegs.unspecified (tag : Nat) : CfgRegs :=
  let v := Config.freeValue tag 0 0x010
  { lc := v.extractLsb' 0 4, lp := v.extractLsb' 4 4, pb := v.extractLsb' 8 4,
    hdrSize := v.getLsbD 12, roundPow2 := v.getLsbD 13, dictSize := v.extractLsb' 32 32 }

/-- The range coder registers with the unspecified contents of set `tag`. -/
def RangeCoder.unspecified (tag : Nat) : RangeCoder :=
  { width := (Config.freeValue tag 0 0x020).setWidth 32, low := Config.freeValue tag 0 0x021,
    cache := (Config.freeValue tag 0 0x022).setWidth 8, cacheSize := Config.freeValue tag 0 0x023 }

/-- The encoder-state registers with the unspecified contents of set `tag`. -/
def EncoderState.unspecified (tag : Nat) : EncoderState :=
  { state := (Config.freeValue tag 0 0x030).setWidth 4, posState := (Config.freeValue tag 0 0x031).setWidth 4,
    prevByte := (Config.freeValue tag 0 0x032).setWidth 8, r := (Config.freeValue tag 0 0x033).setWidth 32,
    totalPos := Config.freeValue tag 0 0x034,
    mru := { rep0 := (Config.freeValue tag 0 0x038).setWidth 32, rep1 := (Config.freeValue tag 0 0x039).setWidth 32,
             rep2 := (Config.freeValue tag 0 0x03A).setWidth 32, rep3 := (Config.freeValue tag 0 0x03B).setWidth 32 } }

/-- The machine right after power-on reset (R54, R169): STATUS, FAULT_OP, FAULT_ARG and OUT_COUNT are 0, every other
register and entry is unspecified (free values of set 0, assumption log 3), nothing has arrived on any port. -/
def State.reset : State :=
  { phase := .unconfigured, cause := .none, faultOp := 0, faultArg := 0, outCount := 0,
    cfg := CfgRegs.unspecified 0,
    dictEff := (Config.freeValue 0 0 0x011).setWidth 32, histN := (Config.freeValue 0 0 0x012).setWidth 32,
    sizeKnown := (Config.freeValue 0 0 0x013).getLsbD 0, sizeValue := Config.freeValue 0 0 0x014,
    rc := RangeCoder.unspecified 0, es := EncoderState.unspecified 0,
    probs := { background := .unspecified 0, cells := [] },
    hist := { background := .unspecified 0, cells := [] },
    input := [], output := [], readData := [], sinkPlan := [], freeCount := 1 }

end Sys2Proof.Machine
end

