-- ==== Sys2Proof/Machine/Operands.lean ====
section
/-! DEFINITION. The legal operand values (R9, R7), and the values that commands and coders compute from their
operands: the dictionary sizes (R10, R11), the distance slot and its footer (R102 to R104), the literal context (R111),
the copy distance and the length of a match. -/

namespace Sys2Proof.Machine

/-- `lc ≤ 8`, `lp ≤ 4` and `pb ≤ 4` (R9, R131). -/
def configInRange (lc lp pb : BitVec 4) : Bool :=
  lc.toNat ≤ maxLc && lp.toNat ≤ maxLp && pb.toNat ≤ maxPb

/-- `2 ≤ L ≤ 273` (R128, R129). -/
def lengthInRange (len : BitVec 9) : Bool :=
  minMatchLen ≤ len.toNat && len.toNat ≤ maxMatchLen

/-- The smallest power of two `≥ d`, for `d ≥ 2` (R11). -/
def powerOfTwoAtLeast (d : Nat) : Nat := 2 ^ (Nat.log2 (d - 1) + 1)

/-- The effective dictionary size (R10): clamped, then rounded up if `round_pow2`. -/
def effectiveDict (dictSize : BitVec 32) (roundPow2 : Bool) : Nat :=
  let d := min (max dictSize.toNat minDict) maxDict
  if roundPow2 then powerOfTwoAtLeast d else d

/-- The history size `N` (R11). -/
def historySize (dictSize : BitVec 32) (roundPow2 : Bool) : Nat :=
  powerOfTwoAtLeast (effectiveDict dictSize roundPow2)

/-- `len_state = min(L − 2, 3)` (R102). -/
def lenState (len : Nat) : Nat := min (len - 2) 3

/-- `DistSlot(dist0)` (R103). -/
def distSlot (dist0 : Nat) : Nat :=
  if dist0 ≤ startDistModel then dist0
  else
    let n := Nat.log2 dist0
    2 * n + (dist0 >>> (n - 1)) % 2

/-- `footer_bits` of a slot `≥ 4` (R104). -/
def footerBits (slot : Nat) : Nat := (slot >>> 1) - 1

/-- `base` of a slot `≥ 4` (R104). -/
def slotBase (slot : Nat) : Nat := (2 ||| (slot &&& 1)) <<< footerBits slot

/-- The literal context `ctx` (R111). -/
def litContext (lc lp : Nat) (totalPos : BitVec 64) (prevByte : Byte) : Nat :=
  ((totalPos.toNat &&& ((1 <<< lp) - 1)) <<< lc) ||| (prevByte.toNat >>> (8 - lc))

/-- `lit_idx` (R111). -/
def litIndex (lc lp : Nat) (totalPos : BitVec 64) (prevByte : Byte) : Nat :=
  clusterSize * litContext lc lp totalPos prevByte

/-- `pos_state = total_pos & ((1 << pb) − 1)` (R34, R124). -/
def positionState (pb : BitVec 4) (totalPos : BitVec 64) : BitVec 4 :=
  (totalPos &&& ((1 <<< pb.toNat) - 1)).setWidth 4

/-- `rep_dist[i]` (R38). -/
def Mru.get (m : Mru) (i : BitVec 2) : BitVec 32 :=
  if i = 0 then m.rep0 else if i = 1 then m.rep1 else if i = 2 then m.rep2 else m.rep3

/-- The copy distance `dist0 + 1`, without wrap-around (R119, R153). -/
def copyDistance (dist0 : BitVec 32) : Nat := dist0.toNat + 1

/-- The byte `k` of a 64-bit value, counted from the least significant (R133, R65). -/
def byteOf (v : BitVec 64) (k : Nat) : Byte := v.extractLsb' (8 * k) 8

/-- The property byte `lc + 9·lp + 45·pb` (R133). -/
def propertyByte (cfg : CfgRegs) : Byte :=
  BitVec.ofNat 8 (cfg.lc.toNat + 9 * cfg.lp.toNat + 45 * cfg.pb.toNat)

/-- The bytes of the stream header, in emission order (R133). -/
def headerBytes (cfg : CfgRegs) (dictEff : BitVec 32) (sizeValue : BitVec 64) : List Byte :=
  propertyByte cfg :: (List.range 4).map (byteOf (dictEff.setWidth 64)) ++
    (if cfg.hdrSize then (List.range 8).map (byteOf sizeValue) else [])

end Sys2Proof.Machine
end

