-- ==== Sys2Proof/Machine/Memory.lean ====
section
/-! DEFINITION. The two internal memories (R55 (c), (d)) as lists of cells in one canonical form: addresses strictly
rising, no entry equal to what an unlisted address reads as. -/

namespace Sys2Proof.Machine

/-- The value listed at an address. -/
def Memory.lookup {α : Type} : List (Nat × α) → Nat → Option α
  | [], _ => none
  | (k, v) :: rest, a => if k = a then some v else Memory.lookup rest a

/-- The list with `v` at address `a`, its place in rising order. -/
def Memory.insert {α : Type} : List (Nat × α) → Nat → α → List (Nat × α)
  | [], a, v => [(a, v)]
  | (k, w) :: rest, a, v =>
    if a < k then (a, v) :: (k, w) :: rest
    else if a = k then (a, v) :: rest
    else (k, w) :: Memory.insert rest a v

/-- The list without an entry at address `a`. -/
def Memory.erase {α : Type} : List (Nat × α) → Nat → List (Nat × α)
  | [], _ => []
  | (k, w) :: rest, a => if k = a then rest else (k, w) :: Memory.erase rest a

/-- Every address of the list is above `a`. -/
def Memory.above {α : Type} (a : Nat) (cells : List (Nat × α)) : Bool :=
  cells.all fun cell => a < cell.1

/-- The addresses of the list are strictly rising. -/
def Memory.rising {α : Type} : List (Nat × α) → Bool
  | [] => true
  | (k, _) :: rest => Memory.above k rest && Memory.rising rest

/-- The observation number of a table (R52). -/
def ProbTable.number : ProbTable → Nat
  | .matchSwitch => 0
  | .rep => 1
  | .repG0 => 2
  | .repG1 => 3
  | .repG2 => 4
  | .rep0Long => 5
  | .choice1 .len => 6
  | .choice2 .len => 7
  | .lowCoder .len => 8
  | .midCoder .len => 9
  | .highCoder .len => 10
  | .choice1 .repLen => 11
  | .choice2 .repLen => 12
  | .lowCoder .repLen => 13
  | .midCoder .repLen => 14
  | .highCoder .repLen => 15
  | .slotCoder => 16
  | .posCoder => 17
  | .alignCoder => 18
  | .lit => 19

/-- The number of entries of a table, for a configuration with this `lc` and `lp` (R40 to R45). -/
def ProbTable.size (lc lp : Nat) : ProbTable → Nat
  | .matchSwitch => 192
  | .rep => 12
  | .repG0 => 12
  | .repG1 => 12
  | .repG2 => 12
  | .rep0Long => 192
  | .choice1 _ => 1
  | .choice2 _ => 1
  | .lowCoder _ => 128
  | .midCoder _ => 128
  | .highCoder _ => 256
  | .slotCoder => 256
  | .posCoder => 115
  | .alignCoder => 16
  | .lit => clusterSize * 2 ^ (lc + lp)

/-- Every table, in the order of R52. -/
def ProbTable.all : List ProbTable :=
  [.matchSwitch, .rep, .repG0, .repG1, .repG2, .rep0Long,
   .choice1 .len, .choice2 .len, .lowCoder .len, .midCoder .len, .highCoder .len,
   .choice1 .repLen, .choice2 .repLen, .lowCoder .repLen, .midCoder .repLen, .highCoder .repLen,
   .slotCoder, .posCoder, .alignCoder, .lit]

/-- The observation address `{table[31:24], index[23:0]}` of an entry (R52): its key in the probability file. -/
def ProbTable.address (t : ProbTable) (index : Nat) : Nat := t.number * 2 ^ 24 + index

/-- What an unlisted entry of the probability file reads as: 1024 after CONFIG (R46), a free value where the spec gives
the entry none (I2, I3; assumption log 3, 4). -/
def ProbFile.unlisted (background : Background) (address : Nat) : Prob :=
  match background with
  | .initial => probInit
  | .unspecified tag => (Config.freeValue tag 1 address).setWidth 16

/-- The entry at an observation address. -/
def ProbFile.readAt (f : ProbFile) (address : Nat) : Prob :=
  (Memory.lookup f.cells address).getD (ProbFile.unlisted f.background address)

/-- The file with `p` at an observation address: listed iff it differs from what the unlisted entry reads as. -/
def ProbFile.writeAt (f : ProbFile) (address : Nat) (p : Prob) : ProbFile :=
  if p = ProbFile.unlisted f.background address then { f with cells := Memory.erase f.cells address }
  else { f with cells := Memory.insert f.cells address p }

/-- `P.t[i]` (R17). -/
def ProbFile.read (f : ProbFile) (t : ProbTable) (index : Nat) : Prob := f.readAt (t.address index)

/-- `P.t[i] <- p` (R17). -/
def ProbFile.write (f : ProbFile) (t : ProbTable) (index : Nat) (p : Prob) : ProbFile :=
  f.writeAt (t.address index) p

/-- The canonical form of the probability file. -/
def ProbFile.wf (f : ProbFile) : Bool :=
  Memory.rising f.cells && f.cells.all fun cell => cell.2 != ProbFile.unlisted f.background cell.1

/-- The byte of entry `i` if the model knows its written bit to be set. -/
def History.read (h : History) (i : Nat) : Option Byte := Memory.lookup h.cells i

/-- `Text_Buf[i] <- b; written[i] <- 1` (R59). -/
def History.write (h : History) (i : Nat) (b : Byte) : History :=
  { h with cells := Memory.insert h.cells i b }

/-- The canonical form of the history: an unlisted entry has no written byte, so no listed entry equals it. -/
def History.wf (h : History) : Bool := Memory.rising h.cells

/-- Both memories are in canonical form. -/
def Memory.wf (s : State) : Bool := s.probs.wf && s.hist.wf

end Sys2Proof.Machine
end

