-- ==== Sys2Proof/Machine/RangeCoder.lean ====
section
/-! DEFINITION. The range coder (41_range_coder.md). Its operations work on the range coder registers, the probability
file and the bytes the running command has emitted so far; the sink takes those bytes when the command is committed
(`deliver` in Sys2Proof/Machine/Ops.lean). That is the same as taking them one by one: no operation reads the output,
and after an abort everything but the emitted bytes and the fault record is unspecified (R158; assumption log 2). -/

namespace Sys2Proof.Machine

/-- What a range-coder operation reads and writes (R85); `out` holds the bytes the running command has emitted, in
emission order. -/
structure Coder where
  rc : RangeCoder
  probs : ProbFile
  out : List Byte
deriving DecidableEq, Repr

/-- One coding step of a command: what its pseudocode calls `EncodeBit(P.t[i], b)`, or one bit of
EncodeDirectBits. -/
inductive Decision where
  /-- `EncodeBit(P.table[index], b)` (R86). -/
  | bit (table : ProbTable) (index : Nat) (b : Bool)
  /-- One equiprobable bit (R93). -/
  | direct (b : Bool)
deriving DecidableEq, Repr

/-- The bytes that `Shift_low` emits when it does not defer: the cache byte and the pending 0xFF bytes, each plus the
carry modulo 2^8 (R90). The count `cache_size − 1` is modular (R14; assumption log 6). -/
def RangeCoder.pending (rc : RangeCoder) (carry : Byte) : List Byte :=
  (rc.cache + carry) :: List.replicate (rc.cacheSize - 1).toNat (0xFF + carry)

/-- `Shift_low()` (R90). -/
def Coder.shiftLow (c : Coder) : Coder :=
  let top32 : BitVec 32 := c.rc.low.extractLsb' 32 32
  let bot32 : BitVec 32 := c.rc.low.extractLsb' 0 32
  let low : BitVec 64 := (bot32 <<< 8).setWidth 64
  if bot32 < 0xFF000000 ∨ top32 ≠ 0 then
    { c with
      out := c.out ++ c.rc.pending (top32.setWidth 8),
      rc := { c.rc with low := low, cache := (bot32 >>> 24).setWidth 8, cacheSize := 1 } }
  else
    { c with rc := { c.rc with low := low, cacheSize := c.rc.cacheSize + 1 } }

/-- `Normalize()` (R88): both actions depend on the condition (D12). -/
def Coder.normalize (c : Coder) : Coder :=
  if c.rc.width < widthMin then
    Coder.shiftLow { c with rc := { c.rc with width := c.rc.width <<< 8 } }
  else c

/-- The probability after coding `b` (R86). -/
def adapt (p : Prob) (b : Bool) : Prob :=
  if b then p - (p >>> moveBits) else p + ((probScale - p) >>> moveBits)

/-- The part of the interval that a 0 keeps (R86). -/
def bound (width : BitVec 32) (p : Prob) : BitVec 32 := (width >>> probBits) * p.setWidth 32

/-- `EncodeBit(P.t[i], b)` (R86). -/
def Coder.encodeBit (t : ProbTable) (i : Nat) (b : Bool) (c : Coder) : Coder :=
  let p := c.probs.read t i
  let cut := bound c.rc.width p
  let rc := if b then { c.rc with low := c.rc.low + cut.setWidth 64, width := c.rc.width - cut }
            else { c.rc with width := cut }
  Coder.normalize { c with rc := rc, probs := c.probs.write t i (adapt p b) }

/-- One step of `EncodeDirectBits` (R93). -/
def Coder.encodeDirect (b : Bool) (c : Coder) : Coder :=
  let width := c.rc.width >>> 1
  let step : BitVec 32 := width &&& (0 - (BitVec.ofBool b).setWidth 32)
  Coder.normalize { c with rc := { c.rc with width := width, low := c.rc.low + step.setWidth 64 } }

/-- One coding step. -/
def Coder.encode (c : Coder) : Decision → Coder
  | .bit t i b => c.encodeBit t i b
  | .direct b => c.encodeDirect b

/-- The coding steps of a command, in order. -/
def Coder.run (c : Coder) (path : List Decision) : Coder := path.foldl Coder.encode c

/-- `Flush()` (R94): five `Shift_low`. -/
def Coder.flush (c : Coder) : Coder := c.shiftLow.shiftLow.shiftLow.shiftLow.shiftLow

end Sys2Proof.Machine
end

