-- ==== Sys2Proof/Machine/Coders.lean ====
section
/-! DEFINITION. The coders (42_bit_tree.md to 45_literal_coder.md) and the switch bits of the tokens (R122), each as
the list of coding steps its pseudocode performs, in order. Which steps a coder performs depends on its operands
alone, never on the range coder's registers, so the list says all a coder does. -/

namespace Sys2Proof.Machine

/-- The steps of the forward tree from node `m` for the low `n` bits of `sym` (R96). -/
def treeSteps (t : ProbTable) (base sym : Nat) : (n m : Nat) → List Decision
  | 0, _ => []
  | i + 1, m =>
    let b := sym.testBit i
    .bit t (base + m) b :: treeSteps t base sym i (2 * m + b.toNat)

/-- `TreeEncode(T, base, n, sym)` (R96): most significant bit first, root 1. -/
def treeEncode (t : ProbTable) (base n sym : Nat) : List Decision := treeSteps t base sym n 1

/-- The steps of the reverse tree from node `m` (R97); `base` may be −1. -/
def treeReverseSteps (t : ProbTable) (base : Int) : (n sym m : Nat) → List Decision
  | 0, _, _ => []
  | k + 1, sym, m =>
    let b := sym.testBit 0
    .bit t (base + m).toNat b :: treeReverseSteps t base k (sym >>> 1) (2 * m + b.toNat)

/-- `TreeReverseEncode(T, base, n, sym)` (R97): least significant bit first, root 1. -/
def treeReverseEncode (t : ProbTable) (base : Int) (n sym : Nat) : List Decision :=
  treeReverseSteps t base n sym 1

/-- `EncodeDirectBits(value, nbits)` (R93): most significant bit first. -/
def directBits (value : Nat) : (nbits : Nat) → List Decision
  | 0 => []
  | i + 1 => .direct (value.testBit i) :: directBits value i

/-- `LenEncode(C, L, ps)` (R100). -/
def lenEncode (c : LenSet) (len ps : Nat) : List Decision :=
  let l := len - minMatchLen
  if l < lenLowSym then
    .bit (.choice1 c) 0 false :: treeEncode (.lowCoder c) (8 * ps) lenLowBits l
  else if l < lenLowSym + lenMidSym then
    .bit (.choice1 c) 0 true :: .bit (.choice2 c) 0 false ::
      treeEncode (.midCoder c) (8 * ps) lenMidBits (l - lenLowSym)
  else
    .bit (.choice1 c) 0 true :: .bit (.choice2 c) 0 true ::
      treeEncode (.highCoder c) 0 lenHighBits (l - (lenLowSym + lenMidSym))

/-- What follows the slot of a distance (R104 to R107). -/
def distFooter (dist0 slot : Nat) : List Decision :=
  if startDistModel ≤ slot then
    let fb := footerBits slot
    let base := slotBase slot
    let red := dist0 - base
    if slot < endDistModel then
      treeReverseEncode .posCoder ((base : Int) - slot - 1) fb red
    else
      directBits (red >>> alignBits) (fb - alignBits) ++
        treeReverseEncode .alignCoder 0 alignBits (red &&& 0xF)
  else []

/-- `DistEncode(dist0, L)` (R105). -/
def distEncode (dist0 len : Nat) : List Decision :=
  let slot := distSlot dist0
  treeEncode .slotCoder (64 * lenState len) distSlotBits slot ++ distFooter dist0 slot

/-- The loop of LitPlain (R113). `symb` starts at `0x100 | byte`, so its condition ends it after 8 rounds. -/
def litPlainSteps (idx : Nat) : (rounds : Nat) → (symb : BitVec 32) → List Decision
  | 0, _ => []
  | k + 1, symb =>
    if symb < 0x10000 then
      .bit .lit (idx + (symb >>> 8).toNat) (symb.getLsbD 7) :: litPlainSteps idx k (symb <<< 1)
    else []

/-- `LitPlain(lit_idx, byte)` (R113). -/
def litPlain (idx : Nat) (byte : Byte) : List Decision :=
  litPlainSteps idx 8 (0x100 ||| byte.setWidth 32)

/-- The loop of LitMatched (R115): `match` shifts, the bit is coded, `symb` shifts, then `offs` is updated (D13). -/
def litMatchedSteps (idx : Nat) : (rounds : Nat) → (symb matchBits offs : BitVec 32) → List Decision
  | 0, _, _, _ => []
  | k + 1, symb, matchBits, offs =>
    if symb < 0x10000 then
      let shifted := matchBits <<< 1
      let symb' := symb <<< 1
      .bit .lit (idx + (offs + (shifted &&& offs) + (symb >>> 8)).toNat) (symb.getLsbD 7) ::
        litMatchedSteps idx k symb' shifted (offs &&& ~~~(shifted ^^^ symb'))
    else []

/-- `LitMatched(lit_idx, byte, b_match)` (R115). -/
def litMatched (idx : Nat) (byte bMatch : Byte) : List Decision :=
  litMatchedSteps idx 8 (0x100 ||| byte.setWidth 32) (bMatch.setWidth 32) 0x100

/-- The index of `match[s][ps]` and of `rep0_long[s][ps]` (R40, R122). -/
def switchIndex (s ps : BitVec 4) : Nat := 16 * s.toNat + ps.toNat

/-- `match[s][ps] := 1`, `rep[s] := 1` (R122): a rep match of some kind. -/
def repSwitch (s ps : BitVec 4) : List Decision :=
  [.bit .matchSwitch (switchIndex s ps) true, .bit .rep s.toNat true]

/-- The switch bits of SHORTREP (R122, R127). -/
def shortrepPath (s ps : BitVec 4) : List Decision :=
  repSwitch s ps ++ [.bit .repG0 s.toNat false, .bit .rep0Long (switchIndex s ps) false]

/-- The bits that select the rep index (R122, R128). -/
def repIndexBits (i : BitVec 2) (s ps : BitVec 4) : List Decision :=
  if i = 0 then [.bit .repG0 s.toNat false, .bit .rep0Long (switchIndex s ps) true]
  else if i = 1 then [.bit .repG0 s.toNat true, .bit .repG1 s.toNat false]
  else [.bit .repG0 s.toNat true, .bit .repG1 s.toNat true, .bit .repG2 s.toNat (i == 3)]

/-- The coding of REP `i`, `L` (R128). -/
def repPath (i : BitVec 2) (len : Nat) (s ps : BitVec 4) : List Decision :=
  repSwitch s ps ++ repIndexBits i s ps ++ lenEncode .repLen len ps.toNat

/-- The coding of a simple match: MATCH (R129), and EOS with its own distance and length (R134). -/
def simpleMatchPath (dist0 len : Nat) (s ps : BitVec 4) : List Decision :=
  [.bit .matchSwitch (switchIndex s ps) true, .bit .rep s.toNat false] ++
    lenEncode .len len ps.toNat ++ distEncode dist0 len

/-- The coding of EOS (R134): a simple match of length 2 at distance `0xFFFFFFFF`. -/
def eosPath (s ps : BitVec 4) : List Decision :=
  simpleMatchPath eosMagicDist.toNat minMatchLen s ps

/-- The coding of LIT in plain mode (R126, R116). -/
def plainLitPath (idx : Nat) (byte : Byte) (s ps : BitVec 4) : List Decision :=
  .bit .matchSwitch (switchIndex s ps) false :: litPlain idx byte

/-- The coding of LIT in matched mode (R126, R116). -/
def matchedLitPath (idx : Nat) (byte bMatch : Byte) (s ps : BitVec 4) : List Decision :=
  .bit .matchSwitch (switchIndex s ps) false :: litMatched idx byte bMatch

end Sys2Proof.Machine
end

