-- ==== Sys2Proof/Machine/Flags.lean ====
section
/-! DEFINITION. The status bits. The block has no condition codes; STATUS.phase and STATUS.cause are its only status
bits (R24). Their codes, the STATUS register, and the phases in which a command is accepted (R151). -/

namespace Sys2Proof.Machine

/-- The code of a phase (R25). -/
def Phase.code : Phase → BitVec 3
  | .unconfigured => 0
  | .configured => 1
  | .coding => 2
  | .ended => 3
  | .done => 4
  | .fault => 7

/-- The code of a cause (R150). -/
def Cause.code : Cause → BitVec 4
  | .none => 0
  | .illegalCommand => 1
  | .sequenceError => 2
  | .configRange => 3
  | .lengthRange => 4
  | .historyRange => 5
  | .sinkAborted => 6

/-- The STATUS register: phase in 2..0, cause in 7..4, the rest 0 (R51). -/
def statusRegister (phase : Phase) (cause : Cause) : BitVec 64 :=
  0#56 ++ (cause.code ++ (0#1 ++ phase.code))

/-- An entry of the acceptance matrix (R151). -/
inductive Acceptance where
  /-- "yes": the command is accepted and runs. -/
  | run
  /-- "SEQ": it raises SequenceError. -/
  | sequenceError
  /-- "drop": it is discarded (R155). -/
  | discard
deriving DecidableEq, Repr

/-- The row of SETSIZE and of HEADER in the acceptance matrix (R151). -/
def setupAcceptance : Phase → Acceptance
  | .unconfigured => .sequenceError
  | .configured => .run
  | .coding => .sequenceError
  | .ended => .sequenceError
  | .done => .sequenceError
  | .fault => .discard

/-- The row of the token commands and of EOS (R151). -/
def codingAcceptance : Phase → Acceptance
  | .unconfigured => .sequenceError
  | .configured => .sequenceError
  | .coding => .run
  | .ended => .sequenceError
  | .done => .sequenceError
  | .fault => .discard

/-- The row of FLUSH (R151). -/
def flushAcceptance : Phase → Acceptance
  | .unconfigured => .sequenceError
  | .configured => .sequenceError
  | .coding => .run
  | .ended => .run
  | .done => .sequenceError
  | .fault => .discard

/-- The acceptance matrix (R151). -/
def acceptance : Instr → Phase → Acceptance
  | .config .., _ => .run
  | .setsize _, p => setupAcceptance p
  | .header, p => setupAcceptance p
  | .lit _, p => codingAcceptance p
  | .shortrep, p => codingAcceptance p
  | .rep .., p => codingAcceptance p
  | .simpleMatch .., p => codingAcceptance p
  | .eos, p => codingAcceptance p
  | .flush, p => flushAcceptance p

end Sys2Proof.Machine
end

