-- ==== Sys2Proof/Machine/Fsm.lean ====
section
/-! DEFINITION. The FSM transition tables (R120) and the MRU stack updates (R123). -/

namespace Sys2Proof.Machine

/-- `UPDATE_LITERAL` (R120). -/
def updateLiteral : List (BitVec 4) := [0, 0, 0, 0, 1, 2, 3, 4, 5, 6, 4, 5]
/-- `UPDATE_MATCH` (R120). -/
def updateMatch : List (BitVec 4) := [7, 7, 7, 7, 7, 7, 7, 10, 10, 10, 10, 10]
/-- `UPDATE_REP` (R120). -/
def updateRep : List (BitVec 4) := [8, 8, 8, 8, 8, 8, 8, 11, 11, 11, 11, 11]
/-- `UPDATE_SHORTREP` (R120). -/
def updateShortrep : List (BitVec 4) := [9, 9, 9, 9, 9, 9, 9, 11, 11, 11, 11, 11]

/-- `UPDATE_x[s]`; none for `s` of 12 to 15, which the tables do not have. -/
def fsmNext (table : List (BitVec 4)) (s : BitVec 4) : Option (BitVec 4) := table[s.toNat]?

/-- The stack after MATCH with `dist0 = d` (R123). -/
def Mru.push (m : Mru) (d : BitVec 32) : Mru := ⟨d, m.rep0, m.rep1, m.rep2⟩

/-- The stack after REP `i` (R123): `rep_dist[0..i]` rotated one slot right. -/
def Mru.rotate (m : Mru) (i : BitVec 2) : Mru :=
  if i = 0 then m
  else if i = 1 then ⟨m.rep1, m.rep0, m.rep2, m.rep3⟩
  else if i = 2 then ⟨m.rep2, m.rep0, m.rep1, m.rep3⟩
  else ⟨m.rep3, m.rep0, m.rep1, m.rep2⟩

end Sys2Proof.Machine
end

