-- ==== Sys2Proof/Machine/Ops.lean ====
section
/-! DEFINITION. The operations the commands share: the history primitives (R58 to R60), taking a fault (R149, R158),
the checks before a command (R151 to R153), emitting to the sink (R62, R158) and the end of a token (R124). -/

namespace Sys2Proof.Machine

/-- What a command answers. -/
abbrev Result := Host.Outcome State Fault Refusal

/-! ## History -/

/-- `HistRead(dist)` for `1 ≤ dist ≤ N` (R58): the byte `dist` positions before the cursor, none if that entry is not
written. -/
def histRead (dist : Nat) (s : State) : Option Byte :=
  s.hist.read ((s.es.r.toNat + s.histN.toNat - dist) % s.histN.toNat)

/-- `HistWrite(b)` (R59). -/
def histWrite (b : Byte) (s : State) : State :=
  { s with hist := s.hist.write s.es.r.toNat b,
           es := { s.es with r := BitVec.ofNat 32 ((s.es.r.toNat + 1) % s.histN.toNat) } }

/-- `HistCopy(dist, L)` (R60): byte by byte, oldest first; none if it meets an unwritten entry. -/
def histCopy (dist : Nat) : (len : Nat) → State → Option State
  | 0, s => some s
  | k + 1, s =>
    match histRead dist s with
    | none => none
    | some b => histCopy dist k (histWrite b s)

/-! ## Faults -/

/-- `raise Fault(cause)` for a command word `{op, arg}` (R149, R154): the fault record, the phase, nothing else. There
is no saved pc, no vector and no return: only CONFIG leaves phase FAULT (R156). -/
def raiseFault (cause : Cause) (op : Opcode) (arg : Argument) (s : State) : State :=
  { s with phase := .fault, cause := cause, faultOp := op, faultArg := arg }

/-- A check fault of the command `i`. -/
def checkFault (cause : Cause) (i : Instr) (s : State) : State :=
  raiseFault cause i.opcode i.argument s

/-- Every register, probability entry and history entry unspecified, with the free values of a fresh set (R158, I3;
assumption log 4). The ports keep what they hold. -/
def unspecify (s : State) : State :=
  { s with
    outCount := Config.freeValue s.freeCount 0 0x040
    cfg := CfgRegs.unspecified s.freeCount
    dictEff := (Config.freeValue s.freeCount 0 0x011).setWidth 32
    histN := (Config.freeValue s.freeCount 0 0x012).setWidth 32
    sizeKnown := (Config.freeValue s.freeCount 0 0x013).getLsbD 0
    sizeValue := Config.freeValue s.freeCount 0 0x014
    rc := RangeCoder.unspecified s.freeCount
    es := EncoderState.unspecified s.freeCount
    probs := { background := .unspecified s.freeCount, cells := [] }
    hist := { background := .unspecified s.freeCount, cells := [] }
    freeCount := s.freeCount + 1 }

/-- The sink aborts the running command `i` (R158, first case). -/
def abortRunning (i : Instr) (s : State) : State :=
  raiseFault .sinkAborted i.opcode i.argument (unspecify s)

/-- The abort input is asserted while the block is idle (R158, second and third case). -/
def abortIdle (s : State) : State :=
  if s.phase = .fault then s else raiseFault .sinkAborted 0 0 s

/-- A word that is no legal encoding (R81, R152 steps 1 and 2): discarded in phase FAULT unless its opcode is CONFIG's,
otherwise IllegalCommand. -/
def illegalCommand (w : CommandWord) (s : State) : State :=
  if s.phase = .fault ∧ opField w ≠ 0x01 then s
  else raiseFault .illegalCommand (opField w) (argField w) s

/-! ## Checks -/

/-- Steps 1 and 3 of the check order (R152), then the rest of the command. -/
def whenAccepted (i : Instr) (s : State) (rest : Unit → Result) : Result :=
  match acceptance i s.phase with
  | .run => rest ()
  | .sequenceError => .next (checkFault .sequenceError i s)
  | .discard => .next s

/-- One later check of R152: the rest of the command if it holds, a check fault if not. -/
def require (holds : Bool) (cause : Cause) (i : Instr) (s : State) (rest : Unit → Result) : Result :=
  if holds then rest () else .next (checkFault cause i s)

/-- `HistCheck(dist)` (R153): the byte at that distance is committed and within the announced dictionary. -/
def histCheck (dist : Nat) (s : State) : Bool :=
  dist ≤ s.es.totalPos.toNat && dist ≤ s.dictEff.toNat

/-! ## The sink -/

/-- What the sink did with a command's bytes. -/
structure Sunk where
  taken : List Byte
  plan : List Nat
  aborted : Bool
deriving DecidableEq, Repr

/-- The sink takes the bytes one by one until it asserts the abort input: the byte then offered and every later one
are not emitted (R158). -/
def sinkTake : (bytes : List Byte) → (plan : List Nat) → Sunk
  | [], plan => ⟨[], plan, false⟩
  | b :: bytes, [] => ⟨b :: bytes, [], false⟩
  | _ :: _, 0 :: plan => ⟨[], plan, true⟩
  | b :: bytes, (n + 1) :: plan =>
    let rest := sinkTake bytes (n :: plan)
    ⟨b :: rest.taken, rest.plan, rest.aborted⟩

/-- The end of command `i`, whose effect is `done` and which emitted `bytes`: the output stream and OUT_COUNT grow by
what the sink took (R62), and if it aborted the command has not completed (R158). -/
def deliver (i : Instr) (bytes : List Byte) (done : State) : State :=
  let sunk := sinkTake bytes done.sinkPlan
  let after : State :=
    { done with output := done.output ++ sunk.taken, sinkPlan := sunk.plan,
                outCount := done.outCount + BitVec.ofNat 64 sunk.taken.length }
  if sunk.aborted then abortRunning i after else after

/-! ## Coding and tokens -/

/-- The range coder of the state, with no byte emitted by the command yet. -/
def State.coder (s : State) : Coder := ⟨s.rc, s.probs, []⟩

/-- The state with the range coder registers and the probability file a coding left. -/
def State.withCoder (s : State) (c : Coder) : State := { s with rc := c.rc, probs := c.probs }

/-- Where a token's bytes come from. -/
inductive Source where
  /-- LIT's own byte. -/
  | literal (b : Byte)
  /-- A copy of `len` bytes from distance `dist`. -/
  | copy (dist len : Nat)
deriving DecidableEq, Repr

/-- The number of bytes a token commits (R124). -/
def Source.length : Source → Nat
  | .literal _ => 1
  | .copy _ len => len

/-- The history writes of a token (R126 to R129). -/
def Source.commit (src : Source) (s : State) : Option State :=
  match src with
  | .literal b => some (histWrite b s)
  | .copy dist len => histCopy dist len s

/-- `Advance(L)` (R124). -/
def advance (len : Nat) (s : State) : Option State :=
  match histRead 1 s with
  | none => none
  | some b =>
    let totalPos := s.es.totalPos + BitVec.ofNat 64 len
    some { s with es := { s.es with totalPos := totalPos, posState := positionState s.cfg.pb totalPos,
                                    prevByte := b } }

/-- A token command after its checks, in the order of R125: the coding steps, the FSM, the MRU stack, the history
writes, Advance, and the bytes to the sink. -/
def runToken (i : Instr) (path : List Decision) (table : List (BitVec 4)) (mru : Mru) (src : Source) (s : State) :
    Result :=
  match fsmNext table s.es.state with
  | none => .fault .illegalFsmState
  | some next =>
    let coded := s.coder.run path
    let s1 := s.withCoder coded
    match src.commit { s1 with es := { s1.es with state := next, mru := mru } } with
    | none => .fault .unwrittenHistoryRead
    | some s2 =>
      match advance src.length s2 with
      | none => .fault .unwrittenHistoryRead
      | some s3 => .next (deliver i coded.out s3)

end Sys2Proof.Machine
end

