-- ==== Sys2Proof/WellFormed.lean ====
section
/-! DEFINITION. Which operand values are legal (R79, R9, R7). These are value ranges, not encoding checks: a command
outside them is decoded and then faults with ConfigRange or LengthRange (R79, R150). -/

namespace Sys2Proof

open Sys2Proof.Machine

/-- The command's operand values are legal (R79): every value of the other commands is. -/
def Instr.wellFormed : Instr → Bool
  | .config lc lp pb _ _ _ => configInRange lc lp pb
  | .setsize _ => true
  | .header => true
  | .lit _ => true
  | .shortrep => true
  | .rep _ len => lengthInRange len
  | .simpleMatch _ len => lengthInRange len
  | .eos => true
  | .flush => true

end Sys2Proof
end

