-- ==== Sys2Proof/Machine/Framing.lean ====
section
/-! DEFINITION. The configuration and framing commands (47_framing_commands.md). -/

namespace Sys2Proof.Machine

/-- The range coder registers that CONFIG writes (R31, R131). -/
def RangeCoder.initial : RangeCoder := { width := 0xFFFFFFFF, low := 0, cache := 0, cacheSize := 1 }

/-- The encoder-state registers that CONFIG writes (R33 to R38, R131). -/
def EncoderState.initial : EncoderState :=
  { state := 0, posState := 0, prevByte := 0, r := 0, totalPos := 0, mru := ⟨0, 0, 0, 0⟩ }

/-- The state CONFIG leaves (R131, R170): every register and entry anew; the ports keep what they hold. -/
def configured (cfg : CfgRegs) (s : State) : State :=
  { s with
    phase := .configured
    cause := .none
    faultOp := 0
    faultArg := 0
    outCount := 0
    cfg := cfg
    dictEff := BitVec.ofNat 32 (effectiveDict cfg.dictSize cfg.roundPow2)
    histN := BitVec.ofNat 32 (historySize cfg.dictSize cfg.roundPow2)
    sizeKnown := false
    sizeValue := 0xFFFFFFFFFFFFFFFF
    rc := RangeCoder.initial
    es := EncoderState.initial
    probs := { background := .initial, cells := [] }
    hist := { background := .initial, cells := [] } }

/-- CONFIG (R131). -/
def execConfig (lc lp pb : BitVec 4) (hdrSize roundPow2 : Bool) (dictSize : BitVec 32) (s : State) : Result :=
  let i := Instr.config lc lp pb hdrSize roundPow2 dictSize
  whenAccepted i s fun _ =>
    require (configInRange lc lp pb) .configRange i s fun _ =>
      .next (configured ⟨lc, lp, pb, hdrSize, roundPow2, dictSize⟩ s)

/-- SETSIZE (R132). -/
def execSetsize (size : BitVec 64) (s : State) : Result :=
  whenAccepted (.setsize size) s fun _ =>
    .next { s with sizeKnown := true, sizeValue := size }

/-- HEADER (R133). -/
def execHeader (s : State) : Result :=
  whenAccepted .header s fun _ =>
    .next (deliver .header (headerBytes s.cfg s.dictEff s.sizeValue) { s with phase := .coding })

/-- EOS (R134): the coding steps, the FSM and the phase; no history byte, no Advance, no MRU update (D14). -/
def execEos (s : State) : Result :=
  whenAccepted .eos s fun _ =>
    match fsmNext updateMatch s.es.state with
    | none => .fault .illegalFsmState
    | some next =>
      let coded := s.coder.run (eosPath s.es.state s.es.posState)
      let s1 := s.withCoder coded
      .next (deliver .eos coded.out { s1 with es := { s1.es with state := next }, phase := .ended })

/-- FLUSH (R135). -/
def execFlush (s : State) : Result :=
  whenAccepted .flush s fun _ =>
    let coded := s.coder.flush
    .next (deliver .flush coded.out { s.withCoder coded with phase := .done })

end Sys2Proof.Machine
end

