-- ==== Sys2Proof/Machine/Token.lean ====
section
/-! DEFINITION. The token commands (46_token_commands.md). -/

namespace Sys2Proof.Machine

/-- `lit_idx` of the next literal, from the captured `total_pos` and `prev_byte` (R111, R121). -/
def State.litIndex (s : State) : Nat :=
  Machine.litIndex s.cfg.lc.toNat s.cfg.lp.toNat s.es.totalPos s.es.prevByte

/-- The coding of LIT `byte` (R116, R126): plain if `state < 7`, else matched against the byte at distance
`rep_dist[0] + 1` (R114); none if that byte is not written. -/
def litPath (byte : Byte) (s : State) : Option (List Decision) :=
  if s.es.state < 7 then some (plainLitPath s.litIndex byte s.es.state s.es.posState)
  else match histRead (copyDistance s.es.mru.rep0) s with
    | none => none
    | some bMatch => some (matchedLitPath s.litIndex byte bMatch s.es.state s.es.posState)

/-- LIT (R126). -/
def execLit (byte : Byte) (s : State) : Result :=
  whenAccepted (.lit byte) s fun _ =>
    match litPath byte s with
    | none => .fault .unwrittenHistoryRead
    | some path => runToken (.lit byte) path updateLiteral s.es.mru (.literal byte) s

/-- SHORTREP (R127). -/
def execShortrep (s : State) : Result :=
  let dist := copyDistance s.es.mru.rep0
  whenAccepted .shortrep s fun _ =>
    require (histCheck dist s) .historyRange .shortrep s fun _ =>
      runToken .shortrep (shortrepPath s.es.state s.es.posState) updateShortrep s.es.mru (.copy dist 1) s

/-- REP (R128). -/
def execRep (i : BitVec 2) (len : BitVec 9) (s : State) : Result :=
  let dist := copyDistance (s.es.mru.get i)
  whenAccepted (.rep i len) s fun _ =>
    require (lengthInRange len) .lengthRange (.rep i len) s fun _ =>
      require (histCheck dist s) .historyRange (.rep i len) s fun _ =>
        runToken (.rep i len) (repPath i len.toNat s.es.state s.es.posState) updateRep (s.es.mru.rotate i)
          (.copy dist len.toNat) s

/-- MATCH (R129). -/
def execMatch (dist0 : BitVec 32) (len : BitVec 9) (s : State) : Result :=
  let dist := copyDistance dist0
  whenAccepted (.simpleMatch dist0 len) s fun _ =>
    require (lengthInRange len) .lengthRange (.simpleMatch dist0 len) s fun _ =>
      require (histCheck dist s) .historyRange (.simpleMatch dist0 len) s fun _ =>
        runToken (.simpleMatch dist0 len) (simpleMatchPath dist0.toNat len.toNat s.es.state s.es.posState)
          updateMatch (s.es.mru.push dist0) (.copy dist len.toNat) s

end Sys2Proof.Machine
end

