-- ==== Sys2Proof/Machine/Dispatch.lean ====
section
/-! DEFINITION. One arm per command: the command's meaning. -/

namespace Sys2Proof.Machine

def exec (i : Instr) (s : State) : Host.Outcome State Fault Refusal :=
  match i with
  | .config lc lp pb hdrSize roundPow2 dictSize => Sys2Proof.Machine.execConfig lc lp pb hdrSize roundPow2 dictSize s
  | .setsize size => Sys2Proof.Machine.execSetsize size s
  | .header => Sys2Proof.Machine.execHeader s
  | .lit byte => Sys2Proof.Machine.execLit byte s
  | .shortrep => Sys2Proof.Machine.execShortrep s
  | .rep index len => Sys2Proof.Machine.execRep index len s
  | .simpleMatch dist0 len => Sys2Proof.Machine.execMatch dist0 len s
  | .eos => Sys2Proof.Machine.execEos s
  | .flush => Sys2Proof.Machine.execFlush s

end Sys2Proof.Machine
end

