-- ==== Sys2Proof/Machine/Observe.lean ====
section
/-! DEFINITION. The observation port (10_state.md R50 to R53): what a read of a space and an address returns. -/

namespace Sys2Proof.Machine

/-- The CFG register's layout (R51). -/
def cfgRegister (cfg : CfgRegs) : BitVec 64 :=
  cfg.dictSize ++ (0#18 ++ (BitVec.ofBool cfg.roundPow2 ++ (BitVec.ofBool cfg.hdrSize ++
    (cfg.pb ++ (cfg.lp ++ cfg.lc)))))

/-- Space 0, the register map (R51); an unassigned address reads 0 (R50). -/
def observeRegister (s : State) (addr : Nat) : BitVec 64 :=
  match addr with
  | 0x000 => statusRegister s.phase s.cause
  | 0x001 => s.faultOp.setWidth 64
  | 0x002 => s.faultArg
  | 0x010 => cfgRegister s.cfg
  | 0x011 => s.dictEff.setWidth 64
  | 0x012 => s.histN.setWidth 64
  | 0x013 => (BitVec.ofBool s.sizeKnown).setWidth 64
  | 0x014 => s.sizeValue
  | 0x020 => s.rc.width.setWidth 64
  | 0x021 => s.rc.low
  | 0x022 => s.rc.cache.setWidth 64
  | 0x023 => s.rc.cacheSize
  | 0x030 => s.es.state.setWidth 64
  | 0x031 => s.es.posState.setWidth 64
  | 0x032 => s.es.prevByte.setWidth 64
  | 0x033 => s.es.r.setWidth 64
  | 0x034 => s.es.totalPos
  | 0x038 => s.es.mru.rep0.setWidth 64
  | 0x039 => s.es.mru.rep1.setWidth 64
  | 0x03A => s.es.mru.rep2.setWidth 64
  | 0x03B => s.es.mru.rep3.setWidth 64
  | 0x040 => s.outCount
  | _ => 0

/-- The table with an observation number, if any (R52). -/
def tableNumbered (n : Nat) : Option ProbTable := ProbTable.all.find? fun t => t.number == n

/-- Space 1, the probability window (R52): address `{table[31:24], index[23:0]}`. -/
def observeProb (s : State) (addr : Nat) : BitVec 64 :=
  match tableNumbered (addr / 2 ^ 24) with
  | none => 0
  | some t =>
    if addr % 2 ^ 24 < t.size s.cfg.lc.toNat s.cfg.lp.toNat then
      (s.probs.read t (addr % 2 ^ 24)).setWidth 64
    else 0

/-- `{written[8], byte[7:0]}` of a written entry (R53). -/
def writtenEntry (b : Byte) : BitVec 64 := 0#55 ++ (1#1 ++ b)

/-- An unlisted history entry as the port shows it: unwritten with byte 0 (R53), or unspecified contents, whose byte is
0 too when the written bit is 0. -/
def unlistedEntry (background : Background) (i : Nat) : BitVec 64 :=
  match background with
  | .initial => 0
  | .unspecified tag =>
    let v := Config.freeValue tag 2 i
    if v.getLsbD 8 then writtenEntry (v.setWidth 8) else 0

/-- Space 2, the history window (R53). -/
def observeHistory (s : State) (i : Nat) : BitVec 64 :=
  if i < s.histN.toNat then
    match s.hist.read i with
    | some b => writtenEntry b
    | none => unlistedEntry s.hist.background i
  else 0

/-- A read of the observation port (R50). A space other than 0, 1 and 2 is not assigned and reads 0 (assumption
log 7). -/
def observe (s : State) (space addr : Nat) : BitVec 64 :=
  match space with
  | 0 => observeRegister s addr
  | 1 => observeProb s addr
  | 2 => observeHistory s addr
  | _ => 0

/-- The block serves a read: the answer, and no other effect (R50, R67). -/
def serveRead (space addr : Nat) (s : State) : State :=
  { s with readData := s.readData ++ [observe s space addr] }

end Sys2Proof.Machine
end

