-- ==== Sys2Proof/Machine/Port.lean ====
section
/-! DEFINITION. What the block does next: the oldest thing the host has done (R21, R68). -/

namespace Sys2Proof.Machine

/-- What the block finds on its ports. -/
inductive Arrival where
  /-- Nothing: the block is idle (R168). -/
  | idle
  /-- A legal command. -/
  | command (i : Instr)
  /-- A word that is no legal encoding (R81). -/
  | illegal (w : CommandWord)
  /-- A read on the observation port. -/
  | observe (space addr : Nat)
  /-- The abort input, while no command executes (R158). -/
  | abort
deriving DecidableEq, Repr

/-- One event, decoded. -/
def arrivalOf : HostEvent → Arrival
  | .command w =>
    match decode w with
    | .command i => .command i
    | .reservedOpcode => .illegal w
    | .mustBeZero => .illegal w
  | .observe space addr => .observe space addr
  | .abort => .abort

/-- The oldest event that the block has not served. -/
def arrival (s : State) : Arrival :=
  match s.input with
  | [] => .idle
  | e :: _ => arrivalOf e

/-- The state once the oldest event is taken from the ports. -/
def State.taken (s : State) : State := { s with input := s.input.tail }

end Sys2Proof.Machine
end

