-- ==== Sys2Proof/Machine/Step.lean ====
section
/-! DEFINITION. One step: the block serves the oldest thing the host has done, whole (R21, R50, R68, R173). -/

namespace Sys2Proof.Machine

/-- One step. With nothing on its ports the block is idle, all state held (R168). -/
def step (s : State) : Host.Outcome State Fault Refusal :=
  match arrival s with
  | .idle => .next s
  | .command i => exec i s.taken
  | .illegal w => .next (illegalCommand w s.taken)
  | .observe space addr => .next (serveRead space addr s.taken)
  | .abort => .next (abortIdle s.taken)

/-- The state with the opcode-table word `w` first on the command port, so that the next step runs it (assumption
log 8). -/
def State.withFetchWord (s : State) (nbits w : Nat) : State :=
  { s with input := .command (tableWord nbits w) :: s.input }

end Sys2Proof.Machine
end

