-- ==== Sys2Proof/Machine/Assembly.lean ====
section
/-! DEFINITION. The assembly syntax (R83) as the text of a command, and the pseudo-instructions (R84) as what they
expand to. -/

namespace Sys2Proof.Machine

/-- A one-bit operand as a number. -/
def flagText (b : Bool) : String := if b then "1" else "0"

/-- The assembly line of a command (R83), numbers in decimal. -/
def render : Instr → String
  | .config lc lp pb hdrSize roundPow2 dictSize =>
    "CONFIG lc=" ++ toString lc.toNat ++ ", lp=" ++ toString lp.toNat ++ ", pb=" ++ toString pb.toNat ++
      ", hdr_size=" ++ flagText hdrSize ++ ", round_pow2=" ++ flagText roundPow2 ++
      ", dict=" ++ toString dictSize.toNat
  | .setsize size => "SETSIZE " ++ toString size.toNat
  | .header => "HEADER"
  | .lit byte => "LIT " ++ toString byte.toNat
  | .shortrep => "SHORTREP"
  | .rep i len => "REP " ++ toString i.toNat ++ ", " ++ toString len.toNat
  | .simpleMatch dist0 len => "MATCH " ++ toString dist0.toNat ++ ", " ++ toString len.toNat
  | .eos => "EOS"
  | .flush => "FLUSH"

/-- A pseudo-instruction (R84). -/
inductive Pseudo where
  /-- `LITS "s"`. -/
  | lits (s : List Byte)
  /-- `MATCHD d, L`: the producer distance `d ≥ 1`. -/
  | matchD (d : Nat) (len : BitVec 9)
  /-- `REP0 L` to `REP3 L`. -/
  | repN (i : BitVec 2) (len : BitVec 9)
  /-- `FINISH`. -/
  | finish
  /-- `FINISH_NOEOS`. -/
  | finishNoEos
deriving DecidableEq, Repr

/-- The commands a pseudo-instruction stands for (R84); none for a producer distance outside `1 .. 2^32`. -/
def Pseudo.expand : Pseudo → Option (List Instr)
  | .lits s => some (s.map .lit)
  | .matchD d len => if 1 ≤ d ∧ d ≤ 2 ^ 32 then some [.simpleMatch (BitVec.ofNat 32 (d - 1)) len] else none
  | .repN i len => some [.rep i len]
  | .finish => some [.eos, .flush]
  | .finishNoEos => some [.flush]

end Sys2Proof.Machine
end

