-- ==== Sys2Proof/Safety.lean ====
section
/-! DEFINITION. What counts as a safe state: the invariants the spec gives (R32, R33, R34, R35, R36, R39, R48, R49, R89,
R91, R114), as one predicate that reset meets and every step keeps. -/

namespace Sys2Proof.Machine

/-- The phases in which the running invocation's state is specified: from CONFIG on, and not after a fault, which may
have been a SinkAborted (R54, R158). -/
def Phase.live : Phase → Bool
  | .unconfigured => false
  | .configured => true
  | .coding => true
  | .ended => true
  | .done => true
  | .fault => false

/-- A probability is in `[31, 2017]` (R39, R87). -/
def probInRange (p : Prob) : Bool := 31 ≤ p.toNat && p.toNat ≤ 2017

/-- Every entry of the probability file is in `[31, 2017]` (R39). -/
def ProbFile.inRange (f : ProbFile) : Prop := ∀ address, probInRange (f.readAt address) = true

/-- The range coder between commands: `width ≥ WIDTH_MIN` (R89), and the interval ends below `2^33`, so that
`low < 2^33` and the carry is 0 or 1 (R32, R91). -/
def RangeCoder.sound (rc : RangeCoder) : Prop :=
  widthMin.toNat ≤ rc.width.toNat ∧ rc.low.toNat + rc.width.toNat < 2 ^ 33

/-- The registers CONFIG derives: `2^12 ≤ DICT_EFF ≤ HIST_N ≤ 2^25`, `HIST_N` a power of two (R10, R11). -/
def State.sizesSound (s : State) : Prop :=
  minDict ≤ s.dictEff.toNat ∧ s.dictEff.toNat ≤ s.histN.toNat ∧ ∃ k, 12 ≤ k ∧ k ≤ 25 ∧ s.histN.toNat = 2 ^ k

/-- The history: the cursor follows `total_pos` (R36, R37), only entries of the buffer are written (R48), the last
`min(total_pos, N)` of them are, and the last byte committed is `prev_byte` (R35, R49 (d)). -/
structure State.HistorySound (s : State) : Prop where
  cursor : s.es.r.toNat = s.es.totalPos.toNat % s.histN.toNat
  inside : ∀ a, (s.hist.read a).isSome = true → a < s.histN.toNat
  written : ∀ dist, 1 ≤ dist → dist ≤ s.es.totalPos.toNat → dist ≤ s.histN.toNat → (histRead dist s).isSome = true
  last : 1 ≤ s.es.totalPos.toNat → histRead 1 s = some s.es.prevByte

/-- The state of a running invocation. In the phases from which a LIT may yet come, a `state` of 7 or more finds its match
byte written (R114). -/
structure State.Live (s : State) : Prop where
  config : configInRange s.cfg.lc s.cfg.lp s.cfg.pb = true
  sizes : s.sizesSound
  initial : s.probs.background = .initial ∧ s.hist.background = .initial
  probs : s.probs.inRange
  coder : s.rc.sound
  fsm : s.es.state.toNat < 12
  position : s.es.posState = positionState s.cfg.pb s.es.totalPos
  history : s.HistorySound
  matched : s.phase = .configured ∨ s.phase = .coding → 7 ≤ s.es.state.toNat →
    (histRead (copyDistance s.es.mru.rep0) s).isSome = true

/-- The invariant of the machine: both memories in canonical form, a cause recorded exactly in phase FAULT (R26, R149),
and a sound invocation in the live phases. -/
structure State.Inv (s : State) : Prop where
  canonical : Memory.wf s = true
  recorded : s.phase = .fault ↔ s.cause ≠ .none
  live : s.phase.live = true → s.Live

end Sys2Proof.Machine
end

