-- ==== Sys2Proof/Certificates/Slice0/Obligations.lean ====
section
/-! DEFINITION. The statements for the provers, from the numbered rules of spec/. -/

namespace Sys2Proof.Machine

/-! ### What the statements say things with -/

/-- `t` is `s` with the fault record of the command `i` (R149). -/
def faultRecorded (cause : Cause) (i : Instr) (s : State) : State :=
  { s with phase := .fault, cause := cause, faultOp := i.opcode, faultArg := i.argument }

/-- The configuration and size registers are the same (R29, R30). -/
def sameConfiguration (s t : State) : Prop :=
  t.cfg = s.cfg ∧ t.dictEff = s.dictEff ∧ t.histN = s.histN ∧ t.sizeKnown = s.sizeKnown ∧ t.sizeValue = s.sizeValue

/-- STATUS and the fault record are the same (R25 to R27). -/
def sameRecord (s t : State) : Prop :=
  t.phase = s.phase ∧ t.cause = s.cause ∧ t.faultOp = s.faultOp ∧ t.faultArg = s.faultArg

/-- The ports other than the output port are the same, and no free value was drawn. -/
def samePorts (s t : State) : Prop :=
  t.input = s.input ∧ t.readData = s.readData ∧ t.sinkPlan = s.sinkPlan ∧ t.freeCount = s.freeCount

/-- `t` is `s` after `bytes` were emitted (R62). -/
def emitted (s t : State) (bytes : List Byte) : Prop :=
  t.output = s.output ++ bytes ∧ t.outCount.toNat = (s.outCount.toNat + bytes.length) % 2 ^ 64

/-- `t` is `s` after the coding steps `path` (R85), with no byte lost. -/
def coded (s t : State) (path : List Decision) : Prop :=
  t.rc = (s.coder.run path).rc ∧ t.probs = (s.coder.run path).probs ∧ emitted s t (s.coder.run path).out

/-- `t` is `s` after a token of `len` bytes coded by `path` (R124, R125, R130): the FSM by `table`, the MRU stack now
`mru`, the position moved on, `prev_byte` the last byte committed, everything else as it was. -/
structure TokenDone (s t : State) (path : List Decision) (table : List (BitVec 4)) (mru : Mru) (len : Nat) : Prop where
  coding : coded s t path
  fsm : table[s.es.state.toNat]? = some t.es.state
  stack : t.es.mru = mru
  position : t.es.totalPos.toNat = (s.es.totalPos.toNat + len) % 2 ^ 64
  posState : t.es.posState.toNat = t.es.totalPos.toNat % 2 ^ s.cfg.pb.toNat
  cursor : t.es.r.toNat = (s.es.r.toNat + len) % s.histN.toNat
  last : histRead 1 t = some t.es.prevByte
  record : sameRecord s t
  configuration : sameConfiguration s t
  ports : samePorts s t

/-- `t` holds the `len` bytes copied from distance `dist` of `s`, the last `dist` bytes of `s` repeated (R60). -/
def copied (s t : State) (dist len : Nat) : Prop :=
  ∀ k, k < len → histRead (len - k) t = histRead (dist - k % dist) s ∧ (histRead (len - k) t).isSome = true

/-- The command is CONFIG. -/
def isConfig : Instr → Bool
  | .config .. => true
  | .setsize _ => false
  | .header => false
  | .lit _ => false
  | .shortrep => false
  | .rep .. => false
  | .simpleMatch .. => false
  | .eos => false
  | .flush => false

/-- How many history bytes a command stores (R130; EOS and the other control commands store none). -/
def storedBytes : Instr → Nat
  | .config .. => 0
  | .setsize _ => 0
  | .header => 0
  | .lit _ => 1
  | .shortrep => 1
  | .rep _ len => len.toNat
  | .simpleMatch _ len => len.toNat
  | .eos => 0
  | .flush => 0

/-- The coding steps of a command in a state (R122): none for the commands that code nothing. -/
def codingSteps (i : Instr) (s : State) : List Decision :=
  match i with
  | .config .. => []
  | .setsize _ => []
  | .header => []
  | .lit byte => (litPath byte s).getD []
  | .shortrep => shortrepPath s.es.state s.es.posState
  | .rep index len => repPath index len.toNat s.es.state s.es.posState
  | .simpleMatch dist0 len => simpleMatchPath dist0.toNat len.toNat s.es.state s.es.posState
  | .eos => eosPath s.es.state s.es.posState
  | .flush => []

/-- The phases in which a command is accepted (R151). -/
def acceptedIn : Instr → List Phase
  | .config .. => [.unconfigured, .configured, .coding, .ended, .done, .fault]
  | .setsize _ => [.configured]
  | .header => [.configured]
  | .lit _ => [.coding]
  | .shortrep => [.coding]
  | .rep .. => [.coding]
  | .simpleMatch .. => [.coding]
  | .eos => [.coding]
  | .flush => [.coding, .ended]

/-- The number of base-256 digits the range coder has produced: emitted, cached and pending ones (R90 (d)). -/
def Coder.digits (c : Coder) : Nat := c.out.length + c.rc.cacheSize.toNat

/-- The number those digits and `low` stand for: the emitted bytes, the cache byte, the pending 0xFF bytes, most
significant first, then the 32-bit window with its carry (R32, R63). -/
def Coder.value (c : Coder) : Nat :=
  (c.out.map BitVec.toNat ++ c.rc.cache.toNat :: List.replicate (c.rc.cacheSize.toNat - 1) 0xFF).foldl
    (fun acc digit => 256 * acc + digit) 0 * 2 ^ 32 + c.rc.low.toNat

/-- The range coder as CONFIG leaves it, no byte emitted by it yet, every probability ½ (R31, R46). -/
def Coder.initial : Coder := ⟨RangeCoder.initial, ⟨.initial, []⟩, []⟩

/-- A range coder that can lose no carry: sound, its file in range and canonical, something cached, and no carry
possible while the cache byte is 0xFF. -/
def Coder.carrySafe (c : Coder) : Prop :=
  c.rc.sound ∧ c.probs.inRange ∧ c.probs.wf = true ∧ 1 ≤ c.rc.cacheSize.toNat ∧
    (c.rc.cache = 0xFF → c.rc.low.toNat + c.rc.width.toNat ≤ 2 ^ 32)

/-- The entry is one that no coder ever uses (R47): entry 0 of every bit tree, the rows of position states `2^pb` and
above, `pos_coder[114]`, and the entries 0x000, 0x100 and 0x200 of each literal cluster. -/
def unusedEntry (pb : Nat) : ProbTable → Nat → Prop
  | .lowCoder _, i => i % 8 = 0 ∨ 2 ^ pb ≤ i / 8
  | .midCoder _, i => i % 8 = 0 ∨ 2 ^ pb ≤ i / 8
  | .highCoder _, i => i = 0
  | .slotCoder, i => i % 64 = 0
  | .posCoder, i => i = 114
  | .alignCoder, i => i = 0
  | .lit, i => i % 0x300 = 0 ∨ i % 0x300 = 0x100 ∨ i % 0x300 = 0x200
  | .matchSwitch, i => 2 ^ pb ≤ i % 16
  | .rep, _ => False
  | .repG0, _ => False
  | .repG1, _ => False
  | .repG2, _ => False
  | .rep0Long, i => 2 ^ pb ≤ i % 16
  | .choice1 _, _ => False
  | .choice2 _, _ => False

/-- What the probability window shows at `index` of a table of `size` entries (R52): the entry, or 0 beyond the table. -/
def windowEntry (s : State) (t : ProbTable) (size index : Nat) : Nat :=
  if index < size then (s.probs.read t index).toNat else 0

/-- The node of a bit tree that the bits already coded lead to: 1 followed by them, the first one next to the 1 (R96,
R97). -/
def nodeAfter (coded : List Bool) : Nat := coded.foldl (fun node b => 2 * node + b.toNat) 1

/-- Every adaptive step of the path addresses a used entry inside its table. -/
def insideTables (lc lp pb : Nat) (path : List Decision) : Prop :=
  ∀ t i b, Decision.bit t i b ∈ path → i < t.size lc lp ∧ ¬ unusedEntry pb t i

end Sys2Proof.Machine

open Sys2Proof Sys2Proof.Machine

/-! ### Encoding (30_encoding.md) -/

/-- Words written out bit by bit from the formats (R72 to R78, R80) decode to the commands they stand for. -/
def Obligations.WrittenWordsDecode : Prop :=
  decode 0x01000186A000002203 = .command (.config 3 0 2 false true 100000) ∧
  decode 0x020102030405060708 = .command (.setsize 0x0102030405060708) ∧
  decode 0x030000000000000000 = .command .header ∧
  decode 0x100000000000000041 = .command (.lit 0x41) ∧
  decode 0x110000000000000000 = .command .shortrep ∧
  decode 0x120000000300000002 = .command (.rep 2 3) ∧
  decode 0x130000011180000001 = .command (.simpleMatch 0x80000001 273) ∧
  decode 0x140000000000000000 = .command .eos ∧
  decode 0x150000000000000000 = .command .flush ∧
  decode 0x160000000000000000 = .reservedOpcode ∧
  decode 0x100000000000000100 = .mustBeZero

/-- Decoding an encoded command gives it back, with every operand at every value (R72 to R80). -/
def Obligations.DecodeOfEncode : Prop :=
  ∀ i : Instr, decode (encode i) = .command i

/-- A legal word has one meaning: encoding what it decodes to gives the word back (R72 to R80). -/
def Obligations.EncodeOfDecode : Prop :=
  ∀ (w : CommandWord) (i : Instr), decode w = .command i → encode i = w

/-- The decoder accepts a word as a row's command iff `(w & mask) = match` (R80), rejects a word whose opcode is a
row's and fails that test by its name, and rejects every other word by its. -/
def Obligations.DecodeAgreesWithOpcodeTable : Prop :=
  (∀ (w : CommandWord) (row : OpcodeRow), row ∈ opcodeTable →
    (w &&& row.mask = row.pattern ↔ ∃ i, decode w = .command i ∧ i.mnemonic = row.mnemonic) ∧
    (opField w = opField row.pattern → w &&& row.mask ≠ row.pattern → decode w = .mustBeZero)) ∧
  (∀ w : CommandWord, (∀ row ∈ opcodeTable, opField w ≠ opField row.pattern) → decode w = .reservedOpcode)

/-! ### The step (R21, R50, R68, R81, R168) -/

/-- When the oldest event is a word that decodes to `i`, the step is exec of `i` at the state without that event (R68; the
list of events is the model's, assumption log 1). -/
def Obligations.StepRunsDecodedCommand : Prop :=
  ∀ (s : State) (w : CommandWord) (rest : List HostEvent) (i : Instr),
    s.input = .command w :: rest → decode w = .command i → step s = exec i { s with input := rest }

/-- A block with nothing on its ports holds all its state (R168). -/
def Obligations.IdleHoldsState : Prop :=
  ∀ s : State, s.input = [] → step s = .next s

/-- A read of the observation port answers the value and changes nothing else (R50). -/
def Obligations.ReadHasNoSideEffect : Prop :=
  ∀ (s : State) (space addr : Nat) (rest : List HostEvent), s.input = .observe space addr :: rest →
    step s = .next { s with input := rest, readData := s.readData ++ [observe s space addr] }

/-- Outside phase FAULT, a reserved opcode, or a nonzero bit that the format marks "must be 0", raises IllegalCommand
with no other effect (R81). -/
def Obligations.IllegalWordRaisesIllegalCommand : Prop :=
  ∀ (s : State) (w : CommandWord) (rest : List HostEvent),
    s.input = .command w :: rest → s.phase ≠ .fault →
    (opField w ∉ [0x01, 0x02, 0x03, 0x10, 0x11, 0x12, 0x13, 0x14, 0x15] ∨
      ∃ row ∈ opcodeTable, opField w = opField row.pattern ∧ w &&& row.mask ≠ row.pattern) →
    step s = .next { s with input := rest, phase := .fault, cause := .illegalCommand,
                            faultOp := opField w, faultArg := argField w }

/-! ### The observation port (R50 to R53) -/

/-- The register map (R51): every assigned address of space 0 returns its register's bits, every other address 0. -/
def Obligations.RegisterMap : Prop :=
  ∀ s : State,
    (observe s 0 0x000).toNat = s.phase.code.toNat + 2 ^ 4 * s.cause.code.toNat ∧
    (observe s 0 0x001).toNat = s.faultOp.toNat ∧
    (observe s 0 0x002).toNat = s.faultArg.toNat ∧
    (observe s 0 0x010).toNat = s.cfg.lc.toNat + 2 ^ 4 * s.cfg.lp.toNat + 2 ^ 8 * s.cfg.pb.toNat +
      2 ^ 12 * s.cfg.hdrSize.toNat + 2 ^ 13 * s.cfg.roundPow2.toNat + 2 ^ 32 * s.cfg.dictSize.toNat ∧
    (observe s 0 0x011).toNat = s.dictEff.toNat ∧
    (observe s 0 0x012).toNat = s.histN.toNat ∧
    (observe s 0 0x013).toNat = s.sizeKnown.toNat ∧
    (observe s 0 0x014).toNat = s.sizeValue.toNat ∧
    (observe s 0 0x020).toNat = s.rc.width.toNat ∧
    (observe s 0 0x021).toNat = s.rc.low.toNat ∧
    (observe s 0 0x022).toNat = s.rc.cache.toNat ∧
    (observe s 0 0x023).toNat = s.rc.cacheSize.toNat ∧
    (observe s 0 0x030).toNat = s.es.state.toNat ∧
    (observe s 0 0x031).toNat = s.es.posState.toNat ∧
    (observe s 0 0x032).toNat = s.es.prevByte.toNat ∧
    (observe s 0 0x033).toNat = s.es.r.toNat ∧
    (observe s 0 0x034).toNat = s.es.totalPos.toNat ∧
    (∀ i : BitVec 2, (observe s 0 (0x038 + i.toNat)).toNat = (s.es.mru.get i).toNat) ∧
    (observe s 0 0x040).toNat = s.outCount.toNat ∧
    (∀ addr, addr ∉ [0x000, 0x001, 0x002, 0x010, 0x011, 0x012, 0x013, 0x014, 0x020, 0x021, 0x022, 0x023, 0x030, 0x031,
        0x032, 0x033, 0x034, 0x038, 0x039, 0x03A, 0x03B, 0x040] → observe s 0 addr = 0)

/-- The probability window (R52), table by table: `{table, index}` shows the entry of the table with that number, and 0 from
the size that R40 to R45 give the table on; a number above 19 reads 0. -/
def Obligations.ProbabilityWindow : Prop :=
  (∀ (s : State) (index : Nat), index < 2 ^ 24 →
    (observe s 1 (0 * 2 ^ 24 + index)).toNat = windowEntry s .matchSwitch 192 index ∧
    (observe s 1 (1 * 2 ^ 24 + index)).toNat = windowEntry s .rep 12 index ∧
    (observe s 1 (2 * 2 ^ 24 + index)).toNat = windowEntry s .repG0 12 index ∧
    (observe s 1 (3 * 2 ^ 24 + index)).toNat = windowEntry s .repG1 12 index ∧
    (observe s 1 (4 * 2 ^ 24 + index)).toNat = windowEntry s .repG2 12 index ∧
    (observe s 1 (5 * 2 ^ 24 + index)).toNat = windowEntry s .rep0Long 192 index ∧
    (observe s 1 (6 * 2 ^ 24 + index)).toNat = windowEntry s (.choice1 .len) 1 index ∧
    (observe s 1 (7 * 2 ^ 24 + index)).toNat = windowEntry s (.choice2 .len) 1 index ∧
    (observe s 1 (8 * 2 ^ 24 + index)).toNat = windowEntry s (.lowCoder .len) (16 * 8) index ∧
    (observe s 1 (9 * 2 ^ 24 + index)).toNat = windowEntry s (.midCoder .len) (16 * 8) index ∧
    (observe s 1 (10 * 2 ^ 24 + index)).toNat = windowEntry s (.highCoder .len) 256 index ∧
    (observe s 1 (11 * 2 ^ 24 + index)).toNat = windowEntry s (.choice1 .repLen) 1 index ∧
    (observe s 1 (12 * 2 ^ 24 + index)).toNat = windowEntry s (.choice2 .repLen) 1 index ∧
    (observe s 1 (13 * 2 ^ 24 + index)).toNat = windowEntry s (.lowCoder .repLen) (16 * 8) index ∧
    (observe s 1 (14 * 2 ^ 24 + index)).toNat = windowEntry s (.midCoder .repLen) (16 * 8) index ∧
    (observe s 1 (15 * 2 ^ 24 + index)).toNat = windowEntry s (.highCoder .repLen) 256 index ∧
    (observe s 1 (16 * 2 ^ 24 + index)).toNat = windowEntry s .slotCoder (4 * 64) index ∧
    (observe s 1 (17 * 2 ^ 24 + index)).toNat = windowEntry s .posCoder 115 index ∧
    (observe s 1 (18 * 2 ^ 24 + index)).toNat = windowEntry s .alignCoder 16 index ∧
    (observe s 1 (19 * 2 ^ 24 + index)).toNat =
      windowEntry s .lit (0x300 * 2 ^ (s.cfg.lc.toNat + s.cfg.lp.toNat)) index) ∧
  (∀ (s : State) (addr : Nat), 20 ≤ addr / 2 ^ 24 → observe s 1 addr = 0)

/-- The history window (R53): `{written[8], byte[7:0]}` of entry `i < N`, the byte 0 when the written bit is 0; an
unwritten entry reads 0, an address from `N` on too. -/
def Obligations.HistoryWindow : Prop :=
  ∀ (s : State) (i : Nat),
    (i < s.histN.toNat → ∀ b, s.hist.read i = some b → (observe s 2 i).toNat = 2 ^ 8 + b.toNat) ∧
    (i < s.histN.toNat → s.hist.read i = none → s.hist.background = .initial → observe s 2 i = 0) ∧
    (observe s 2 i).toNat < 2 ^ 9 ∧ ((observe s 2 i).toNat < 2 ^ 8 → observe s 2 i = 0) ∧
    (s.histN.toNat ≤ i → observe s 2 i = 0)

/-! ### Reset and CONFIG (R54, R131) -/

/-- Power-on reset (R54, R169): phase UNCONFIGURED, no fault recorded, OUT_COUNT 0, nothing emitted, and nothing for
the block to do. -/
def Obligations.ResetValues : Prop :=
  observe State.reset 0 0x000 = 0 ∧ observe State.reset 0 0x001 = 0 ∧ observe State.reset 0 0x002 = 0 ∧
  observe State.reset 0 0x040 = 0 ∧ State.reset.phase = .unconfigured ∧ State.reset.cause = .none ∧
  State.reset.output = [] ∧ step State.reset = .next State.reset

/-- CONFIG with legal operands completes in every phase and leaves the CONFIG column of R51, every probability entry
1024 (R46) and every history entry unwritten (R48); it emits nothing (R131). -/
def Obligations.ConfigStartsInvocation : Prop :=
  ∀ (s : State) (lc lp pb : BitVec 4) (hdrSize roundPow2 : Bool) (dictSize : BitVec 32),
    lc.toNat ≤ 8 → lp.toNat ≤ 4 → pb.toNat ≤ 4 →
    ∃ t, exec (.config lc lp pb hdrSize roundPow2 dictSize) s = .next t ∧
      t.phase = .configured ∧ t.cause = .none ∧ t.faultOp = 0 ∧ t.faultArg = 0 ∧ t.outCount = 0 ∧
      t.cfg = ⟨lc, lp, pb, hdrSize, roundPow2, dictSize⟩ ∧
      t.sizeKnown = false ∧ t.sizeValue = 0xFFFFFFFFFFFFFFFF ∧
      t.rc = ⟨0xFFFFFFFF, 0, 0, 1⟩ ∧ t.es = ⟨0, 0, 0, 0, 0, ⟨0, 0, 0, 0⟩⟩ ∧
      (∀ table index, t.probs.read table index = 1024) ∧
      (∀ i, t.hist.read i = none) ∧ (∀ i, observe t 2 i = 0) ∧
      t.output = s.output ∧ samePorts s t

/-- The dictionary sizes that CONFIG derives (R10, R11): DICT_EFF is `dict_size` clamped to `[2^12, 2^25]`, and with
`round_pow2` the smallest power of two at least that; HIST_N is the smallest power of two `≥ DICT_EFF`. -/
def Obligations.ConfigDerivesSizes : Prop :=
  ∀ (s t : State) (lc lp pb : BitVec 4) (hdrSize roundPow2 : Bool) (dictSize : BitVec 32),
    lc.toNat ≤ 8 → lp.toNat ≤ 4 → pb.toNat ≤ 4 →
    exec (.config lc lp pb hdrSize roundPow2 dictSize) s = .next t →
    (roundPow2 = false → t.dictEff.toNat = min (max dictSize.toNat (2 ^ 12)) (2 ^ 25)) ∧
    (roundPow2 = true → (∃ k, t.dictEff.toNat = 2 ^ k) ∧ min (max dictSize.toNat (2 ^ 12)) (2 ^ 25) ≤ t.dictEff.toNat ∧
      ∀ k, min (max dictSize.toNat (2 ^ 12)) (2 ^ 25) ≤ 2 ^ k → t.dictEff.toNat ≤ 2 ^ k) ∧
    (∃ k, t.histN.toNat = 2 ^ k) ∧ t.dictEff.toNat ≤ t.histN.toNat ∧
    (∀ k, t.dictEff.toNat ≤ 2 ^ k → t.histN.toNat ≤ 2 ^ k) ∧
    2 ^ 12 ≤ t.histN.toNat ∧ t.histN.toNat ≤ 2 ^ 25

/-- A CONFIG leaves the same state whatever preceded it (R170); only what has crossed the ports remains. -/
def Obligations.ConfigForgetsEverything : Prop :=
  ∀ (s s' : State) (lc lp pb : BitVec 4) (hdrSize roundPow2 : Bool) (dictSize : BitVec 32),
    lc.toNat ≤ 8 → lp.toNat ≤ 4 → pb.toNat ≤ 4 → samePorts s s' → s'.output = s.output →
    exec (.config lc lp pb hdrSize roundPow2 dictSize) s = exec (.config lc lp pb hdrSize roundPow2 dictSize) s'

/-- CONFIG with `lc > 8`, `lp > 4` or `pb > 4` raises ConfigRange in every phase, FAULT included, and changes nothing
but the fault record (R131, R150, R156). -/
def Obligations.ConfigOutOfRangeFaults : Prop :=
  ∀ (s : State) (lc lp pb : BitVec 4) (hdrSize roundPow2 : Bool) (dictSize : BitVec 32),
    (8 < lc.toNat ∨ 4 < lp.toNat ∨ 4 < pb.toNat) →
    exec (.config lc lp pb hdrSize roundPow2 dictSize) s =
      .next (faultRecorded .configRange (.config lc lp pb hdrSize roundPow2 dictSize) s)

/-! ### SETSIZE, HEADER, EOS, FLUSH (47_framing_commands.md) -/

/-- SETSIZE records the size in phase CONFIGURED, faults with SequenceError in every other phase but FAULT, and is
discarded in FAULT (R132, R151). -/
def Obligations.SetsizeRecordsSize : Prop :=
  ∀ (s : State) (size : BitVec 64),
    (s.phase = .configured → exec (.setsize size) s = .next { s with sizeKnown := true, sizeValue := size }) ∧
    (s.phase ≠ .configured → s.phase ≠ .fault →
      exec (.setsize size) s = .next (faultRecorded .sequenceError (.setsize size) s)) ∧
    (s.phase = .fault → exec (.setsize size) s = .next s)

/-- HEADER in phase CONFIGURED emits the property byte, the four bytes of DICT_EFF and, with `hdr_size`, the eight bytes
of SIZE.value, little-endian, enters CODING and touches nothing else (R133). -/
def Obligations.HeaderEmitsItsFields : Prop :=
  ∀ s : State, s.phase = .configured → s.sinkPlan = [] →
    configInRange s.cfg.lc s.cfg.lp s.cfg.pb = true →
    ∃ t bytes, exec .header s = .next t ∧ emitted s t bytes ∧
      bytes.map BitVec.toNat = (s.cfg.lc.toNat + 9 * s.cfg.lp.toNat + 45 * s.cfg.pb.toNat) ::
        (List.range 4).map (fun k => s.dictEff.toNat / 256 ^ k % 256) ++
        (if s.cfg.hdrSize then (List.range 8).map (fun k => s.sizeValue.toNat / 256 ^ k % 256) else []) ∧
      t.phase = .coding ∧ t.cause = s.cause ∧ t.faultOp = s.faultOp ∧ t.faultArg = s.faultArg ∧
      sameConfiguration s t ∧ t.rc = s.rc ∧ t.es = s.es ∧ t.probs = s.probs ∧ t.hist = s.hist ∧ samePorts s t

/-- EOS in phase CODING codes one match bit, a simple match of length 2 at distance 0xFFFFFFFF, applies UPDATE_MATCH,
enters ENDED, and leaves `total_pos`, `pos_state`, `prev_byte`, `R`, `rep_dist` and the history unchanged (R134). -/
def Obligations.EosCodesTheMarker : Prop :=
  ∀ s : State, s.phase = .coding → s.sinkPlan = [] → s.es.state.toNat < 12 →
    ∃ t next, exec .eos s = .next t ∧
      coded s t ([.bit .matchSwitch (16 * s.es.state.toNat + s.es.posState.toNat) true,
                  .bit .rep s.es.state.toNat false] ++
                 lenEncode .len 2 s.es.posState.toNat ++ distEncode 0xFFFFFFFF 2) ∧
      updateMatch[s.es.state.toNat]? = some next ∧ t.es = { s.es with state := next } ∧
      t.phase = .ended ∧ t.cause = s.cause ∧ t.faultOp = s.faultOp ∧ t.faultArg = s.faultArg ∧
      t.hist = s.hist ∧ sameConfiguration s t ∧ samePorts s t

/-- FLUSH in phase CODING or ENDED performs five Shift_low, leaves `low = 0`, `cache = 0`, `cache_size = 1` and `width`
unchanged (R94), enters DONE and touches nothing else (R135). -/
def Obligations.FlushEndsTheStream : Prop :=
  ∀ s : State, s.phase = .coding ∨ s.phase = .ended → s.sinkPlan = [] →
    ∃ t, exec .flush s = .next t ∧
      emitted s t s.coder.shiftLow.shiftLow.shiftLow.shiftLow.shiftLow.out ∧
      t.rc = ⟨s.rc.width, 0, 0, 1⟩ ∧
      t.phase = .done ∧ t.cause = s.cause ∧ t.faultOp = s.faultOp ∧ t.faultArg = s.faultArg ∧
      t.es = s.es ∧ t.probs = s.probs ∧ t.hist = s.hist ∧ sameConfiguration s t ∧ samePorts s t

/-! ### The token commands (46_token_commands.md) -/

/-- LIT in phase CODING completes: plain coding if `state < 7`, else matched against the byte at distance
`rep_dist[0] + 1` read before anything is written; UPDATE_LITERAL; the byte stored at the cursor; the MRU stack
unchanged (R126, R116, R123). -/
def Obligations.LitCommitsItsByte : Prop :=
  ∀ (byte : Byte) (s : State), s.Inv → s.phase = .coding → s.sinkPlan = [] →
    ∃ t path, exec (.lit byte) s = .next t ∧
      TokenDone s t (.bit .matchSwitch (16 * s.es.state.toNat + s.es.posState.toNat) false :: path)
        updateLiteral s.es.mru 1 ∧
      (s.es.state.toNat < 7 →
        path = litPlain (litIndex s.cfg.lc.toNat s.cfg.lp.toNat s.es.totalPos s.es.prevByte) byte) ∧
      (7 ≤ s.es.state.toNat → ∃ bMatch, histRead (s.es.mru.rep0.toNat + 1) s = some bMatch ∧
        path = litMatched (litIndex s.cfg.lc.toNat s.cfg.lp.toNat s.es.totalPos s.es.prevByte) byte bMatch) ∧
      t.es.prevByte = byte ∧ t.hist.read s.es.r.toNat = some byte

/-- SHORTREP in phase CODING, its distance in the history, completes: four switch bits, UPDATE_SHORTREP, one byte copied
from distance `rep_dist[0] + 1`, the MRU stack unchanged (R127). -/
def Obligations.ShortrepCopiesOneByte : Prop :=
  ∀ s : State, s.Inv → s.phase = .coding → s.sinkPlan = [] →
    s.es.mru.rep0.toNat + 1 ≤ s.es.totalPos.toNat → s.es.mru.rep0.toNat + 1 ≤ s.dictEff.toNat →
    ∃ t, exec .shortrep s = .next t ∧
      TokenDone s t
        [.bit .matchSwitch (16 * s.es.state.toNat + s.es.posState.toNat) true, .bit .rep s.es.state.toNat true,
         .bit .repG0 s.es.state.toNat false, .bit .rep0Long (16 * s.es.state.toNat + s.es.posState.toNat) false]
        updateShortrep s.es.mru 1 ∧
      copied s t (s.es.mru.rep0.toNat + 1) 1

/-- REP `i`, `L` in phase CODING, `L` legal and its distance in the history, completes: the switch bits of its index,
the length through `rep_len`, UPDATE_REP, `L` bytes copied, `rep_dist[0..i]` rotated one slot right (R128, R123). -/
def Obligations.RepCopiesAndRotates : Prop :=
  ∀ (i : BitVec 2) (len : BitVec 9) (s : State), s.Inv → s.phase = .coding → s.sinkPlan = [] →
    2 ≤ len.toNat → len.toNat ≤ 273 →
    (s.es.mru.get i).toNat + 1 ≤ s.es.totalPos.toNat → (s.es.mru.get i).toNat + 1 ≤ s.dictEff.toNat →
    ∃ t select, exec (.rep i len) s = .next t ∧
      TokenDone s t
        (.bit .matchSwitch (16 * s.es.state.toNat + s.es.posState.toNat) true :: .bit .rep s.es.state.toNat true ::
          (select ++ lenEncode .repLen len.toNat s.es.posState.toNat))
        updateRep t.es.mru len.toNat ∧
      (i = 0 → select = [.bit .repG0 s.es.state.toNat false,
        .bit .rep0Long (16 * s.es.state.toNat + s.es.posState.toNat) true]) ∧
      (i = 1 → select = [.bit .repG0 s.es.state.toNat true, .bit .repG1 s.es.state.toNat false]) ∧
      (i = 2 → select = [.bit .repG0 s.es.state.toNat true, .bit .repG1 s.es.state.toNat true,
        .bit .repG2 s.es.state.toNat false]) ∧
      (i = 3 → select = [.bit .repG0 s.es.state.toNat true, .bit .repG1 s.es.state.toNat true,
        .bit .repG2 s.es.state.toNat true]) ∧
      t.es.mru.get 0 = s.es.mru.get i ∧
      (∀ j : BitVec 2, 0 < j.toNat → j.toNat ≤ i.toNat → t.es.mru.get j = s.es.mru.get (j - 1)) ∧
      (∀ j : BitVec 2, i.toNat < j.toNat → t.es.mru.get j = s.es.mru.get j) ∧
      copied s t ((s.es.mru.get i).toNat + 1) len.toNat

/-- MATCH `dist0`, `L` in phase CODING, `L` legal and its distance in the history, completes: the switch bits, the length
through `len`, the distance, UPDATE_MATCH, `L` bytes copied, `dist0` pushed on the MRU stack (R129, R123). -/
def Obligations.MatchCopiesAndPushes : Prop :=
  ∀ (dist0 : BitVec 32) (len : BitVec 9) (s : State), s.Inv → s.phase = .coding → s.sinkPlan = [] →
    2 ≤ len.toNat → len.toNat ≤ 273 →
    dist0.toNat + 1 ≤ s.es.totalPos.toNat → dist0.toNat + 1 ≤ s.dictEff.toNat →
    ∃ t, exec (.simpleMatch dist0 len) s = .next t ∧
      TokenDone s t
        ([.bit .matchSwitch (16 * s.es.state.toNat + s.es.posState.toNat) true, .bit .rep s.es.state.toNat false] ++
          lenEncode .len len.toNat s.es.posState.toNat ++ distEncode dist0.toNat len.toNat)
        updateMatch ⟨dist0, s.es.mru.rep0, s.es.mru.rep1, s.es.mru.rep2⟩ len.toNat ∧
      copied s t (dist0.toNat + 1) len.toNat

/-! ### The range coder (41_range_coder.md) -/

/-- Both coding steps, before Normalize, in exact arithmetic. EncodeBit (R86): from `width ≥ WIDTH_MIN` and a probability in
`[31, 2017]` the product never wraps, neither branch leaves `width = 0`, and the entry moves by `1/32` toward the bit
coded. A direct bit (R93): `width` halves, a 1 adds the halved width to `low`, a 0 leaves `low`, and no entry changes. -/
def Obligations.EncodeBitSplitsTheInterval : Prop :=
  (∀ (c : Coder) (t : ProbTable) (i : Nat) (b : Bool),
    2 ^ 24 ≤ c.rc.width.toNat → c.rc.low.toNat < 2 ^ 33 → c.probs.wf = true →
    31 ≤ (c.probs.read t i).toNat → (c.probs.read t i).toNat ≤ 2017 →
    ∃ (c' : Coder) (cut : Nat), c.encodeBit t i b = c'.normalize ∧
      cut = c.rc.width.toNat / 2 ^ 11 * (c.probs.read t i).toNat ∧ 253952 ≤ cut ∧ cut < c.rc.width.toNat ∧
      (b = false → c'.rc.width.toNat = cut ∧ c'.rc.low = c.rc.low) ∧
      (b = true → c'.rc.width.toNat = c.rc.width.toNat - cut ∧ c'.rc.low.toNat = c.rc.low.toNat + cut) ∧
      c'.rc.cache = c.rc.cache ∧ c'.rc.cacheSize = c.rc.cacheSize ∧ c'.out = c.out ∧
      (c'.probs.read t i).toNat =
        (if b then (c.probs.read t i).toNat - (c.probs.read t i).toNat / 32
         else (c.probs.read t i).toNat + (2048 - (c.probs.read t i).toNat) / 32) ∧
      (∀ a, a ≠ t.address i → c'.probs.readAt a = c.probs.readAt a)) ∧
  (∀ (c : Coder) (b : Bool), c.rc.low.toNat < 2 ^ 33 →
    ∃ c' : Coder, c.encodeDirect b = c'.normalize ∧
      c'.rc.width.toNat = c.rc.width.toNat / 2 ∧
      (b = false → c'.rc.low = c.rc.low) ∧
      (b = true → c'.rc.low.toNat = c.rc.low.toNat + c.rc.width.toNat / 2) ∧
      c'.rc.cache = c.rc.cache ∧ c'.rc.cacheSize = c.rc.cacheSize ∧ c'.out = c.out ∧ c'.probs = c.probs)

/-- The bounds of every probability (R87): both updates are non-decreasing, 31 and 2017 are their fixed points, and any
number of updates from a value in `[31, 2017]` stays there. -/
def Obligations.AdaptKeepsProbabilityBounds : Prop :=
  (∀ (p : Prob) (bits : List Bool), 31 ≤ p.toNat → p.toNat ≤ 2017 →
    31 ≤ (bits.foldl adapt p).toNat ∧ (bits.foldl adapt p).toNat ≤ 2017) ∧
  (∀ (p q : Prob) (b : Bool), p.toNat ≤ q.toNat → q.toNat ≤ 2048 → (adapt p b).toNat ≤ (adapt q b).toNat) ∧
  adapt 31 true = 31 ∧ adapt 2017 false = 2017

/-- Every coding step keeps `width ≥ WIDTH_MIN` (R89), the carry bound `low + width < 2^33` (R91) and every probability
in `[31, 2017]` (R87). -/
def Obligations.CodingStepKeepsRange : Prop :=
  ∀ (c : Coder) (d : Decision), c.rc.sound → c.probs.inRange → c.probs.wf = true →
    (c.encode d).rc.sound ∧ (c.encode d).probs.inRange ∧ (c.encode d).probs.wf = true

/-- Shift_low adds one digit (R95): bytes emitted plus `cache_size` grow by exactly one, `cache_size` stays at least 1,
and `low` keeps the low 24 bits of its window, moved up by 8 (R90). -/
def Obligations.ShiftLowAddsOneDigit : Prop :=
  ∀ c : Coder, 1 ≤ c.rc.cacheSize.toNat → c.rc.cacheSize.toNat < 2 ^ 64 - 1 →
    c.shiftLow.digits = c.digits + 1 ∧ 1 ≤ c.shiftLow.rc.cacheSize.toNat ∧
    c.shiftLow.rc.low.toNat = c.rc.low.toNat % 2 ^ 24 * 2 ^ 8 ∧ c.shiftLow.rc.width = c.rc.width

/-- Shift_low loses nothing (R90, R63): where no carry is due while the cache byte is 0xFF, the number that the emitted,
cached and pending bytes and `low` stand for is multiplied by exactly 256. -/
def Obligations.ShiftLowKeepsTheNumber : Prop :=
  ∀ c : Coder, 1 ≤ c.rc.cacheSize.toNat → c.rc.cacheSize.toNat < 2 ^ 64 - 1 → c.rc.low.toNat < 2 ^ 33 →
    (c.rc.cache = 0xFF → c.rc.low.toNat < 2 ^ 32) → c.shiftLow.value = 256 * c.value

/-- The first range-coded byte is 0x00 (R92): whatever is coded from CONFIG's range coder, flushed or not. -/
def Obligations.FirstCodedByteIsZero : Prop :=
  ∀ path : List Decision,
    (∀ b, (Coder.initial.run path).out.head? = some b → b = 0) ∧
    (Coder.initial.run path).flush.out.head? = some 0

/-- Coding narrows the interval: no carry is lost and every interval lies inside the one before it, scaled by the
digits produced (R32, R63, R91). -/
def Obligations.CodingNarrowsTheInterval : Prop :=
  ∀ (c : Coder) (path : List Decision), c.carrySafe → c.rc.cacheSize.toNat + path.length < 2 ^ 64 - 1 →
    (c.run path).carrySafe ∧ c.digits ≤ (c.run path).digits ∧
    c.value * 256 ^ ((c.run path).digits - c.digits) ≤ (c.run path).value ∧
    (c.run path).value + (c.run path).rc.width.toNat ≤
      (c.value + c.rc.width.toNat) * 256 ^ ((c.run path).digits - c.digits)

/-- The flushed stream names a number inside every interval that coding passed through: from every coder that can lose no
carry, CONFIG's among them, the bytes emitted by `path ++ rest` and the flush, as one number, lie in the interval that
`path` left (R32, R90, R94, R95). -/
def Obligations.FlushedStreamLiesInEveryInterval : Prop :=
  Coder.initial.carrySafe ∧
  ∀ (c : Coder) (path rest : List Decision), c.carrySafe →
    c.rc.cacheSize.toNat + path.length + rest.length ≤ 2 ^ 63 →
    let mid := c.run path
    let final := (mid.run rest).flush
    mid.digits ≤ final.digits ∧
    mid.value * 256 ^ (final.digits - mid.digits) ≤ final.value ∧
    final.value < (mid.value + mid.rc.width.toNat) * 256 ^ (final.digits - mid.digits) ∧
    final.value = (final.out.map BitVec.toNat).foldl (fun acc digit => 256 * acc + digit) 0 * 256 * 2 ^ 32

/-! ### The coders (42_bit_tree.md to 45_literal_coder.md) -/

/-- The forward tree (R96): step `k` codes bit `n − 1 − k` of the symbol through the node that is 1 followed by the `k`
bits above it. -/
def Obligations.TreeWalksMostSignificantFirst : Prop :=
  ∀ (t : ProbTable) (base n sym : Nat),
    treeEncode t base n sym = (List.range n).map fun k =>
      Decision.bit t (base + 2 ^ k + sym % 2 ^ n / 2 ^ (n - k)) (sym.testBit (n - 1 - k))

/-- Both trees touch only the entries `base + 1 .. base + 2^n − 1` of their table, one per bit (R98). The reverse tree draws
the symbol's bits from the least significant on: step `k` codes bit `k` through the node that is 1 followed by the bits
already coded (R97). -/
def Obligations.TreesStayInTheirNodes : Prop :=
  ∀ (t : ProbTable) (n sym : Nat),
    (∀ base : Nat, (treeEncode t base n sym).length = n ∧
      ∀ d ∈ treeEncode t base n sym, ∃ i b, d = .bit t i b ∧ base + 1 ≤ i ∧ i < base + 2 ^ n) ∧
    (∀ base : Int, -1 ≤ base →
      treeReverseEncode t base n sym = (List.range n).map (fun k =>
        Decision.bit t (base + nodeAfter ((List.range k).map sym.testBit)).toNat (sym.testBit k)) ∧
      ∀ d ∈ treeReverseEncode t base n sym, ∃ i b, d = .bit t i b ∧ base + 1 ≤ (i : Int) ∧ (i : Int) < base + 2 ^ n)

/-- The sub-range map of the length coder (R101): which choice bits, tree, symbol and number of bits each length has. The
three sub-ranges cover 2 to 273, and no two lengths share a coding. -/
def Obligations.LengthCodingsAreDistinct : Prop :=
  ∀ (c : LenSet) (len ps : Nat), 2 ≤ len → len ≤ 273 →
    (len ≤ 9 → lenEncode c len ps =
      .bit (.choice1 c) 0 false :: treeEncode (.lowCoder c) (8 * ps) 3 (len - 2)) ∧
    (10 ≤ len → len ≤ 17 → lenEncode c len ps =
      .bit (.choice1 c) 0 true :: .bit (.choice2 c) 0 false :: treeEncode (.midCoder c) (8 * ps) 3 (len - 10)) ∧
    (18 ≤ len → lenEncode c len ps =
      .bit (.choice1 c) 0 true :: .bit (.choice2 c) 0 true :: treeEncode (.highCoder c) 0 8 (len - 18)) ∧
    (lenEncode c len ps).length = (if len ≤ 9 then 4 else if len ≤ 17 then 5 else 10) ∧
    ∀ len', 2 ≤ len' → len' ≤ 273 → lenEncode c len' ps = lenEncode c len ps → len' = len

/-- The slots (R104): slots 0 to 3 are their distance, with no footer; slot `slot ≥ 4` has `footer_bits = (slot >> 1) − 1`, base
`(2 | (slot & 1)) << footer_bits`, and covers exactly `base .. base + 2^footer_bits − 1`; every 32-bit distance has a slot
in 0..63. -/
def Obligations.SlotsPartitionDistances : Prop :=
  (∀ dist0, dist0 < 2 ^ 32 → distSlot dist0 ≤ 63) ∧
  (∀ slot, slot < 4 → ∀ dist0, (distSlot dist0 = slot ↔ dist0 = slot) ∧ distFooter dist0 slot = []) ∧
  (∀ slot, 4 ≤ slot → slot ≤ 63 →
    footerBits slot = slot / 2 - 1 ∧ slotBase slot = (2 + slot % 2) * 2 ^ (slot / 2 - 1) ∧
    ∀ dist0, distSlot dist0 = slot ↔ slotBase slot ≤ dist0 ∧ dist0 < slotBase slot + 2 ^ footerBits slot)

/-- The coding of a distance (R105): the slot by the 6-bit tree of `len_state = min(L − 2, 3)` (R102); nothing more below
slot 4; below slot 14 the `footer_bits` bits of `dist0 − base` by the reverse tree at `base − slot − 1` of `pos_coder`
(R106); from slot 14 on its upper `footer_bits − 4` bits directly, most significant first, and its low 4 bits by the
reverse tree of `align_coder` (R107). -/
def Obligations.DistanceCodedBySlotAndFooter : Prop :=
  ∀ dist0 len : Nat, dist0 < 2 ^ 32 → 2 ≤ len → len ≤ 273 →
    let slot := distSlot dist0
    let footer := slot / 2 - 1
    let base := (2 + slot % 2) * 2 ^ footer
    let slotSteps := treeEncode .slotCoder (64 * min (len - 2) 3) 6 slot
    (slot < 4 → distEncode dist0 len = slotSteps) ∧
    (4 ≤ slot → slot < 14 → distEncode dist0 len =
      slotSteps ++ treeReverseEncode .posCoder ((base : Int) - slot - 1) footer (dist0 - base)) ∧
    (14 ≤ slot → distEncode dist0 len =
      slotSteps ++ (List.range (footer - 4)).map (fun k => .direct ((dist0 - base).testBit (footer - 1 - k))) ++
        treeReverseEncode .alignCoder 0 4 ((dist0 - base) % 16))

/-- The literal context (R111): the low `lp` bits of the position above the top `lc` bits of the previous byte, and the
cluster it selects lies inside `P.lit`. -/
def Obligations.LiteralClusterInsideTable : Prop :=
  ∀ (lc lp : Nat) (totalPos : BitVec 64) (prevByte : Byte), lc ≤ 8 → lp ≤ 4 →
    litIndex lc lp totalPos prevByte =
      0x300 * (totalPos.toNat % 2 ^ lp * 2 ^ lc + prevByte.toNat / 2 ^ (8 - lc)) ∧
    litIndex lc lp totalPos prevByte + 0x2FF < 0x300 * 2 ^ (lc + lp)

/-- The plain literal walk codes the same bits through the same entries as the forward tree (R113). -/
def Obligations.PlainLiteralIsATree : Prop :=
  ∀ (idx : Nat) (byte : Byte), litPlain idx byte = treeEncode .lit idx 8 byte.toNat

/-- The matched literal walk (R115): step `k` codes bit `7 − k` of the byte; while every bit so far has equalled the
match byte's it uses the half of the cluster that the match byte's bit selects, afterwards the plain entries. -/
def Obligations.MatchedLiteralFollowsTheMatchByte : Prop :=
  ∀ (idx : Nat) (byte bMatch : Byte),
    litMatched idx byte bMatch = (List.range 8).map fun k =>
      Decision.bit .lit
        (idx + 2 ^ k + byte.toNat / 2 ^ (8 - k) +
          (if byte.toNat / 2 ^ (8 - k) = bMatch.toNat / 2 ^ (8 - k) then
            0x100 + 0x100 * (bMatch.toNat / 2 ^ (7 - k) % 2)
           else 0))
        (byte.toNat.testBit (7 - k))

/-- Every coding step of every command that an invocation can run addresses an entry inside its table, and never one of
the entries R47 says are unused (R98, R106, R117). -/
def Obligations.CodingStaysInsideTables : Prop :=
  ∀ (i : Instr) (s : State), s.Live → i.wellFormed = true →
    insideTables s.cfg.lc.toNat s.cfg.lp.toNat s.cfg.pb.toNat (codingSteps i s)

/-- Entries that no rule reads or writes after CONFIG (R47): in a running invocation no command but CONFIG changes one of
them, while the sink does not abort (the premise on the background: an abort leaves the whole file unspecified, R158). -/
def Obligations.UnusedEntriesKeepTheirValue : Prop :=
  ∀ (i : Instr) (s t : State), s.Live → exec i s = .next t → isConfig i = false → t.probs.background = .initial →
    ∀ (table : ProbTable) (index : Nat), index < table.size s.cfg.lc.toNat s.cfg.lp.toNat →
      unusedEntry s.cfg.pb.toNat table index → t.probs.read table index = s.probs.read table index

/-- The work of the commands (R174): LIT codes 9 bits, SHORTREP 4, REP 8 to 15, an accepted MATCH 12 to 41, EOS 42. -/
def Obligations.BitsPerCommand : Prop :=
  ∀ s : State, s.Live →
    (∀ byte, s.phase = .coding → (codingSteps (.lit byte) s).length = 9) ∧
    (codingSteps .shortrep s).length = 4 ∧
    (∀ i len, lengthInRange len = true →
      8 ≤ (codingSteps (.rep i len) s).length ∧ (codingSteps (.rep i len) s).length ≤ 15) ∧
    (∀ dist0 len, lengthInRange len = true → histCheck (copyDistance dist0) s = true →
      12 ≤ (codingSteps (.simpleMatch dist0 len) s).length ∧ (codingSteps (.simpleMatch dist0 len) s).length ≤ 41) ∧
    (codingSteps .eos s).length = 42

/-! ### Faults (60_exceptions.md) -/

/-- The acceptance matrix (R151): a command that the phase does not accept raises SequenceError outside FAULT, with no
other effect, and is discarded in FAULT. -/
def Obligations.PhaseGatesEveryCommand : Prop :=
  ∀ (i : Instr) (s : State), s.phase ∉ acceptedIn i →
    (s.phase ≠ .fault → exec i s = .next (faultRecorded .sequenceError i s)) ∧
    (s.phase = .fault → exec i s = .next s)

/-- In phase FAULT every word but CONFIG's is discarded, legal or not, with no effect at all, and observation reads are
still served (R155); a CONFIG word with a must-be-zero bit set raises its own fault, which overwrites the record
(R156). -/
def Obligations.FaultPhaseDiscards : Prop :=
  ∀ (s : State) (rest : List HostEvent), s.phase = .fault →
    (∀ w, s.input = .command w :: rest → opField w ≠ 0x01 → step s = .next { s with input := rest }) ∧
    (∀ space addr, s.input = .observe space addr :: rest →
      step s = .next { s with input := rest, readData := s.readData ++ [observe s space addr] }) ∧
    (∀ w, s.input = .command w :: rest → opField w = 0x01 → decode w = .mustBeZero →
      step s = .next { s with input := rest, cause := .illegalCommand, faultOp := 0x01, faultArg := argField w })

/-- REP and MATCH with `L < 2` or `L > 273` raise LengthRange, whatever their distance (R150, R152). -/
def Obligations.LengthOutOfRangeFaults : Prop :=
  ∀ (s : State) (len : BitVec 9), s.phase = .coding → (len.toNat < 2 ∨ 273 < len.toNat) →
    (∀ i, exec (.rep i len) s = .next (faultRecorded .lengthRange (.rep i len) s)) ∧
    (∀ dist0, exec (.simpleMatch dist0 len) s = .next (faultRecorded .lengthRange (.simpleMatch dist0 len) s))

/-- The history check (R153): SHORTREP, REP and MATCH whose copy distance, computed without wrap-around, exceeds
`total_pos` or DICT_EFF raise HistoryRange with no other effect. -/
def Obligations.DistanceOutsideHistoryFaults : Prop :=
  ∀ s : State, s.phase = .coding →
    (∀ dist0 len, 2 ≤ len.toNat → len.toNat ≤ 273 →
      (s.es.totalPos.toNat < dist0.toNat + 1 ∨ s.dictEff.toNat < dist0.toNat + 1) →
      exec (.simpleMatch dist0 len) s = .next (faultRecorded .historyRange (.simpleMatch dist0 len) s)) ∧
    (∀ i len, 2 ≤ len.toNat → len.toNat ≤ 273 →
      (s.es.totalPos.toNat < (s.es.mru.get i).toNat + 1 ∨ s.dictEff.toNat < (s.es.mru.get i).toNat + 1) →
      exec (.rep i len) s = .next (faultRecorded .historyRange (.rep i len) s)) ∧
    ((s.es.totalPos.toNat < s.es.mru.rep0.toNat + 1 ∨ s.dictEff.toNat < s.es.mru.rep0.toNat + 1) →
      exec .shortrep s = .next (faultRecorded .historyRange .shortrep s))

/-- A fault raised by a check is precise (R149): a step that serves a word and ends in phase FAULT with a cause other
than SinkAborted either discarded the word in phase FAULT, with no effect at all, or recorded a cause, the word's opcode
and its argument, and changed nothing else. -/
def Obligations.CheckFaultsArePrecise : Prop :=
  ∀ (s t : State) (w : CommandWord) (rest : List HostEvent), s.input = .command w :: rest → step s = .next t →
    t.phase = .fault → t.cause ≠ .sinkAborted →
    (s.phase = .fault ∧ opField w ≠ 0x01 ∧ t = { s with input := rest }) ∨
    (t.cause ≠ .none ∧
      t = { s with input := rest, phase := .fault, cause := t.cause, faultOp := opField w, faultArg := argField w })

/-- A sink that takes `n` bytes and then asserts the abort input (R158): a command that would emit more stops there,
exactly `n` of its bytes emitted, and records SinkAborted and itself; a command that emits no more than that is not
affected. -/
def Obligations.SinkAbortStopsBetweenBytes : Prop :=
  ∀ (i : Instr) (s t : State) (bytes : List Byte) (n : Nat) (plan : List Nat),
    s.sinkPlan = [] → exec i s = .next t → t.output = s.output ++ bytes →
    (n < bytes.length → ∃ u, exec i { s with sinkPlan := n :: plan } = .next u ∧
      u.output = s.output ++ bytes.take n ∧ u.phase = .fault ∧ u.cause = .sinkAborted ∧
      u.faultOp = i.opcode ∧ u.faultArg = i.argument ∧ u.sinkPlan = plan ∧ u.input = s.input ∧ u.readData = s.readData) ∧
    (bytes.length ≤ n →
      exec i { s with sinkPlan := n :: plan } = .next { t with sinkPlan := (n - bytes.length) :: plan })

/-- The abort input while the block is idle (R158): SinkAborted with FAULT_OP and FAULT_ARG 0 and nothing else changed;
ignored in phase FAULT. -/
def Obligations.IdleAbort : Prop :=
  ∀ (s : State) (rest : List HostEvent), s.input = .abort :: rest →
    (s.phase ≠ .fault → step s = .next { s with input := rest, phase := .fault, cause := .sinkAborted,
                                                faultOp := 0, faultArg := 0 }) ∧
    (s.phase = .fault → step s = .next { s with input := rest })

/-- The phase changes only as R25 says: CONFIG sets CONFIGURED, HEADER CODING, EOS ENDED, FLUSH DONE, a fault FAULT; so
only CONFIG leaves FAULT (R156) and nothing returns to UNCONFIGURED (R170). -/
def Obligations.PhaseTransitions : Prop :=
  ∀ (i : Instr) (s t : State), exec i s = .next t →
    t.phase = s.phase ∨ t.phase = .fault ∨ (isConfig i = true ∧ t.phase = .configured) ∨
    (i = .header ∧ s.phase = .configured ∧ t.phase = .coding) ∨
    (i = .eos ∧ s.phase = .coding ∧ t.phase = .ended) ∨
    (i = .flush ∧ (s.phase = .coding ∨ s.phase = .ended) ∧ t.phase = .done)

/-! ### Frames -/

/-- What each command leaves unchanged, whether it completes or faults, while the sink does not abort: only CONFIG
writes CFG, DICT_EFF and HIST_N (R29), only it and SETSIZE write SIZE (R30), only the coding commands write the range
coder (R31), only tokens and EOS write `state` (R33), only tokens write the position registers, `prev_byte` and `R` (R34 to
R37), only REP and MATCH write `rep_dist` (R38). -/
def Obligations.RegisterFrame : Prop :=
  ∀ (i : Instr) (s t : State), exec i s = .next t → s.sinkPlan = [] → isConfig i = false →
    (t.cfg = s.cfg ∧ t.dictEff = s.dictEff ∧ t.histN = s.histN) ∧ samePorts s t ∧
    ((∀ size, i ≠ .setsize size) → t.sizeKnown = s.sizeKnown ∧ t.sizeValue = s.sizeValue) ∧
    ((i = .header ∨ ∃ size, i = .setsize size) → t.rc = s.rc) ∧
    (storedBytes i = 0 → i ≠ .eos → t.es.state = s.es.state) ∧
    (storedBytes i = 0 → t.es.posState = s.es.posState ∧ t.es.prevByte = s.es.prevByte ∧ t.es.r = s.es.r ∧
      t.es.totalPos = s.es.totalPos) ∧
    ((∀ index len, i ≠ .rep index len) → (∀ dist0 len, i ≠ .simpleMatch dist0 len) → t.es.mru = s.es.mru)

/-- Every history entry outside the bytes a command stores, `R, R + 1, …` modulo `N`, is unchanged (R48, R59): all of
them for EOS, FLUSH, SETSIZE and HEADER, which store none. -/
def Obligations.HistoryFrame : Prop :=
  ∀ (i : Instr) (s t : State), exec i s = .next t → s.sinkPlan = [] → isConfig i = false →
    s.es.r.toNat < s.histN.toNat →
    ∀ a, (∀ k, k < storedBytes i → a ≠ (s.es.r.toNat + k) % s.histN.toNat) → t.hist.read a = s.hist.read a

/-- Every probability entry that no coding step of the command addresses is unchanged (R46, R86): all of them for
SETSIZE, HEADER and FLUSH. -/
def Obligations.ProbabilityFrame : Prop :=
  ∀ (i : Instr) (s t : State), exec i s = .next t → s.sinkPlan = [] → isConfig i = false →
    ∀ a, (∀ table index b, Decision.bit table index b ∈ codingSteps i s → table.address index ≠ a) →
      t.probs.readAt a = s.probs.readAt a

/-- A byte once emitted is final (R63): every step only appends to the output; and without CONFIG and without an abort,
OUT_COUNT grows by the number of bytes appended (R28). -/
def Obligations.OutputOnlyGrows : Prop :=
  (∀ s t : State, step s = .next t → ∃ bytes, t.output = s.output ++ bytes) ∧
  (∀ (i : Instr) (s t : State) (bytes : List Byte), exec i s = .next t → s.sinkPlan = [] → isConfig i = false →
    t.output = s.output ++ bytes → t.outCount.toNat = (s.outCount.toNat + bytes.length) % 2 ^ 64)

/-! ### The invariant (R49) -/

/-- The reset state meets the invariant (the model's own, stated from R25, R26 and R54). -/
def Obligations.ResetMeetsInvariant : Prop := State.reset.Inv

/-- Every step keeps the invariant: the canonical form of both memories, the cause recorded exactly in FAULT, and in the
live phases the bounds of R39, R89 and R91, `state` in 0..11 (R33), `pos_state` (R34), the cursor and the written entries
(R36, R48, R58), and `prev_byte` the last byte committed (R35, R49). -/
def Obligations.StepKeepsInvariant : Prop :=
  ∀ s t : State, s.Inv → step s = .next t → t.Inv

/-- No reachable command stops the machine: from a state that meets the invariant every step answers a next state, so
the two faults of the model, HistRead of an unwritten entry (R58) and `state` of 12 to 15 (R33), are never taken. -/
def Obligations.InvariantStatesNeverStop : Prop :=
  ∀ s : State, s.Inv → ∃ t, step s = .next t

/-! ### Assembly (R84) -/

/-- The pseudo-instructions (R84): `MATCHD d, L` is `MATCH d − 1, L` for every `d` in `1 .. 2^32`; LITS
is one LIT per byte; `REP0` to `REP3` are REP with that index; FINISH is EOS then FLUSH, FINISH_NOEOS is FLUSH.
R84 gives a `d` outside `1 .. 2^32` no meaning: that it has no expansion is the model's choice (assumption log 13). -/
def Obligations.PseudoInstructionsExpand : Prop :=
  (∀ (d : Nat) (len : BitVec 9), 1 ≤ d → d ≤ 2 ^ 32 →
    ∃ dist0 : BitVec 32, Pseudo.expand (.matchD d len) = some [.simpleMatch dist0 len] ∧ copyDistance dist0 = d) ∧
  (∀ (d : Nat) (len : BitVec 9), d = 0 ∨ 2 ^ 32 < d → Pseudo.expand (.matchD d len) = none) ∧
  (∀ bytes : List Byte, Pseudo.expand (.lits bytes) = some (bytes.map .lit)) ∧
  (∀ (i : BitVec 2) (len : BitVec 9), Pseudo.expand (.repN i len) = some [.rep i len]) ∧
  Pseudo.expand .finish = some [.eos, .flush] ∧ Pseudo.expand .finishNoEos = some [.flush]
end

