-- ==== Sys2Proof/Laws/Memory.lean ====
section
/-! SUPPORT. The laws of the two internal memories: a read after a write, and the canonical form. -/

namespace Sys2Proof.Machine

variable {α : Type}

/-! ### Lists of cells -/

theorem Memory.above_trans {a b : Nat} {cells : List (Nat × α)} (hab : a < b)
    (h : Memory.above b cells = true) : Memory.above a cells = true := by
  simp only [Memory.above, List.all_eq_true, decide_eq_true_eq] at *
  intro c hc
  have := h c hc
  omega

theorem Memory.lookup_of_above {a : Nat} {cells : List (Nat × α)} (h : Memory.above a cells = true) :
    Memory.lookup cells a = none := by
  induction cells with
  | nil => rfl
  | cons c rest ih =>
    simp only [Memory.above, List.all_cons, Bool.and_eq_true, decide_eq_true_eq] at h
    have hne : c.1 ≠ a := by omega
    simpa [Memory.lookup, hne] using ih h.2

theorem Memory.above_insert {a k : Nat} {v : α} {cells : List (Nat × α)} (hk : a < k)
    (h : Memory.above a cells = true) : Memory.above a (Memory.insert cells k v) = true := by
  induction cells with
  | nil => simpa [Memory.insert, Memory.above] using hk
  | cons c rest ih =>
    simp only [Memory.above, List.all_cons, Bool.and_eq_true, decide_eq_true_eq] at h ih
    unfold Memory.insert
    split
    · simp [Memory.above, hk, h]
    · split
      · simp [Memory.above, hk, h]
      · simpa [Memory.above, h] using ih h.2

theorem Memory.above_erase {a k : Nat} {cells : List (Nat × α)} (h : Memory.above a cells = true) :
    Memory.above a (Memory.erase cells k) = true := by
  induction cells with
  | nil => rfl
  | cons c rest ih =>
    simp only [Memory.above, List.all_cons, Bool.and_eq_true, decide_eq_true_eq] at h ih
    unfold Memory.erase
    split
    · simpa [Memory.above] using h.2
    · simpa [Memory.above, h] using ih h.2

theorem Memory.rising_insert {k : Nat} {v : α} {cells : List (Nat × α)} (h : Memory.rising cells = true) :
    Memory.rising (Memory.insert cells k v) = true := by
  induction cells with
  | nil => rfl
  | cons c rest ih =>
    obtain ⟨c1, c2⟩ := c
    simp only [Memory.rising, Bool.and_eq_true] at h
    unfold Memory.insert
    split
    · rename_i hlt
      simp only [Memory.rising, Bool.and_eq_true]
      refine ⟨?_, h⟩
      simp only [Memory.above, List.all_cons, Bool.and_eq_true, decide_eq_true_eq]
      exact ⟨hlt, Memory.above_trans hlt h.1⟩
    · split
      · rename_i heq
        subst heq
        simpa [Memory.rising] using h
      · simp only [Memory.rising, Bool.and_eq_true]
        exact ⟨Memory.above_insert (by omega) h.1, ih h.2⟩

theorem Memory.rising_erase {k : Nat} {cells : List (Nat × α)} (h : Memory.rising cells = true) :
    Memory.rising (Memory.erase cells k) = true := by
  induction cells with
  | nil => rfl
  | cons c rest ih =>
    simp only [Memory.rising, Bool.and_eq_true] at h
    unfold Memory.erase
    split
    · exact h.2
    · simp only [Memory.rising, Bool.and_eq_true]
      exact ⟨Memory.above_erase h.1, ih h.2⟩

@[simp] theorem Memory.lookup_insert_same (cells : List (Nat × α)) (a : Nat) (v : α) :
    Memory.lookup (Memory.insert cells a v) a = some v := by
  induction cells with
  | nil => simp [Memory.insert, Memory.lookup]
  | cons c rest ih =>
    unfold Memory.insert
    split
    · simp [Memory.lookup]
    · split
      · simp [Memory.lookup]
      · rename_i hne
        simpa [Memory.lookup, Ne.symm hne] using ih

theorem Memory.lookup_insert_ne {a b : Nat} (hne : b ≠ a) (cells : List (Nat × α)) (v : α) :
    Memory.lookup (Memory.insert cells a v) b = Memory.lookup cells b := by
  induction cells with
  | nil => simp [Memory.insert, Memory.lookup, Ne.symm hne]
  | cons c rest ih =>
    unfold Memory.insert
    split
    · simp [Memory.lookup, Ne.symm hne]
    · split
      · rename_i heq
        subst heq
        simp [Memory.lookup, Ne.symm hne]
      · simp only [Memory.lookup, ih]

theorem Memory.lookup_erase_same {a : Nat} {cells : List (Nat × α)} (h : Memory.rising cells = true) :
    Memory.lookup (Memory.erase cells a) a = none := by
  induction cells with
  | nil => rfl
  | cons c rest ih =>
    simp only [Memory.rising, Bool.and_eq_true] at h
    unfold Memory.erase
    split
    · rename_i heq
      exact Memory.lookup_of_above (heq ▸ h.1)
    · rename_i hne
      simpa [Memory.lookup, hne] using ih h.2

theorem Memory.lookup_erase_ne {a b : Nat} (hne : b ≠ a) (cells : List (Nat × α)) :
    Memory.lookup (Memory.erase cells a) b = Memory.lookup cells b := by
  induction cells with
  | nil => rfl
  | cons c rest ih =>
    unfold Memory.erase
    split
    · rename_i heq
      subst heq
      simp [Memory.lookup, Ne.symm hne]
    · simp only [Memory.lookup, ih]

/-- A property of every cell survives an insertion that has it. -/
theorem Memory.all_insert {p : Nat × α → Bool} {cells : List (Nat × α)} {a : Nat} {v : α} (hv : p (a, v) = true)
    (h : cells.all p = true) : (Memory.insert cells a v).all p = true := by
  induction cells with
  | nil => simpa [Memory.insert] using hv
  | cons c rest ih =>
    simp only [List.all_cons, Bool.and_eq_true] at h
    unfold Memory.insert
    split
    · simp only [List.all_cons, Bool.and_eq_true]
      exact ⟨hv, h⟩
    · split
      · simp only [List.all_cons, Bool.and_eq_true]
        exact ⟨hv, h.2⟩
      · simp only [List.all_cons, Bool.and_eq_true]
        exact ⟨h.1, ih h.2⟩

/-- A property of every cell survives an erasure. -/
theorem Memory.all_erase {p : Nat × α → Bool} {cells : List (Nat × α)} {a : Nat} (h : cells.all p = true) :
    (Memory.erase cells a).all p = true := by
  induction cells with
  | nil => rfl
  | cons c rest ih =>
    simp only [List.all_cons, Bool.and_eq_true] at h
    unfold Memory.erase
    split
    · exact h.2
    · simp only [List.all_cons, Bool.and_eq_true]
      exact ⟨h.1, ih h.2⟩

/-! ### The probability file -/

@[simp] theorem ProbFile.writeAt_background (f : ProbFile) (a : Nat) (p : Prob) :
    (f.writeAt a p).background = f.background := by
  unfold ProbFile.writeAt
  split <;> rfl

@[simp] theorem ProbFile.write_background (f : ProbFile) (t : ProbTable) (i : Nat) (p : Prob) :
    (f.write t i p).background = f.background := ProbFile.writeAt_background f _ p

theorem ProbFile.wf_iff (f : ProbFile) : f.wf = true ↔ Memory.rising f.cells = true ∧
    (f.cells.all fun cell => cell.2 != ProbFile.unlisted f.background cell.1) = true := by
  simp only [ProbFile.wf, Bool.and_eq_true]

/-- Every write keeps the canonical form of the probability file. -/
theorem ProbFile.writeAt_wf {f : ProbFile} (h : f.wf = true) (a : Nat) (p : Prob) : (f.writeAt a p).wf = true := by
  rw [ProbFile.wf_iff] at *
  unfold ProbFile.writeAt
  split
  · exact ⟨Memory.rising_erase h.1, Memory.all_erase h.2⟩
  · rename_i hne
    exact ⟨Memory.rising_insert h.1, Memory.all_insert (bne_iff_ne.mpr hne) h.2⟩

theorem ProbFile.write_wf {f : ProbFile} (h : f.wf = true) (t : ProbTable) (i : Nat) (p : Prob) :
    (f.write t i p).wf = true := ProbFile.writeAt_wf h _ p

/-- A read after a write to the same entry gives the value written. -/
theorem ProbFile.readAt_writeAt_same {f : ProbFile} (h : f.wf = true) (a : Nat) (p : Prob) :
    (f.writeAt a p).readAt a = p := by
  rw [ProbFile.wf_iff] at h
  unfold ProbFile.writeAt
  split
  · rename_i heq
    simp [ProbFile.readAt, Memory.lookup_erase_same h.1, heq]
  · simp [ProbFile.readAt]

/-- A write leaves every other entry alone. -/
theorem ProbFile.readAt_writeAt_ne {f : ProbFile} {a b : Nat} (hne : b ≠ a) (p : Prob) :
    (f.writeAt a p).readAt b = f.readAt b := by
  unfold ProbFile.writeAt
  split
  · simp [ProbFile.readAt, Memory.lookup_erase_ne hne]
  · simp [ProbFile.readAt, Memory.lookup_insert_ne hne]

/-! ### The history -/

@[simp] theorem History.write_background (h : History) (i : Nat) (b : Byte) :
    (h.write i b).background = h.background := rfl

/-- Every write keeps the canonical form of the history. -/
theorem History.write_wf {h : History} (hw : h.wf = true) (i : Nat) (b : Byte) : (h.write i b).wf = true :=
  Memory.rising_insert hw

@[simp] theorem History.read_write_same (h : History) (i : Nat) (b : Byte) : (h.write i b).read i = some b :=
  Memory.lookup_insert_same _ _ _

theorem History.read_write_ne {i j : Nat} (hne : j ≠ i) (h : History) (b : Byte) :
    (h.write i b).read j = h.read j := Memory.lookup_insert_ne hne _ _

/-- Both memories of the reset state are in canonical form. -/
theorem reset_memory_wf : Memory.wf State.reset = true := rfl

end Sys2Proof.Machine
end

