-- ==== Sys2Proof/Laws/RangeCoder.lean ====
section
/-! SUPPORT. What the range-coder operations can do, said once: Shift_low emits or defers, a coding step is an update
followed by Normalize, a run goes step by step and only appends to the bytes emitted. -/

namespace Sys2Proof.Machine

/-- `Shift_low` either emits the cache and the pending bytes, or defers one more 0xFF (R90). -/
theorem Coder.shiftLow_cases (c : Coder) :
    ((c.rc.low.extractLsb' 0 32 < (0xFF000000 : BitVec 32) ∨ c.rc.low.extractLsb' 32 32 ≠ (0 : BitVec 32)) ∧
      c.shiftLow = { c with
        out := c.out ++ c.rc.pending ((c.rc.low.extractLsb' 32 32).setWidth 8),
        rc := { width := c.rc.width, low := ((c.rc.low.extractLsb' 0 32) <<< 8).setWidth 64,
                cache := ((c.rc.low.extractLsb' 0 32) >>> 24).setWidth 8, cacheSize := 1 } }) ∨
    (¬ (c.rc.low.extractLsb' 0 32 < (0xFF000000 : BitVec 32)) ∧ c.rc.low.extractLsb' 32 32 = (0 : BitVec 32) ∧
      c.shiftLow = { c with
        rc := { c.rc with low := ((c.rc.low.extractLsb' 0 32) <<< 8).setWidth 64,
                          cacheSize := c.rc.cacheSize + 1 } }) := by
  by_cases h : c.rc.low.extractLsb' 0 32 < (0xFF000000 : BitVec 32) ∨ c.rc.low.extractLsb' 32 32 ≠ (0 : BitVec 32)
  · exact .inl ⟨h, by simp only [Coder.shiftLow, if_pos h]⟩
  · have h' := not_or.mp h
    exact .inr ⟨h'.1, not_not.mp h'.2, by simp only [Coder.shiftLow, if_neg h]⟩

@[simp] theorem Coder.shiftLow_probs (c : Coder) : c.shiftLow.probs = c.probs := by
  rcases c.shiftLow_cases with ⟨-, h⟩ | ⟨-, -, h⟩ <;> rw [h]

@[simp] theorem Coder.shiftLow_width (c : Coder) : c.shiftLow.rc.width = c.rc.width := by
  rcases c.shiftLow_cases with ⟨-, h⟩ | ⟨-, -, h⟩ <;> rw [h]

@[simp] theorem Coder.shiftLow_low (c : Coder) :
    c.shiftLow.rc.low = ((c.rc.low.extractLsb' 0 32) <<< 8).setWidth 64 := by
  rcases c.shiftLow_cases with ⟨-, h⟩ | ⟨-, -, h⟩ <;> rw [h]

/-- Bytes already emitted stay: `Shift_low` only appends. -/
theorem Coder.shiftLow_out (c : Coder) : ∃ more, c.shiftLow.out = c.out ++ more := by
  rcases c.shiftLow_cases with ⟨-, h⟩ | ⟨-, -, h⟩
  · exact ⟨_, by rw [h]⟩
  · exact ⟨[], by rw [h, List.append_nil]⟩

/-- `Normalize` does nothing, or shifts once (R88). -/
theorem Coder.normalize_cases (c : Coder) :
    (¬ c.rc.width < widthMin ∧ c.normalize = c) ∨
    (c.rc.width < widthMin ∧
      c.normalize = Coder.shiftLow { c with rc := { c.rc with width := c.rc.width <<< 8 } }) := by
  by_cases h : c.rc.width < widthMin
  · exact .inr ⟨h, by simp only [Coder.normalize, if_pos h]⟩
  · exact .inl ⟨h, by simp only [Coder.normalize, if_neg h]⟩

@[simp] theorem Coder.normalize_probs (c : Coder) : c.normalize.probs = c.probs := by
  rcases c.normalize_cases with ⟨-, h⟩ | ⟨-, h⟩ <;> simp [h]

theorem Coder.normalize_out (c : Coder) : ∃ more, c.normalize.out = c.out ++ more := by
  rcases c.normalize_cases with ⟨-, h⟩ | ⟨-, h⟩
  · exact ⟨[], by rw [h, List.append_nil]⟩
  · rw [h]
    exact Coder.shiftLow_out _

/-- EncodeBit writes its own entry, with the adapted value (R86). -/
@[simp] theorem Coder.encodeBit_probs (t : ProbTable) (i : Nat) (b : Bool) (c : Coder) :
    (c.encodeBit t i b).probs = c.probs.write t i (adapt (c.probs.read t i) b) := by
  simp [Coder.encodeBit]

@[simp] theorem Coder.encodeDirect_probs (b : Bool) (c : Coder) : (c.encodeDirect b).probs = c.probs := by
  simp [Coder.encodeDirect]

@[simp] theorem Coder.encode_background (c : Coder) (d : Decision) :
    (c.encode d).probs.background = c.probs.background := by
  cases d <;> simp [Coder.encode]

/-- A coding step keeps the canonical form of the probability file. -/
theorem Coder.encode_wf {c : Coder} (h : c.probs.wf = true) (d : Decision) : (c.encode d).probs.wf = true := by
  cases d with
  | bit t i b => simpa [Coder.encode] using ProbFile.write_wf h t i _
  | direct b => simpa [Coder.encode] using h

theorem Coder.encode_out (c : Coder) (d : Decision) : ∃ more, (c.encode d).out = c.out ++ more := by
  cases d <;> exact Coder.normalize_out _

@[simp] theorem Coder.run_nil (c : Coder) : c.run [] = c := rfl

@[simp] theorem Coder.run_cons (c : Coder) (d : Decision) (path : List Decision) :
    c.run (d :: path) = (c.encode d).run path := rfl

theorem Coder.run_append (c : Coder) (p q : List Decision) : c.run (p ++ q) = (c.run p).run q :=
  List.foldl_append

/-- What every coding step keeps, a run keeps. -/
theorem Coder.run_induction {P : Coder → Prop} (hstep : ∀ c d, P c → P (c.encode d)) {c : Coder} (h : P c)
    (path : List Decision) : P (c.run path) := by
  induction path generalizing c with
  | nil => exact h
  | cons d path ih => exact ih (hstep c d h)

@[simp] theorem Coder.run_background (c : Coder) (path : List Decision) :
    (c.run path).probs.background = c.probs.background :=
  Coder.run_induction (P := fun x => x.probs.background = c.probs.background)
    (fun x d hx => (x.encode_background d).trans hx) rfl path

theorem Coder.run_wf {c : Coder} (h : c.probs.wf = true) (path : List Decision) : (c.run path).probs.wf = true :=
  Coder.run_induction (P := fun x => x.probs.wf = true) (fun _ d hx => Coder.encode_wf hx d) h path

/-- A run only appends to the bytes emitted. -/
theorem Coder.run_out (c : Coder) (path : List Decision) : ∃ more, (c.run path).out = c.out ++ more := by
  refine Coder.run_induction (P := fun x => ∃ more, x.out = c.out ++ more) ?_ ⟨[], by simp⟩ path
  rintro x d ⟨m, hm⟩
  obtain ⟨m', hm'⟩ := x.encode_out d
  exact ⟨m ++ m', by rw [hm', hm, List.append_assoc]⟩

@[simp] theorem Coder.flush_probs (c : Coder) : c.flush.probs = c.probs := by simp [Coder.flush]

@[simp] theorem Coder.flush_width (c : Coder) : c.flush.rc.width = c.rc.width := by simp [Coder.flush]

end Sys2Proof.Machine
end

