-- ==== Sys2Proof/Laws/State.lean ====
section
/-! SUPPORT. One lemma per field per named update of the state, so that no proof unfolds a record update. -/

namespace Sys2Proof.Machine

/-! ### histWrite -/

@[simp] theorem histWrite_phase (b : Byte) (s : State) : (histWrite b s).phase = s.phase := rfl
@[simp] theorem histWrite_cause (b : Byte) (s : State) : (histWrite b s).cause = s.cause := rfl
@[simp] theorem histWrite_faultOp (b : Byte) (s : State) : (histWrite b s).faultOp = s.faultOp := rfl
@[simp] theorem histWrite_faultArg (b : Byte) (s : State) : (histWrite b s).faultArg = s.faultArg := rfl
@[simp] theorem histWrite_outCount (b : Byte) (s : State) : (histWrite b s).outCount = s.outCount := rfl
@[simp] theorem histWrite_cfg (b : Byte) (s : State) : (histWrite b s).cfg = s.cfg := rfl
@[simp] theorem histWrite_dictEff (b : Byte) (s : State) : (histWrite b s).dictEff = s.dictEff := rfl
@[simp] theorem histWrite_histN (b : Byte) (s : State) : (histWrite b s).histN = s.histN := rfl
@[simp] theorem histWrite_sizeKnown (b : Byte) (s : State) : (histWrite b s).sizeKnown = s.sizeKnown := rfl
@[simp] theorem histWrite_sizeValue (b : Byte) (s : State) : (histWrite b s).sizeValue = s.sizeValue := rfl
@[simp] theorem histWrite_rc (b : Byte) (s : State) : (histWrite b s).rc = s.rc := rfl
@[simp] theorem histWrite_es (b : Byte) (s : State) :
    (histWrite b s).es = { s.es with r := BitVec.ofNat 32 ((s.es.r.toNat + 1) % s.histN.toNat) } := rfl
@[simp] theorem histWrite_probs (b : Byte) (s : State) : (histWrite b s).probs = s.probs := rfl
@[simp] theorem histWrite_hist (b : Byte) (s : State) : (histWrite b s).hist = s.hist.write s.es.r.toNat b := rfl
@[simp] theorem histWrite_input (b : Byte) (s : State) : (histWrite b s).input = s.input := rfl
@[simp] theorem histWrite_output (b : Byte) (s : State) : (histWrite b s).output = s.output := rfl
@[simp] theorem histWrite_readData (b : Byte) (s : State) : (histWrite b s).readData = s.readData := rfl
@[simp] theorem histWrite_sinkPlan (b : Byte) (s : State) : (histWrite b s).sinkPlan = s.sinkPlan := rfl
@[simp] theorem histWrite_freeCount (b : Byte) (s : State) : (histWrite b s).freeCount = s.freeCount := rfl

/-! ### raiseFault -/

@[simp] theorem raiseFault_phase (c : Cause) (op : Opcode) (arg : Argument) (s : State) :
    (raiseFault c op arg s).phase = .fault := rfl
@[simp] theorem raiseFault_cause (c : Cause) (op : Opcode) (arg : Argument) (s : State) :
    (raiseFault c op arg s).cause = c := rfl
@[simp] theorem raiseFault_faultOp (c : Cause) (op : Opcode) (arg : Argument) (s : State) :
    (raiseFault c op arg s).faultOp = op := rfl
@[simp] theorem raiseFault_faultArg (c : Cause) (op : Opcode) (arg : Argument) (s : State) :
    (raiseFault c op arg s).faultArg = arg := rfl
@[simp] theorem raiseFault_outCount (c : Cause) (op : Opcode) (arg : Argument) (s : State) :
    (raiseFault c op arg s).outCount = s.outCount := rfl
@[simp] theorem raiseFault_cfg (c : Cause) (op : Opcode) (arg : Argument) (s : State) :
    (raiseFault c op arg s).cfg = s.cfg := rfl
@[simp] theorem raiseFault_dictEff (c : Cause) (op : Opcode) (arg : Argument) (s : State) :
    (raiseFault c op arg s).dictEff = s.dictEff := rfl
@[simp] theorem raiseFault_histN (c : Cause) (op : Opcode) (arg : Argument) (s : State) :
    (raiseFault c op arg s).histN = s.histN := rfl
@[simp] theorem raiseFault_sizeKnown (c : Cause) (op : Opcode) (arg : Argument) (s : State) :
    (raiseFault c op arg s).sizeKnown = s.sizeKnown := rfl
@[simp] theorem raiseFault_sizeValue (c : Cause) (op : Opcode) (arg : Argument) (s : State) :
    (raiseFault c op arg s).sizeValue = s.sizeValue := rfl
@[simp] theorem raiseFault_rc (c : Cause) (op : Opcode) (arg : Argument) (s : State) :
    (raiseFault c op arg s).rc = s.rc := rfl
@[simp] theorem raiseFault_es (c : Cause) (op : Opcode) (arg : Argument) (s : State) :
    (raiseFault c op arg s).es = s.es := rfl
@[simp] theorem raiseFault_probs (c : Cause) (op : Opcode) (arg : Argument) (s : State) :
    (raiseFault c op arg s).probs = s.probs := rfl
@[simp] theorem raiseFault_hist (c : Cause) (op : Opcode) (arg : Argument) (s : State) :
    (raiseFault c op arg s).hist = s.hist := rfl
@[simp] theorem raiseFault_input (c : Cause) (op : Opcode) (arg : Argument) (s : State) :
    (raiseFault c op arg s).input = s.input := rfl
@[simp] theorem raiseFault_output (c : Cause) (op : Opcode) (arg : Argument) (s : State) :
    (raiseFault c op arg s).output = s.output := rfl
@[simp] theorem raiseFault_readData (c : Cause) (op : Opcode) (arg : Argument) (s : State) :
    (raiseFault c op arg s).readData = s.readData := rfl
@[simp] theorem raiseFault_sinkPlan (c : Cause) (op : Opcode) (arg : Argument) (s : State) :
    (raiseFault c op arg s).sinkPlan = s.sinkPlan := rfl
@[simp] theorem raiseFault_freeCount (c : Cause) (op : Opcode) (arg : Argument) (s : State) :
    (raiseFault c op arg s).freeCount = s.freeCount := rfl

/-! ### withCoder -/

@[simp] theorem withCoder_phase (s : State) (c : Coder) : (s.withCoder c).phase = s.phase := rfl
@[simp] theorem withCoder_cause (s : State) (c : Coder) : (s.withCoder c).cause = s.cause := rfl
@[simp] theorem withCoder_faultOp (s : State) (c : Coder) : (s.withCoder c).faultOp = s.faultOp := rfl
@[simp] theorem withCoder_faultArg (s : State) (c : Coder) : (s.withCoder c).faultArg = s.faultArg := rfl
@[simp] theorem withCoder_outCount (s : State) (c : Coder) : (s.withCoder c).outCount = s.outCount := rfl
@[simp] theorem withCoder_cfg (s : State) (c : Coder) : (s.withCoder c).cfg = s.cfg := rfl
@[simp] theorem withCoder_dictEff (s : State) (c : Coder) : (s.withCoder c).dictEff = s.dictEff := rfl
@[simp] theorem withCoder_histN (s : State) (c : Coder) : (s.withCoder c).histN = s.histN := rfl
@[simp] theorem withCoder_sizeKnown (s : State) (c : Coder) : (s.withCoder c).sizeKnown = s.sizeKnown := rfl
@[simp] theorem withCoder_sizeValue (s : State) (c : Coder) : (s.withCoder c).sizeValue = s.sizeValue := rfl
@[simp] theorem withCoder_rc (s : State) (c : Coder) : (s.withCoder c).rc = c.rc := rfl
@[simp] theorem withCoder_es (s : State) (c : Coder) : (s.withCoder c).es = s.es := rfl
@[simp] theorem withCoder_probs (s : State) (c : Coder) : (s.withCoder c).probs = c.probs := rfl
@[simp] theorem withCoder_hist (s : State) (c : Coder) : (s.withCoder c).hist = s.hist := rfl
@[simp] theorem withCoder_input (s : State) (c : Coder) : (s.withCoder c).input = s.input := rfl
@[simp] theorem withCoder_output (s : State) (c : Coder) : (s.withCoder c).output = s.output := rfl
@[simp] theorem withCoder_readData (s : State) (c : Coder) : (s.withCoder c).readData = s.readData := rfl
@[simp] theorem withCoder_sinkPlan (s : State) (c : Coder) : (s.withCoder c).sinkPlan = s.sinkPlan := rfl
@[simp] theorem withCoder_freeCount (s : State) (c : Coder) : (s.withCoder c).freeCount = s.freeCount := rfl

/-! ### taken -/

@[simp] theorem taken_phase (s : State) : (s.taken).phase = s.phase := rfl
@[simp] theorem taken_cause (s : State) : (s.taken).cause = s.cause := rfl
@[simp] theorem taken_faultOp (s : State) : (s.taken).faultOp = s.faultOp := rfl
@[simp] theorem taken_faultArg (s : State) : (s.taken).faultArg = s.faultArg := rfl
@[simp] theorem taken_outCount (s : State) : (s.taken).outCount = s.outCount := rfl
@[simp] theorem taken_cfg (s : State) : (s.taken).cfg = s.cfg := rfl
@[simp] theorem taken_dictEff (s : State) : (s.taken).dictEff = s.dictEff := rfl
@[simp] theorem taken_histN (s : State) : (s.taken).histN = s.histN := rfl
@[simp] theorem taken_sizeKnown (s : State) : (s.taken).sizeKnown = s.sizeKnown := rfl
@[simp] theorem taken_sizeValue (s : State) : (s.taken).sizeValue = s.sizeValue := rfl
@[simp] theorem taken_rc (s : State) : (s.taken).rc = s.rc := rfl
@[simp] theorem taken_es (s : State) : (s.taken).es = s.es := rfl
@[simp] theorem taken_probs (s : State) : (s.taken).probs = s.probs := rfl
@[simp] theorem taken_hist (s : State) : (s.taken).hist = s.hist := rfl
@[simp] theorem taken_input (s : State) : (s.taken).input = s.input.tail := rfl
@[simp] theorem taken_output (s : State) : (s.taken).output = s.output := rfl
@[simp] theorem taken_readData (s : State) : (s.taken).readData = s.readData := rfl
@[simp] theorem taken_sinkPlan (s : State) : (s.taken).sinkPlan = s.sinkPlan := rfl
@[simp] theorem taken_freeCount (s : State) : (s.taken).freeCount = s.freeCount := rfl

/-! ### serveRead -/

@[simp] theorem serveRead_phase (sp a : Nat) (s : State) : (serveRead sp a s).phase = s.phase := rfl
@[simp] theorem serveRead_cause (sp a : Nat) (s : State) : (serveRead sp a s).cause = s.cause := rfl
@[simp] theorem serveRead_faultOp (sp a : Nat) (s : State) : (serveRead sp a s).faultOp = s.faultOp := rfl
@[simp] theorem serveRead_faultArg (sp a : Nat) (s : State) : (serveRead sp a s).faultArg = s.faultArg := rfl
@[simp] theorem serveRead_outCount (sp a : Nat) (s : State) : (serveRead sp a s).outCount = s.outCount := rfl
@[simp] theorem serveRead_cfg (sp a : Nat) (s : State) : (serveRead sp a s).cfg = s.cfg := rfl
@[simp] theorem serveRead_dictEff (sp a : Nat) (s : State) : (serveRead sp a s).dictEff = s.dictEff := rfl
@[simp] theorem serveRead_histN (sp a : Nat) (s : State) : (serveRead sp a s).histN = s.histN := rfl
@[simp] theorem serveRead_sizeKnown (sp a : Nat) (s : State) : (serveRead sp a s).sizeKnown = s.sizeKnown := rfl
@[simp] theorem serveRead_sizeValue (sp a : Nat) (s : State) : (serveRead sp a s).sizeValue = s.sizeValue := rfl
@[simp] theorem serveRead_rc (sp a : Nat) (s : State) : (serveRead sp a s).rc = s.rc := rfl
@[simp] theorem serveRead_es (sp a : Nat) (s : State) : (serveRead sp a s).es = s.es := rfl
@[simp] theorem serveRead_probs (sp a : Nat) (s : State) : (serveRead sp a s).probs = s.probs := rfl
@[simp] theorem serveRead_hist (sp a : Nat) (s : State) : (serveRead sp a s).hist = s.hist := rfl
@[simp] theorem serveRead_input (sp a : Nat) (s : State) : (serveRead sp a s).input = s.input := rfl
@[simp] theorem serveRead_output (sp a : Nat) (s : State) : (serveRead sp a s).output = s.output := rfl
@[simp] theorem serveRead_readData (sp a : Nat) (s : State) :
    (serveRead sp a s).readData = s.readData ++ [observe s sp a] := rfl
@[simp] theorem serveRead_sinkPlan (sp a : Nat) (s : State) : (serveRead sp a s).sinkPlan = s.sinkPlan := rfl
@[simp] theorem serveRead_freeCount (sp a : Nat) (s : State) : (serveRead sp a s).freeCount = s.freeCount := rfl

/-! ### unspecify -/

@[simp] theorem unspecify_phase (s : State) : (unspecify s).phase = s.phase := rfl
@[simp] theorem unspecify_cause (s : State) : (unspecify s).cause = s.cause := rfl
@[simp] theorem unspecify_faultOp (s : State) : (unspecify s).faultOp = s.faultOp := rfl
@[simp] theorem unspecify_faultArg (s : State) : (unspecify s).faultArg = s.faultArg := rfl
@[simp] theorem unspecify_outCount (s : State) : (unspecify s).outCount = Config.freeValue s.freeCount 0 0x040 := rfl
@[simp] theorem unspecify_cfg (s : State) : (unspecify s).cfg = CfgRegs.unspecified s.freeCount := rfl
@[simp] theorem unspecify_dictEff (s : State) :
    (unspecify s).dictEff = (Config.freeValue s.freeCount 0 0x011).setWidth 32 := rfl
@[simp] theorem unspecify_histN (s : State) :
    (unspecify s).histN = (Config.freeValue s.freeCount 0 0x012).setWidth 32 := rfl
@[simp] theorem unspecify_sizeKnown (s : State) :
    (unspecify s).sizeKnown = (Config.freeValue s.freeCount 0 0x013).getLsbD 0 := rfl
@[simp] theorem unspecify_sizeValue (s : State) :
    (unspecify s).sizeValue = Config.freeValue s.freeCount 0 0x014 := rfl
@[simp] theorem unspecify_rc (s : State) : (unspecify s).rc = RangeCoder.unspecified s.freeCount := rfl
@[simp] theorem unspecify_es (s : State) : (unspecify s).es = EncoderState.unspecified s.freeCount := rfl
@[simp] theorem unspecify_probs (s : State) : (unspecify s).probs = ⟨.unspecified s.freeCount, []⟩ := rfl
@[simp] theorem unspecify_hist (s : State) : (unspecify s).hist = ⟨.unspecified s.freeCount, []⟩ := rfl
@[simp] theorem unspecify_input (s : State) : (unspecify s).input = s.input := rfl
@[simp] theorem unspecify_output (s : State) : (unspecify s).output = s.output := rfl
@[simp] theorem unspecify_readData (s : State) : (unspecify s).readData = s.readData := rfl
@[simp] theorem unspecify_sinkPlan (s : State) : (unspecify s).sinkPlan = s.sinkPlan := rfl
@[simp] theorem unspecify_freeCount (s : State) : (unspecify s).freeCount = s.freeCount + 1 := rfl

/-! ### configured -/

@[simp] theorem configured_phase (cfg : CfgRegs) (s : State) : (configured cfg s).phase = .configured := rfl
@[simp] theorem configured_cause (cfg : CfgRegs) (s : State) : (configured cfg s).cause = .none := rfl
@[simp] theorem configured_faultOp (cfg : CfgRegs) (s : State) : (configured cfg s).faultOp = 0 := rfl
@[simp] theorem configured_faultArg (cfg : CfgRegs) (s : State) : (configured cfg s).faultArg = 0 := rfl
@[simp] theorem configured_outCount (cfg : CfgRegs) (s : State) : (configured cfg s).outCount = 0 := rfl
@[simp] theorem configured_cfg (cfg : CfgRegs) (s : State) : (configured cfg s).cfg = cfg := rfl
@[simp] theorem configured_dictEff (cfg : CfgRegs) (s : State) :
    (configured cfg s).dictEff = BitVec.ofNat 32 (effectiveDict cfg.dictSize cfg.roundPow2) := rfl
@[simp] theorem configured_histN (cfg : CfgRegs) (s : State) :
    (configured cfg s).histN = BitVec.ofNat 32 (historySize cfg.dictSize cfg.roundPow2) := rfl
@[simp] theorem configured_sizeKnown (cfg : CfgRegs) (s : State) : (configured cfg s).sizeKnown = false := rfl
@[simp] theorem configured_sizeValue (cfg : CfgRegs) (s : State) :
    (configured cfg s).sizeValue = 0xFFFFFFFFFFFFFFFF := rfl
@[simp] theorem configured_rc (cfg : CfgRegs) (s : State) : (configured cfg s).rc = RangeCoder.initial := rfl
@[simp] theorem configured_es (cfg : CfgRegs) (s : State) : (configured cfg s).es = EncoderState.initial := rfl
@[simp] theorem configured_probs (cfg : CfgRegs) (s : State) : (configured cfg s).probs = ⟨.initial, []⟩ := rfl
@[simp] theorem configured_hist (cfg : CfgRegs) (s : State) : (configured cfg s).hist = ⟨.initial, []⟩ := rfl
@[simp] theorem configured_input (cfg : CfgRegs) (s : State) : (configured cfg s).input = s.input := rfl
@[simp] theorem configured_output (cfg : CfgRegs) (s : State) : (configured cfg s).output = s.output := rfl
@[simp] theorem configured_readData (cfg : CfgRegs) (s : State) : (configured cfg s).readData = s.readData := rfl
@[simp] theorem configured_sinkPlan (cfg : CfgRegs) (s : State) : (configured cfg s).sinkPlan = s.sinkPlan := rfl
@[simp] theorem configured_freeCount (cfg : CfgRegs) (s : State) : (configured cfg s).freeCount = s.freeCount := rfl

/-! ### checkFault, the coder of a state, withFetchWord -/

@[simp] theorem checkFault_eq (c : Cause) (i : Instr) (s : State) :
    checkFault c i s = raiseFault c i.opcode i.argument s := rfl
@[simp] theorem abortRunning_eq (i : Instr) (s : State) :
    abortRunning i s = raiseFault .sinkAborted i.opcode i.argument (unspecify s) := rfl
@[simp] theorem coder_rc (s : State) : s.coder.rc = s.rc := rfl
@[simp] theorem coder_probs (s : State) : s.coder.probs = s.probs := rfl
@[simp] theorem coder_out (s : State) : s.coder.out = [] := rfl
@[simp] theorem withFetchWord_input (s : State) (nbits w : Nat) :
    (s.withFetchWord nbits w).input = .command (tableWord nbits w) :: s.input := rfl
@[simp] theorem withFetchWord_taken (s : State) (nbits w : Nat) : (s.withFetchWord nbits w).taken = s := rfl

end Sys2Proof.Machine
end

