-- ==== Sys2Proof/Laws/Ops.lean ====
section
/-! SUPPORT. One lemma for each shared operation that says everything it can do: the checks, the history operations,
the sink, and the token commands' common body. -/

namespace Sys2Proof.Machine

/-! ### Checks -/

/-- The three outcomes of the acceptance check (R151). -/
theorem whenAccepted_cases (i : Instr) (s : State) (rest : Unit → Result) :
    (acceptance i s.phase = .run ∧ whenAccepted i s rest = rest ()) ∨
    (acceptance i s.phase = .sequenceError ∧
      whenAccepted i s rest = .next (raiseFault .sequenceError i.opcode i.argument s)) ∨
    (acceptance i s.phase = .discard ∧ whenAccepted i s rest = .next s) := by
  unfold whenAccepted
  cases h : acceptance i s.phase <;> simp

theorem whenAccepted_run {i : Instr} {s : State} (h : acceptance i s.phase = .run) (rest : Unit → Result) :
    whenAccepted i s rest = rest () := by
  simp only [whenAccepted, h]

/-- The two outcomes of a later check (R152). -/
theorem require_cases (holds : Bool) (cause : Cause) (i : Instr) (s : State) (rest : Unit → Result) :
    (holds = true ∧ require holds cause i s rest = rest ()) ∨
    (holds = false ∧ require holds cause i s rest = .next (raiseFault cause i.opcode i.argument s)) := by
  cases holds <;> simp [require]

theorem require_true (cause : Cause) (i : Instr) (s : State) (rest : Unit → Result) :
    require true cause i s rest = rest () := rfl

/-! ### History -/

/-- HistCopy changes the history and the cursor, nothing else. -/
theorem histCopy_frame {dist len : Nat} {s t : State} (h : histCopy dist len s = some t) :
    ∃ hist r, t = { s with hist := hist, es := { s.es with r := r } } := by
  induction len generalizing s with
  | zero =>
    simp only [histCopy, Option.some.injEq] at h
    exact ⟨s.hist, s.es.r, h ▸ rfl⟩
  | succ k ih =>
    simp only [histCopy] at h
    split at h
    · cases h
    · obtain ⟨hist, r, ht⟩ := ih h
      exact ⟨hist, r, ht⟩

/-- HistCopy keeps the canonical form. -/
theorem histCopy_wf {dist len : Nat} {s t : State} (h : histCopy dist len s = some t) (hw : s.hist.wf = true) :
    t.hist.wf = true := by
  induction len generalizing s with
  | zero =>
    simp only [histCopy, Option.some.injEq] at h
    exact h ▸ hw
  | succ k ih =>
    simp only [histCopy] at h
    split at h
    · cases h
    · exact ih h (History.write_wf hw _ _)

/-- A token's history writes change the history and the cursor, nothing else. -/
theorem Source.commit_frame {src : Source} {s t : State} (h : src.commit s = some t) :
    ∃ hist r, t = { s with hist := hist, es := { s.es with r := r } } := by
  cases src with
  | literal b =>
    simp only [Source.commit, Option.some.injEq] at h
    exact ⟨_, _, h.symm⟩
  | copy dist len => exact histCopy_frame h

theorem Source.commit_wf {src : Source} {s t : State} (h : src.commit s = some t) (hw : s.hist.wf = true) :
    t.hist.wf = true := by
  cases src with
  | literal b =>
    simp only [Source.commit, Option.some.injEq] at h
    subst h
    exact History.write_wf hw _ _
  | copy dist len => exact histCopy_wf h hw

/-- Advance reads the last byte written and moves the position on (R124). -/
theorem advance_eq_some {len : Nat} {s t : State} (h : advance len s = some t) :
    ∃ b, histRead 1 s = some b ∧
      t = { s with es := { s.es with
              totalPos := s.es.totalPos + BitVec.ofNat 64 len,
              posState := positionState s.cfg.pb (s.es.totalPos + BitVec.ofNat 64 len),
              prevByte := b } } := by
  unfold advance at h
  split at h
  · cases h
  · rename_i b hb
    exact ⟨b, hb, (Option.some.inj h).symm⟩

/-! ### The sink -/

/-- A sink that never aborts takes every byte. -/
@[simp] theorem sinkTake_never (bytes : List Byte) : sinkTake bytes [] = ⟨bytes, [], false⟩ := by
  cases bytes <;> rfl

@[simp] theorem sinkTake_nothing (plan : List Nat) : sinkTake [] plan = ⟨[], plan, false⟩ := by
  cases plan <;> rfl

/-- A sink with room for the bytes takes them all. -/
theorem sinkTake_room {bytes : List Byte} {n : Nat} (h : bytes.length ≤ n) (plan : List Nat) :
    sinkTake bytes (n :: plan) = ⟨bytes, (n - bytes.length) :: plan, false⟩ := by
  induction bytes generalizing n with
  | nil => rfl
  | cons b bytes ih =>
    cases n with
    | zero => simp at h
    | succ n =>
      have h' : bytes.length ≤ n := by simpa using h
      simp [sinkTake, ih h']

/-- A sink with room for fewer takes what it has room for and aborts (R158). -/
theorem sinkTake_abort {bytes : List Byte} {n : Nat} (h : n < bytes.length) (plan : List Nat) :
    sinkTake bytes (n :: plan) = ⟨bytes.take n, plan, true⟩ := by
  induction bytes generalizing n with
  | nil => simp at h
  | cons b bytes ih =>
    cases n with
    | zero => rfl
    | succ n =>
      have h' : n < bytes.length := by simpa using h
      simp [sinkTake, ih h']

/-- The command completes and the sink takes all its bytes, or the sink aborts it (R62, R158). -/
theorem deliver_cases (i : Instr) (bytes : List Byte) (done : State) :
    (∃ plan, (done.sinkPlan = [] → plan = []) ∧ deliver i bytes done =
      { done with output := done.output ++ bytes, sinkPlan := plan,
                  outCount := done.outCount + BitVec.ofNat 64 bytes.length }) ∨
    (∃ n plan, n < bytes.length ∧ done.sinkPlan = n :: plan ∧ deliver i bytes done =
      raiseFault .sinkAborted i.opcode i.argument (unspecify
        { done with output := done.output ++ bytes.take n, sinkPlan := plan,
                    outCount := done.outCount + BitVec.ofNat 64 (bytes.take n).length })) := by
  cases hp : done.sinkPlan with
  | nil => exact .inl ⟨[], fun _ => rfl, by simp [deliver, hp]⟩
  | cons n plan =>
    by_cases hn : n < bytes.length
    · exact .inr ⟨n, plan, hn, rfl, by simp [deliver, hp, sinkTake_abort hn]⟩
    · exact .inl ⟨(n - bytes.length) :: plan, fun h => (by cases h), by simp [deliver, hp, sinkTake_room (Nat.le_of_not_lt hn)]⟩

/-- With a sink that never aborts the command completes. -/
theorem deliver_never {done : State} (h : done.sinkPlan = []) (i : Instr) (bytes : List Byte) :
    deliver i bytes done =
      { done with output := done.output ++ bytes,
                  outCount := done.outCount + BitVec.ofNat 64 bytes.length } := by
  simp [deliver, h]

/-! ### Tokens -/

/-- Everything the common body of a token can do when it answers a next state (R125). -/
theorem runToken_next {i : Instr} {path : List Decision} {table : List (BitVec 4)} {mru : Mru} {src : Source}
    {s t : State} (h : runToken i path table mru src s = .next t) :
    ∃ next s2 b,
      fsmNext table s.es.state = some next ∧
      src.commit { s.withCoder (s.coder.run path) with es := { s.es with state := next, mru := mru } } = some s2 ∧
      histRead 1 s2 = some b ∧
      t = deliver i (s.coder.run path).out
        { s2 with es := { s2.es with
            totalPos := s2.es.totalPos + BitVec.ofNat 64 src.length,
            posState := positionState s2.cfg.pb (s2.es.totalPos + BitVec.ofNat 64 src.length),
            prevByte := b } } := by
  simp only [runToken] at h
  split at h
  · cases h
  · rename_i next hn
    split at h
    · cases h
    · rename_i s2 hs2
      split at h
      · cases h
      · rename_i s3 hs3
        obtain ⟨b, hb, ht⟩ := advance_eq_some hs3
        injection h with h
        exact ⟨next, s2, b, hn, hs2, hb, by rw [← h, ht]⟩

/-- A token answers a next state when its FSM entry exists and its history accesses succeed. -/
theorem runToken_of {i : Instr} {path : List Decision} {table : List (BitVec 4)} {mru : Mru} {src : Source}
    {s s2 s3 : State} {next : BitVec 4} (hn : fsmNext table s.es.state = some next)
    (h2 : src.commit { s.withCoder (s.coder.run path) with es := { s.es with state := next, mru := mru } } = some s2)
    (h3 : advance src.length s2 = some s3) :
    runToken i path table mru src s = .next (deliver i (s.coder.run path).out s3) := by
  have h2' : src.commit { s.withCoder (s.coder.run path) with
      es := { (s.withCoder (s.coder.run path)).es with state := next, mru := mru } } = some s2 := h2
  simp only [runToken, hn, h2', h3]

end Sys2Proof.Machine
end

