-- ==== Sys2Proof/Laws/History.lean ====
section
/-! SUPPORT. The history operations, said once: what is at which distance after a write and after a copy, and which
entries change (R58 to R60). -/

namespace Sys2Proof.Machine

/-- The cursor moves on by one modulo `N` (R59). -/
theorem histWrite_r {s : State} (b : Byte) (h : 0 < s.histN.toNat) :
    (histWrite b s).es.r.toNat = (s.es.r.toNat + 1) % s.histN.toNat := by
  have h1 := Nat.mod_lt (s.es.r.toNat + 1) h
  have h2 := s.histN.isLt
  simp only [histWrite, BitVec.toNat_ofNat]
  exact Nat.mod_eq_of_lt (by omega)

/-- The three facts of indices modulo `n` that the distances rest on. -/
theorem wrap_same {r n : Nat} (hr : r < n) : ((r + 1) % n + n - 1) % n = r := by
  by_cases h : r + 1 = n
  · subst h; simp
  · rw [Nat.mod_eq_of_lt (show r + 1 < n by omega), show r + 1 + n - 1 = r + n by omega, Nat.add_mod_right,
      Nat.mod_eq_of_lt hr]

theorem wrap_shift {r n d : Nat} (hr : r < n) (hd : d < n) : ((r + 1) % n + n - (d + 1)) % n = (r + n - d) % n := by
  by_cases h : r + 1 = n
  · subst h
    rw [Nat.mod_self]
    rw [show r + (r + 1) - d = (0 + (r + 1) - (d + 1)) + (r + 1) by omega, Nat.add_mod_right]
  · rw [Nat.mod_eq_of_lt (show r + 1 < n by omega), show r + 1 + n - (d + 1) = r + n - d by omega]

theorem wrap_other {r n d : Nat} (hr : r < n) (h1 : 1 ≤ d) (hd : d < n) : (r + n - d) % n ≠ r := by
  by_cases h : d ≤ r
  · rw [show r + n - d = (r - d) + n by omega, Nat.add_mod_right, Nat.mod_eq_of_lt (by omega)]; omega
  · rw [Nat.mod_eq_of_lt (by omega)]; omega

/-- The byte just written is at distance 1 (R58, R59). -/
theorem histRead_one_histWrite {s : State} (b : Byte) (h : s.es.r.toNat < s.histN.toNat) :
    histRead 1 (histWrite b s) = some b := by
  rw [histRead, histWrite_r b (by omega), histWrite_histN, wrap_same h]
  exact History.read_write_same _ _ _

/-- What was at distance `dist` is one further away after a write, unless it was the oldest entry (R58, R59). -/
theorem histRead_succ_histWrite {s : State} (b : Byte) {dist : Nat} (h : s.es.r.toNat < s.histN.toNat) (h1 : 1 ≤ dist)
    (hd : dist < s.histN.toNat) : histRead (dist + 1) (histWrite b s) = histRead dist s := by
  rw [histRead, histWrite_r b (by omega), histWrite_histN, wrap_shift h hd]
  exact History.read_write_ne (wrap_other h h1 hd) _ _

/-- HistWrite leaves every entry but the cursor's alone (R59). -/
theorem histWrite_read_ne {s : State} (b : Byte) {a : Nat} (h : a ≠ s.es.r.toNat) :
    (histWrite b s).hist.read a = s.hist.read a := History.read_write_ne h _ _

theorem histWrite_cursor_lt {s : State} (b : Byte) (h : s.es.r.toNat < s.histN.toNat) :
    (histWrite b s).es.r.toNat < (histWrite b s).histN.toNat := by
  rw [histWrite_r b (by omega), histWrite_histN]
  exact Nat.mod_lt _ (by omega)

/-- After a copy of `len` bytes: the cursor has moved on by `len`, and what was at distance `d` is at `d + len`. -/
theorem histCopy_shift {dist len : Nat} {s t : State} (hc : histCopy dist len s = some t)
    (h : s.es.r.toNat < s.histN.toNat) :
    t.es.r.toNat = (s.es.r.toNat + len) % s.histN.toNat ∧ t.histN = s.histN ∧
      ∀ d, 1 ≤ d → d + len ≤ s.histN.toNat → histRead (d + len) t = histRead d s := by
  induction len generalizing s with
  | zero =>
    simp only [histCopy, Option.some.injEq] at hc
    subst hc
    exact ⟨(Nat.mod_eq_of_lt h).symm, rfl, fun d _ _ => rfl⟩
  | succ k ih =>
    simp only [histCopy] at hc
    split at hc
    · cases hc
    · rename_i b hb
      obtain ⟨h1, h2, h3⟩ := ih hc (histWrite_cursor_lt b h)
      refine ⟨?_, h2, fun d hd1 hd2 => ?_⟩
      · rw [h1, histWrite_r b (by omega), histWrite_histN, Nat.mod_add_mod]
        congr 1; omega
      · have := h3 (d + 1) (by omega) (by rw [histWrite_histN]; omega)
        rw [show d + (k + 1) = d + 1 + k by omega, this]
        exact histRead_succ_histWrite b h hd1 (by omega)

/-- The bytes a copy wrote: the last `dist` bytes repeated, oldest first (R60). -/
theorem histCopy_bytes {dist len : Nat} {s t : State} (hc : histCopy dist len s = some t)
    (h : s.es.r.toNat < s.histN.toNat) (h1 : 1 ≤ dist) (hd : dist ≤ s.histN.toNat) (hl : len ≤ s.histN.toNat) :
    ∀ k, k < len → histRead (len - k) t = histRead (dist - k % dist) s ∧ (histRead (len - k) t).isSome = true := by
  induction len generalizing s with
  | zero => intro k hk; omega
  | succ n ih =>
    simp only [histCopy] at hc
    split at hc
    · cases hc
    · rename_i b hb
      have hs := (histCopy_shift hc (histWrite_cursor_lt b h)).2.2
      have ih := ih hc (histWrite_cursor_lt b h) hd (by rw [histWrite_histN]; omega)
      intro k hk
      cases k with
      | zero =>
        have e := hs 1 (by omega) (by rw [histWrite_histN]; omega)
        rw [show 1 + n = n + 1 - 0 by omega, histRead_one_histWrite b h] at e
        rw [e]; simp [hb]
      | succ j =>
        obtain ⟨e1, e2⟩ := ih j (by omega)
        rw [show n + 1 - (j + 1) = n - j by omega]
        refine ⟨?_, e2⟩
        rw [e1]
        have hq := Nat.mod_lt j (show 0 < dist by omega)
        by_cases hlast : j % dist = dist - 1
        · have : (j + 1) % dist = 0 := by
            rw [Nat.add_mod, hlast]
            by_cases hd1 : dist = 1
            · subst hd1; simp
            · rw [Nat.mod_eq_of_lt (show 1 < dist by omega), show dist - 1 + 1 = dist by omega, Nat.mod_self]
          rw [this, hlast, show dist - (dist - 1) = 1 by omega, histRead_one_histWrite b h, Nat.sub_zero, hb]
        · have : (j + 1) % dist = j % dist + 1 := by
            rw [Nat.add_mod, Nat.mod_eq_of_lt (show 1 < dist by omega), Nat.mod_eq_of_lt (by omega)]
          rw [this]
          have e := histRead_succ_histWrite (s := s) b (dist := dist - (j % dist + 1)) h (by omega) (by omega)
          rw [show dist - (j % dist + 1) + 1 = dist - j % dist by omega] at e
          exact e

/-- A copy succeeds if the entry at its distance is written. -/
theorem histCopy_isSome {dist : Nat} (len : Nat) {s : State} (h : s.es.r.toNat < s.histN.toNat) (h1 : 1 ≤ dist)
    (hd : dist ≤ s.histN.toNat) (hw : ∀ d, 1 ≤ d → d ≤ dist → (histRead d s).isSome = true) :
    ∃ t, histCopy dist len s = some t := by
  induction len generalizing s with
  | zero => exact ⟨s, rfl⟩
  | succ k ih =>
    obtain ⟨b, hb⟩ := Option.isSome_iff_exists.mp (hw dist h1 (Nat.le_refl _))
    have := ih (s := histWrite b s) (histWrite_cursor_lt b h) hd (fun d hd1 hd2 => by
      by_cases h0 : d = 1
      · subst h0; rw [histRead_one_histWrite b h]; rfl
      · have e := histRead_succ_histWrite (s := s) b (dist := d - 1) h (by omega) (by omega)
        rw [show d - 1 + 1 = d by omega] at e
        rw [e]
        exact hw _ (by omega) (by omega))
    obtain ⟨t, ht⟩ := this
    exact ⟨t, by simp only [histCopy, hb, ht]⟩

/-- A copy leaves every entry alone but the `len` from the cursor on (R60). -/
theorem histCopy_read_ne {dist len : Nat} {s t : State} (hc : histCopy dist len s = some t)
    (h : s.es.r.toNat < s.histN.toNat) {a : Nat} (ha : ∀ k, k < len → a ≠ (s.es.r.toNat + k) % s.histN.toNat) :
    t.hist.read a = s.hist.read a := by
  induction len generalizing s with
  | zero =>
    simp only [histCopy, Option.some.injEq] at hc
    rw [hc]
  | succ n ih =>
    simp only [histCopy] at hc
    split at hc
    · cases hc
    · rename_i b hb
      have h0 := ha 0 (by omega)
      rw [Nat.add_zero, Nat.mod_eq_of_lt h] at h0
      rw [ih hc (histWrite_cursor_lt b h) ?_, histWrite_read_ne b h0]
      intro k hk
      rw [histWrite_r b (by omega), histWrite_histN, Nat.mod_add_mod]
      have := ha (k + 1) (by omega)
      rwa [show s.es.r.toNat + (k + 1) = s.es.r.toNat + 1 + k by omega] at this
end Sys2Proof.Machine
end

