-- ==== Sys2Proof/Laws/Observe.lean ====
section
/-! SUPPORT. The observation port: which function answers which space, and the encodings it answers with, as numbers. -/

namespace Sys2Proof.Machine

theorem observe_space0 (s : State) (addr : Nat) : observe s 0 addr = observeRegister s addr := rfl

theorem observe_space1 (s : State) (addr : Nat) : observe s 1 addr = observeProb s addr := rfl

theorem observe_space2 (s : State) (i : Nat) : observe s 2 i = observeHistory s i := rfl

/-- The table numbers are those of the tables, each once (R52). -/
theorem tableNumbered_number (t : ProbTable) : tableNumbered t.number = some t := by
  rcases t with _ | _ | _ | _ | _ | _ | c | c | c | c | c | _ | _ | _ | _ <;> first | rfl | (cases c <;> rfl)

/-- No table has a number above 19 (R52). -/
theorem ProbTable.number_lt (t : ProbTable) : t.number < 20 := by
  rcases t with _ | _ | _ | _ | _ | _ | c | c | c | c | c | _ | _ | _ | _ <;>
    first | decide | (cases c <;> decide)

/-- What an address of the probability window shows, once its two fields are known (R52). -/
theorem observeProb_toNat {s : State} {addr index : Nat} {t : ProbTable} (ht : tableNumbered (addr / 2 ^ 24) = some t)
    (hi : addr % 2 ^ 24 = index) :
    (observeProb s addr).toNat =
      if index < t.size s.cfg.lc.toNat s.cfg.lp.toNat then (s.probs.read t index).toNat else 0 := by
  unfold observeProb
  rw [ht, hi]
  dsimp only
  split
  · rw [BitVec.toNat_setWidth]
    exact Nat.mod_eq_of_lt (Nat.lt_of_lt_of_le (s.probs.read t index).isLt (by decide))
  · rfl

/-- The two fields of an address of the probability window (R52). -/
theorem window_fields {n index : Nat} (h : index < 2 ^ 24) :
    (n * 2 ^ 24 + index) / 2 ^ 24 = n ∧ (n * 2 ^ 24 + index) % 2 ^ 24 = index := by
  omega

/-- The two fields of STATUS (R51). -/
theorem statusRegister_toNat (p : Phase) (c : Cause) :
    (statusRegister p c).toNat = p.code.toNat + 2 ^ 4 * c.code.toNat := by
  cases p <;> cases c <;> rfl

/-- A written entry of the history window (R53). -/
theorem writtenEntry_toNat : ∀ b : Byte, (writtenEntry b).toNat = 2 ^ 8 + b.toNat := by decide

end Sys2Proof.Machine
end

