-- ==== Sys2Proof/Laws/Operands.lean ====
section
/-! SUPPORT. What the operand checks say, and what the bit-vector computations are in plain numbers. -/

namespace Sys2Proof.Machine

theorem configInRange_iff (lc lp pb : BitVec 4) :
    configInRange lc lp pb = true ↔ lc.toNat ≤ 8 ∧ lp.toNat ≤ 4 ∧ pb.toNat ≤ 4 := by
  rw [configInRange, Bool.and_eq_true, Bool.and_eq_true, decide_eq_true_iff, decide_eq_true_iff, decide_eq_true_iff,
    and_assoc]
  rfl

theorem lengthInRange_iff (len : BitVec 9) : lengthInRange len = true ↔ 2 ≤ len.toNat ∧ len.toNat ≤ 273 := by
  rw [lengthInRange, Bool.and_eq_true, decide_eq_true_iff, decide_eq_true_iff]
  rfl

theorem histCheck_iff (dist : Nat) (s : State) :
    histCheck dist s = true ↔ dist ≤ s.es.totalPos.toNat ∧ dist ≤ s.dictEff.toNat := by
  simp [histCheck]

/-- `pos_state` is the position modulo `2^pb` (R34). -/
theorem positionState_toNat (pb : BitVec 4) (totalPos : BitVec 64) (h : pb.toNat ≤ 4) :
    (positionState pb totalPos).toNat = totalPos.toNat % 2 ^ pb.toNat := by
  have h1 : ((1#64 <<< pb.toNat) - 1).toNat = 2 ^ pb.toNat - 1 := by
    have : pb.toNat = 0 ∨ pb.toNat = 1 ∨ pb.toNat = 2 ∨ pb.toNat = 3 ∨ pb.toNat = 4 := by omega
    rcases this with h | h | h | h | h <;> rw [h] <;> rfl
  have h2 : totalPos.toNat % 2 ^ pb.toNat < 16 := by
    have := Nat.mod_lt totalPos.toNat (show 0 < 2 ^ pb.toNat by positivity)
    have : 2 ^ pb.toNat ≤ 2 ^ 4 := Nat.pow_le_pow_right (by omega) h
    omega
  simp only [positionState, BitVec.toNat_setWidth, BitVec.toNat_and]
  rw [show (1 <<< pb.toNat - 1 : BitVec 64) = (1#64 <<< pb.toNat) - 1 from rfl, h1, Nat.and_two_pow_sub_one_eq_mod]
  exact Nat.mod_eq_of_lt h2

/-- The probability update in plain numbers (R86). -/
theorem adapt_toNat (p : Prob) (b : Bool) (h : p.toNat ≤ 2048) :
    (adapt p b).toNat = if b then p.toNat - p.toNat / 32 else p.toNat + (2048 - p.toNat) / 32 := by
  have hs : probScale.toNat = 2048 := rfl
  cases b
  · simp only [adapt, moveBits, Bool.false_eq_true, if_false, BitVec.toNat_add, BitVec.toNat_ushiftRight,
      BitVec.toNat_sub, hs, Nat.shiftRight_eq_div_pow]
    omega
  · simp only [adapt, moveBits, if_true, BitVec.toNat_sub, BitVec.toNat_ushiftRight, Nat.shiftRight_eq_div_pow]
    omega

/-- The numbers behind R86 and R87: how far the cut of an interval stays from both its ends. -/
theorem cut_bounds (w p : Nat) (hw : 2 ^ 24 ≤ w) (hw' : w < 2 ^ 32) (hp : 31 ≤ p) (hp' : p ≤ 2017) :
    253952 ≤ w / 2 ^ 11 * p ∧ w / 2 ^ 11 * p < w ∧ w / 2 ^ 11 * p < 2 ^ 32 ∧ w / 2 ^ 11 * p + 2 ^ 16 ≤ w := by
  have h1 : 8192 ≤ w / 2 ^ 11 := by omega
  have h2 : w / 2 ^ 11 * p ≤ w / 2 ^ 11 * 2017 := Nat.mul_le_mul_left _ hp'
  have h3 : 8192 * 31 ≤ w / 2 ^ 11 * p := Nat.mul_le_mul h1 hp
  omega

/-- The product of R86 does not wrap. -/
theorem bound_toNat (w : BitVec 32) (p : Prob) (hw : 2 ^ 24 ≤ w.toNat) (hp : 31 ≤ p.toNat) (hp' : p.toNat ≤ 2017) :
    (bound w p).toNat = w.toNat / 2 ^ 11 * p.toNat := by
  have := cut_bounds w.toNat p.toNat hw w.isLt hp hp'
  simp only [bound, probBits, BitVec.toNat_mul, BitVec.toNat_ushiftRight, BitVec.toNat_setWidth,
    Nat.shiftRight_eq_div_pow]
  rw [Nat.mod_eq_of_lt (a := p.toNat) (by omega), Nat.mod_eq_of_lt this.2.2.1]

/-- What Shift_low leaves in `low`, in plain numbers (R90). -/
theorem shifted_low_toNat (low : BitVec 64) :
    (((low.extractLsb' 0 32) <<< 8).setWidth 64).toNat = low.toNat % 2 ^ 24 * 2 ^ 8 := by
  simp only [BitVec.toNat_setWidth, BitVec.toNat_shiftLeft, BitVec.extractLsb'_toNat, Nat.shiftLeft_eq,
    Nat.shiftRight_zero]
  omega

end Sys2Proof.Machine
end

