-- ==== Sys2Proof/Laws/PerInstr.lean ====
section
/-! SUPPORT. Per command: the two fields of its word (R72) and its row of the opcode table (R80). -/

namespace Sys2Proof.Laws

/-- A command's word has its opcode (R72). -/
theorem opField_encode (i : Instr) : opField (encode i) = i.opcode := BitVec.extractLsb'_append_eq_left

/-- A command's word has its argument (R72). -/
theorem argField_encode (i : Instr) : argField (encode i) = i.argument := BitVec.extractLsb'_append_eq_right

/-- The command's word carries its opcode and its argument, and its opcode is that of the row with its mnemonic. -/
def WordFields.Statement (i : Instr) : Prop :=
  opField (encode i) = i.opcode ∧ argField (encode i) = i.argument ∧
    ∃ row ∈ opcodeTable, row.mnemonic = i.mnemonic ∧ opField row.pattern = i.opcode

theorem WordFields.config (lc lp pb : BitVec 4) (hdrSize roundPow2 : Bool) (dictSize : BitVec 32) :
    WordFields.Statement (.config lc lp pb hdrSize roundPow2 dictSize) :=
  ⟨opField_encode _, argField_encode _, opcodeTable[0], by decide, rfl, rfl⟩

theorem WordFields.setsize (size : BitVec 64) : WordFields.Statement (.setsize size) :=
  ⟨opField_encode _, argField_encode _, opcodeTable[1], by decide, rfl, rfl⟩

theorem WordFields.header : WordFields.Statement .header :=
  ⟨opField_encode _, argField_encode _, opcodeTable[2], by decide, rfl, rfl⟩

theorem WordFields.lit (byte : Byte) : WordFields.Statement (.lit byte) :=
  ⟨opField_encode _, argField_encode _, opcodeTable[3], by decide, rfl, rfl⟩

theorem WordFields.shortrep : WordFields.Statement .shortrep :=
  ⟨opField_encode _, argField_encode _, opcodeTable[4], by decide, rfl, rfl⟩

theorem WordFields.rep (i : BitVec 2) (len : BitVec 9) : WordFields.Statement (.rep i len) :=
  ⟨opField_encode _, argField_encode _, opcodeTable[5], by decide, rfl, rfl⟩

theorem WordFields.simpleMatch (dist0 : BitVec 32) (len : BitVec 9) : WordFields.Statement (.simpleMatch dist0 len) :=
  ⟨opField_encode _, argField_encode _, opcodeTable[6], by decide, rfl, rfl⟩

theorem WordFields.eos : WordFields.Statement .eos :=
  ⟨opField_encode _, argField_encode _, opcodeTable[7], by decide, rfl, rfl⟩

theorem WordFields.flush : WordFields.Statement .flush :=
  ⟨opField_encode _, argField_encode _, opcodeTable[8], by decide, rfl, rfl⟩

end Sys2Proof.Laws
end

