-- ==== Sys2Proof/Laws/Token.lean ====
section
/-! SUPPORT. The commands as their checks and their effect, and what a token's history writes do to a sound history. -/

namespace Sys2Proof.Machine

/-! ### Each command: acceptance, checks, effect (R152) -/

theorem exec_config (lc lp pb : BitVec 4) (hdrSize roundPow2 : Bool) (dictSize : BitVec 32) (s : State) :
    exec (.config lc lp pb hdrSize roundPow2 dictSize) s =
      require (configInRange lc lp pb) .configRange (.config lc lp pb hdrSize roundPow2 dictSize) s fun _ =>
        .next (configured ⟨lc, lp, pb, hdrSize, roundPow2, dictSize⟩ s) := rfl

theorem exec_setsize (size : BitVec 64) (s : State) :
    exec (.setsize size) s =
      whenAccepted (.setsize size) s fun _ => .next { s with sizeKnown := true, sizeValue := size } := rfl

theorem exec_header (s : State) :
    exec .header s = whenAccepted .header s fun _ =>
      .next (deliver .header (headerBytes s.cfg s.dictEff s.sizeValue) { s with phase := .coding }) := rfl

theorem exec_flush (s : State) :
    exec .flush s = whenAccepted .flush s fun _ =>
      .next (deliver .flush s.coder.flush.out { s.withCoder s.coder.flush with phase := .done }) := rfl

theorem exec_lit (byte : Byte) (s : State) :
    exec (.lit byte) s = whenAccepted (.lit byte) s fun _ =>
      match litPath byte s with
      | none => .fault .unwrittenHistoryRead
      | some path => runToken (.lit byte) path updateLiteral s.es.mru (.literal byte) s := rfl

theorem exec_shortrep (s : State) :
    exec .shortrep s = whenAccepted .shortrep s fun _ =>
      require (histCheck (copyDistance s.es.mru.rep0) s) .historyRange .shortrep s fun _ =>
        runToken .shortrep (shortrepPath s.es.state s.es.posState) updateShortrep s.es.mru
          (.copy (copyDistance s.es.mru.rep0) 1) s := rfl

theorem exec_rep (i : BitVec 2) (len : BitVec 9) (s : State) :
    exec (.rep i len) s = whenAccepted (.rep i len) s fun _ =>
      require (lengthInRange len) .lengthRange (.rep i len) s fun _ =>
        require (histCheck (copyDistance (s.es.mru.get i)) s) .historyRange (.rep i len) s fun _ =>
          runToken (.rep i len) (repPath i len.toNat s.es.state s.es.posState) updateRep (s.es.mru.rotate i)
            (.copy (copyDistance (s.es.mru.get i)) len.toNat) s := rfl

theorem exec_simpleMatch (dist0 : BitVec 32) (len : BitVec 9) (s : State) :
    exec (.simpleMatch dist0 len) s = whenAccepted (.simpleMatch dist0 len) s fun _ =>
      require (lengthInRange len) .lengthRange (.simpleMatch dist0 len) s fun _ =>
        require (histCheck (copyDistance dist0) s) .historyRange (.simpleMatch dist0 len) s fun _ =>
          runToken (.simpleMatch dist0 len) (simpleMatchPath dist0.toNat len.toNat s.es.state s.es.posState)
            updateMatch (s.es.mru.push dist0) (.copy (copyDistance dist0) len.toNat) s := rfl

/-- EOS in phase CODING, where its FSM entry exists. -/
theorem exec_eos {s : State} {next : BitVec 4} (hp : s.phase = .coding)
    (hn : fsmNext updateMatch s.es.state = some next) :
    exec .eos s =
      .next (deliver .eos (s.coder.run (eosPath s.es.state s.es.posState)).out
        { s.withCoder (s.coder.run (eosPath s.es.state s.es.posState)) with
          es := { s.es with state := next }, phase := .ended }) := by
  rw [exec, execEos, whenAccepted_run (by rw [hp]; rfl), hn]
  generalize eosPath s.es.state s.es.posState = path
  rfl

/-! ### A token's history writes -/

/-- The cursor of a sound history lies inside the buffer. -/
theorem State.HistorySound.cursor_lt {s : State} (h : s.HistorySound) (hs : s.sizesSound) :
    s.es.r.toNat < s.histN.toNat := by
  rw [h.cursor]
  apply Nat.mod_lt
  have := hs.1
  have := hs.2.1
  simp only [minDict] at *
  omega

/-- What a token's history writes do to the cursor, to the bytes already committed, and to the entries they do not
reach. -/
theorem Source.commit_facts {src : Source} {s t : State} (hc : src.commit s = some t) (h : s.es.r.toNat < s.histN.toNat)
    (hlen : src.length ≤ s.histN.toNat) :
    t.es.r.toNat = (s.es.r.toNat + src.length) % s.histN.toNat ∧
    (∀ d, 1 ≤ d → d + src.length ≤ s.histN.toNat → histRead (d + src.length) t = histRead d s) ∧
    (∀ a, (∀ k, k < src.length → a ≠ (s.es.r.toNat + k) % s.histN.toNat) → t.hist.read a = s.hist.read a) := by
  cases src with
  | literal b =>
    simp only [Source.commit, Option.some.injEq] at hc
    subst hc
    refine ⟨histWrite_r b (by omega),
      fun d h1 h2 => histRead_succ_histWrite b h h1 (by simp only [Source.length] at h2; omega), fun a ha => ?_⟩
    apply histWrite_read_ne
    have := ha 0 (by simp [Source.length])
    rwa [Nat.add_zero, Nat.mod_eq_of_lt h] at this
  | copy dist len =>
    obtain ⟨h1, -, h3⟩ := histCopy_shift hc h
    exact ⟨h1, h3, fun a ha => histCopy_read_ne hc h ha⟩

/-- Every byte a token commits is written. -/
theorem Source.commit_new {src : Source} {s t : State} (hc : src.commit s = some t) (h : s.es.r.toNat < s.histN.toNat)
    (hl : src.length ≤ s.histN.toNat) (hd : ∀ dist len, src = .copy dist len → 1 ≤ dist ∧ dist ≤ s.histN.toNat) :
    ∀ d, 1 ≤ d → d ≤ src.length → (histRead d t).isSome = true := by
  cases src with
  | literal b =>
    simp only [Source.commit, Option.some.injEq] at hc
    subst hc
    intro d h1 h2
    obtain rfl : d = 1 := by simp only [Source.length] at h2; omega
    rw [histRead_one_histWrite b h]
    rfl
  | copy dist len =>
    obtain ⟨d1, d2⟩ := hd dist len rfl
    intro d h1 h2
    simp only [Source.length] at h2 hl
    have := (histCopy_bytes hc h d1 d2 hl (len - d) (by omega)).2
    rwa [show len - (len - d) = d by omega] at this

/-- In a sound history a token whose distance lies in what is committed meets no unwritten entry. -/
theorem Source.commit_exists {src : Source} {s : State} (hs : s.sizesSound) (hh : s.HistorySound)
    (hd : ∀ dist len, src = .copy dist len → 1 ≤ dist ∧ dist ≤ s.es.totalPos.toNat ∧ dist ≤ s.histN.toNat) :
    ∃ t, src.commit s = some t := by
  have hr := hh.cursor_lt hs
  cases src with
  | literal b => exact ⟨_, rfl⟩
  | copy dist len =>
    obtain ⟨d1, d2, d3⟩ := hd dist len rfl
    exact histCopy_isSome len hr d1 d3 (fun d h1 h2 => hh.written d h1 (by omega) (by omega))

/-- The history after a token's writes and Advance is sound again (R49). -/
theorem State.HistorySound.after_token {s t : State} {src : Source} (hs : s.sizesSound) (hh : s.HistorySound)
    (hc : src.commit s = some t) (hlen : 1 ≤ src.length) (hl : src.length ≤ 273)
    (hd : ∀ dist len, src = .copy dist len → 1 ≤ dist ∧ dist ≤ s.histN.toNat) (b : Byte)
    (hb : histRead 1 t = some b) (ps : BitVec 4) :
    State.HistorySound { t with es := { t.es with
      totalPos := t.es.totalPos + BitVec.ofNat 64 src.length, posState := ps, prevByte := b } } := by
  have hr := hh.cursor_lt hs
  obtain ⟨hs1, hs2, kk, hk1, hk2, hN⟩ := hs
  simp only [minDict] at hs1
  obtain ⟨f1, f2, f3⟩ := Source.commit_facts hc hr (by omega)
  have fn := Source.commit_new hc hr (by omega) hd
  obtain ⟨hist, r, ht⟩ := Source.commit_frame hc
  have htN : t.histN = s.histN := by rw [ht]
  have htP : t.es.totalPos = s.es.totalPos := by rw [ht]
  have hp' : (t.es.totalPos + BitVec.ofNat 64 src.length).toNat = (s.es.totalPos.toNat + src.length) % 2 ^ 64 := by
    rw [htP, BitVec.toNat_add, BitVec.toNat_ofNat, Nat.mod_eq_of_lt (a := src.length) (by omega)]
  refine ⟨?_, ?_, ?_, fun _ => hb⟩
  · show t.es.r.toNat = (t.es.totalPos + BitVec.ofNat 64 src.length).toNat % t.histN.toNat
    rw [f1, hp', htN, hN, Nat.mod_mod_of_dvd _ (Nat.pow_dvd_pow 2 (by omega : kk ≤ 64)), hh.cursor, hN, Nat.mod_add_mod]
  · intro a ha
    show a < t.histN.toNat
    rw [htN]
    by_contra hge
    have h2 : (t.hist.read a).isSome = true := ha
    rw [f3 a fun k hk e => hge (e ▸ Nat.mod_lt _ (by omega))] at h2
    exact hge (hh.inside a h2)
  · intro d h1 h2 h3
    show (histRead d t).isSome = true
    have h2 : d ≤ (t.es.totalPos + BitVec.ofNat 64 src.length).toNat := h2
    have h3 : d ≤ t.histN.toNat := h3
    rw [htN] at h3
    rw [hp'] at h2
    by_cases hle : d ≤ src.length
    · exact fn d h1 hle
    · have := f2 (d - src.length) (by omega) (by omega)
      rw [show d - src.length + src.length = d by omega] at this
      rw [this]
      apply hh.written _ (by omega) _ (by omega)
      have := Nat.mod_le (s.es.totalPos.toNat + src.length) (2 ^ 64)
      omega

end Sys2Proof.Machine
end

