-- ==== Sys2Proof/Tests/Slice0.lean ====
section
/-! SUPPORT. The model's own tests: values from spec/95_test_vectors.md (V and F numbers), and for every statement with
hypotheses a concrete case that meets all of them (`witness_…`). -/

namespace Sys2Proof.Tests

open Sys2Proof.Machine

/-! ### Small states -/

/-- The standard configuration of 95_test_vectors.md. -/
def standard : CfgRegs := ⟨3, 0, 2, false, false, 65536⟩

/-- After CONFIG with the standard configuration. -/
def ready : State := configured standard State.reset

/-- In phase CODING, nothing coded. -/
def fresh : State := { ready with phase := .coding }

/-- In phase CODING after `text` (at most 256 bytes) was committed; the range coder and the probabilities fresh. -/
def holding (state : BitVec 4) (mru : Mru) (text : List Byte) : State :=
  { fresh with
    es := { state := state, posState := positionState standard.pb (BitVec.ofNat 64 text.length),
            prevByte := text.getLast?.getD 0, r := BitVec.ofNat 32 text.length,
            totalPos := BitVec.ofNat 64 text.length, mru := mru }
    hist := { background := .initial, cells := (List.range text.length).zip text } }

/-- After LIT 0x61. -/
def oneByte : State := holding 0 ⟨0, 0, 0, 0⟩ [0x61]

/-- After LIT 0x61 and a match that left `state` 7, as far as LIT sees it. -/
def afterMatch : State := holding 7 ⟨0, 0, 0, 0⟩ [0x61]

/-- In phase FAULT after a check fault. -/
def faulted : State := { fresh with phase := .fault, cause := .historyRange, faultOp := 0x11 }

/-- In phase ENDED. -/
def ended : State := { fresh with phase := .ended }

/-- What a command leaves. -/
def result (i : Instr) (s : State) : Option State :=
  match exec i s with
  | .next t => some t
  | .fault _ => none
  | .refused _ => none

/-- The registers that end states list: state, pos_state, prev_byte, R, total_pos and the stack. -/
def shown (t : State) : List Nat :=
  [t.es.state.toNat, t.es.posState.toNat, t.es.prevByte.toNat, t.es.r.toNat, t.es.totalPos.toNat,
   t.es.mru.rep0.toNat, t.es.mru.rep1.toNat, t.es.mru.rep2.toNat, t.es.mru.rep3.toNat]

/-- Phase, cause, FAULT_OP and FAULT_ARG. -/
def record (t : State) : Phase × Cause × Opcode × Argument := (t.phase, t.cause, t.faultOp, t.faultArg)

/-- The node and the bit of each adaptive step. -/
def nodes (path : List Decision) : List (Nat × Nat) :=
  path.map fun d => match d with
    | .bit _ i b => (i, b.toNat)
    | .direct b => (0, b.toNat)

/-! ### WellFormed refuses each ill-formed term (R79) -/

theorem test_lc_9_refused : (Instr.config 9 0 0 false false 0).wellFormed = false := by decide
theorem test_lp_5_refused : (Instr.config 0 5 0 false false 0).wellFormed = false := by decide
theorem test_pb_5_refused : (Instr.config 0 0 5 false false 0).wellFormed = false := by decide
theorem test_rep_length_1_refused : (Instr.rep 0 1).wellFormed = false := by decide
theorem test_rep_length_274_refused : (Instr.rep 0 274).wellFormed = false := by decide
theorem test_match_length_1_refused : (Instr.simpleMatch 0 1).wellFormed = false := by decide
theorem test_match_length_274_refused : (Instr.simpleMatch 0 274).wellFormed = false := by decide
theorem test_ends_of_ranges_accepted : (Instr.config 8 4 4 true true 0).wellFormed = true ∧
    (Instr.rep 3 2).wellFormed = true ∧ (Instr.simpleMatch 0xFFFFFFFF 273).wellFormed = true := by decide

/-! ### Decoding: the example words of 30_encoding.md R84 and of V15 to V18 -/

theorem test_decode_config : decode 0x01FFFFFFFF00001421 = .command (.config 1 2 4 true false 0xFFFFFFFF) := by
  decide
theorem test_decode_config_round : decode 0x010000100100002000 = .command (.config 0 0 0 false true 4097) := by
  decide
theorem test_decode_config_bit_14 : decode 0x010000000000004000 = .mustBeZero := by decide
theorem test_decode_setsize : decode 0x020102030405060708 = .command (.setsize 0x0102030405060708) := by decide
theorem test_decode_header : decode 0x030000000000000000 = .command .header := by decide
theorem test_decode_header_bit_0 : decode 0x030000000000000001 = .mustBeZero := by decide
theorem test_decode_lit : decode 0x1000000000000000FF = .command (.lit 0xFF) := by decide
theorem test_decode_lit_bit_8 : decode 0x100000000000000100 = .mustBeZero := by decide
theorem test_decode_shortrep : decode 0x110000000000000000 = .command .shortrep := by decide
theorem test_decode_rep : decode 0x120000000300000002 = .command (.rep 2 3) := by decide
theorem test_decode_rep_bit_2 : decode 0x120000000200000004 = .mustBeZero := by decide
theorem test_decode_match : decode 0x1300000111FFFFFFFE = .command (.simpleMatch 0xFFFFFFFE 273) := by decide
theorem test_decode_match_bit_41 : decode 0x130000020000000000 = .mustBeZero := by decide
theorem test_decode_eos : decode 0x140000000000000000 = .command .eos := by decide
theorem test_decode_flush : decode 0x150000000000000000 = .command .flush := by decide
theorem test_decode_reserved : decode 0 = .reservedOpcode ∧ decode 0xFF0000000000000000 = .reservedOpcode := by
  decide
theorem test_encode_match : encode (.simpleMatch 2 6) = 0x130000000600000002 := by decide
theorem test_encode_config : encode (.config 3 0 2 true false 65536) = 0x010001000000001203 := by decide

/-! ### The range coder (V4 to V8) -/

/-- A coder with one probability set, for the rows of V4 and V5. -/
def coderAt (width : BitVec 32) (low : BitVec 64) (p : Prob) : Coder :=
  ⟨⟨width, low, 0, 1⟩, ⟨.initial, [(0, p)]⟩, []⟩

theorem test_encodeBit_one : (Coder.initial.encodeBit .matchSwitch 0 true).rc = ⟨0x800003FF, 0x7FFFFC00, 0, 1⟩ ∧
    (Coder.initial.encodeBit .matchSwitch 0 true).probs.cells = [(0, 992)] := by decide +kernel
theorem test_encodeBit_2016_zero :
    ((coderAt 0xFFFFFFFF 0 2016).encodeBit .matchSwitch 0 false).rc = ⟨0xFBFFF820, 0, 0, 1⟩ ∧
    ((coderAt 0xFFFFFFFF 0 2016).encodeBit .matchSwitch 0 false).probs.cells = [(0, 2017)] := by decide +kernel
theorem test_normalize_shifts : (coderAt 0x01000000 0x12345678 1024).encodeBit .matchSwitch 0 true =
    ⟨⟨0x80000000, 0xB4567800, 0x12, 1⟩, ⟨.initial, [(0, 992)]⟩, [0x00]⟩ := by decide +kernel
theorem test_shiftLow_defers : (Coder.mk ⟨0, 0xFF000000, 0x7F, 1⟩ ⟨.initial, []⟩ []).shiftLow =
    ⟨⟨0, 0, 0x7F, 2⟩, ⟨.initial, []⟩, []⟩ := by decide +kernel
theorem test_shiftLow_carries : (Coder.mk ⟨0, 0x1FF000000, 0x7F, 3⟩ ⟨.initial, []⟩ []).shiftLow =
    ⟨⟨0, 0, 0xFF, 1⟩, ⟨.initial, []⟩, [0x80, 0, 0]⟩ := by decide +kernel
theorem test_shiftLow_no_carry : (Coder.mk ⟨0, 0xFEFFFFFF, 0xAB, 2⟩ ⟨.initial, []⟩ []).shiftLow =
    ⟨⟨0, 0xFFFFFF00, 0xFE, 1⟩, ⟨.initial, []⟩, [0xAB, 0xFF]⟩ := by decide +kernel
theorem test_directBits_101 : (Coder.initial.run (directBits 0b101 3)).rc = ⟨0x1FFFFFFF, 0x9FFFFFFE, 0, 1⟩ := by
  decide +kernel
theorem test_directBits_26 : (Coder.initial.run (directBits 0x3FFFFFF 26)).out = [0x00, 0xFF, 0xFF] ∧
    (Coder.initial.run (directBits 0x3FFFFFF 26)).rc = ⟨0x3FFFFFC0, 0x1B7000040, 0xFE, 1⟩ := by decide +kernel
theorem test_flush_carries : (Coder.mk ⟨0, 0x123456789, 0x55, 3⟩ ⟨.initial, []⟩ []).flush.out =
    [0x56, 0x00, 0x00, 0x23, 0x45, 0x67, 0x89] := by decide +kernel

/-! ### The coders (V9 to V14) -/

theorem test_treeEncode : nodes (treeEncode .slotCoder 0 3 5) = [(1, 1), (3, 0), (6, 1)] := by decide
theorem test_treeReverseEncode : nodes (treeReverseEncode .alignCoder 0 4 6) = [(1, 0), (2, 1), (5, 1), (11, 0)] := by
  decide
theorem test_lenEncode_9 : lenEncode .len 9 1 = [.bit (.choice1 .len) 0 false, .bit (.lowCoder .len) 9 true,
    .bit (.lowCoder .len) 11 true, .bit (.lowCoder .len) 15 true] := by decide
theorem test_lenEncode_17 : lenEncode .len 17 3 = [.bit (.choice1 .len) 0 true, .bit (.choice2 .len) 0 false,
    .bit (.midCoder .len) 25 true, .bit (.midCoder .len) 27 true, .bit (.midCoder .len) 31 true] := by decide
theorem test_lenEncode_273 : nodes (lenEncode .len 273 2) =
    [(0, 1), (0, 1), (1, 1), (3, 1), (7, 1), (15, 1), (31, 1), (63, 1), (127, 1), (255, 1)] := by decide
theorem test_distSlot : [0, 1, 2, 3, 4, 5, 6, 7, 8, 0xB, 0x7F, 0x80, 0x1234, 0xFFFFF, 0x1FFFFFF, 0xFFFFFFFF].map distSlot =
    [0, 1, 2, 3, 4, 4, 5, 5, 6, 6, 13, 14, 24, 39, 49, 63] := by decide +kernel
theorem test_distEncode_5 : distEncode 5 2 = treeEncode .slotCoder 0 6 4 ++ [.bit .posCoder 0 true] := by
  decide +kernel
theorem test_distEncode_4660 : nodes (distEncode 0x1234 5) =
    [(193, 0), (194, 1), (197, 1), (203, 0), (214, 0), (236, 0), (0, 0), (0, 1), (0, 0), (0, 0), (0, 0), (0, 1), (0, 1),
     (1, 0), (2, 0), (4, 1), (9, 0)] := by decide +kernel
theorem test_litIndex : litIndex 3 0 5 0x41 = 0x600 ∧ litIndex 0 2 7 0xFF = 0x900 ∧ litIndex 4 1 3 0xA5 = 0x4E00 ∧
    litIndex 8 4 15 0xFF = 0x2FFD00 ∧ litIndex 0 0 9 0x12 = 0 ∧ litIndex 8 0 0 0x80 = 0x18000 := by decide +kernel
theorem test_litPlain : nodes (litPlain 0 0x41) =
    [(0x01, 0), (0x02, 1), (0x05, 0), (0x0A, 0), (0x14, 0), (0x28, 0), (0x50, 0), (0xA0, 1)] := by decide
theorem test_litMatched_differs : nodes (litMatched 0 0x61 0x41) =
    [(0x101, 0), (0x202, 1), (0x105, 1), (0x00B, 0), (0x016, 0), (0x02C, 0), (0x058, 0), (0x0B0, 1)] := by decide
theorem test_litMatched_equal : nodes (litMatched 0 0x41 0x41) =
    [(0x101, 0), (0x202, 1), (0x105, 0), (0x10A, 0), (0x114, 0), (0x128, 0), (0x150, 0), (0x2A0, 1)] := by decide

/-! ### The commands (V15 to V17) -/

/-- V16, row 6: DICT_EFF below HIST_N. -/
theorem test_config_sizes : (result (.config 0 0 0 false false 4097) State.reset).map
    (fun t => (t.dictEff.toNat, t.histN.toNat)) = some (0x1001, 0x2000) := by decide +kernel
/-- V16, row 5: the clamp, and the header's size field when no SETSIZE came. -/
theorem test_header_bytes :
    headerBytes ⟨1, 2, 4, true, false, 0xFFFFFFFF⟩ (BitVec.ofNat 32 (effectiveDict 0xFFFFFFFF false)) 0xFFFFFFFFFFFFFFFF =
      [0xC7, 0, 0, 0, 2, 0xFF, 0xFF, 0xFF, 0xFF, 0xFF, 0xFF, 0xFF, 0xFF] := by decide +kernel
theorem test_header : (result .header ready).map (fun t => (t.phase, t.output, t.outCount)) =
    some (.coding, [0x5D, 0, 0, 1, 0], 5) := by decide +kernel
/-- V17, row 2: the size is little-endian. -/
theorem test_setsize : (result (.setsize 0x0102030405060708) ready).map
    (fun t => (t.sizeKnown, headerBytes { t.cfg with hdrSize := true } t.dictEff t.sizeValue)) =
      some (true, [0x5D, 0, 0, 1, 0, 8, 7, 6, 5, 4, 3, 2, 1]) := by decide +kernel
/-- T1. -/
theorem test_lit : (result (.lit 0x41) fresh).map (fun t => (t.output, t.rc, shown t)) =
    some ([0], ⟨0x80000000, 0x7FFC0000, 0x20, 1⟩, [0, 1, 0x41, 1, 1, 0, 0, 0, 0]) := by decide +kernel
/-- P3: LIT 'x' after state 11 is matched against `HistRead(2)`, 'a'. -/
theorem test_lit_matched : litPath 0x78 (holding 11 ⟨1, 0, 0, 0⟩ [0x61, 0x62, 0x61, 0x62]) =
    some (.bit .matchSwitch 176 false :: litMatched 0x900 0x78 0x61) := by decide +kernel
/-- T2. -/
theorem test_shortrep : (result .shortrep oneByte).map shown = some [9, 2, 0x61, 2, 2, 0, 0, 0, 0] := by decide +kernel
theorem test_shortrep_path : shortrepPath 0 1 =
    [.bit .matchSwitch 1 true, .bit .rep 0 true, .bit .repG0 0 false, .bit .rep0Long 1 false] := by decide
/-- T3, its last command. -/
theorem test_rep_0 : (result (.rep 0 3) (holding 7 ⟨1, 0, 0, 0⟩ [0x61, 0x62, 0x61, 0x62])).map shown =
    some [11, 3, 0x61, 7, 7, 1, 0, 0, 0] := by decide +kernel
/-- T5, its last command. -/
theorem test_rep_3 : (result (.rep 3 2) (holding 11 ⟨0, 1, 3, 0⟩
    [0x61, 0x62, 0x63, 0x64, 0x63, 0x64, 0x63, 0x64, 0x63, 0x64, 0x64, 0x64])).map shown =
    some [11, 2, 0x64, 14, 14, 0, 0, 1, 3] := by decide +kernel
/-- T4: the copy and the stack. -/
theorem test_match : (result (.simpleMatch 2 6) (holding 0 ⟨0, 0, 0, 0⟩ [0x61, 0x62, 0x63])).map
    (fun t => (shown t, t.hist.cells.map Prod.snd)) =
      some ([7, 1, 0x63, 9, 9, 2, 0, 0, 0], [0x61, 0x62, 0x63, 0x61, 0x62, 0x63, 0x61, 0x62, 0x63]) := by
  decide +kernel
/-- T3: the coding of MATCH 1, 2. -/
theorem test_match_path : nodes (simpleMatchPath 1 2 0 2) = [(2, 1), (0, 0), (0, 0), (17, 0), (18, 0), (20, 0),
    (1, 0), (2, 0), (4, 0), (8, 0), (16, 0), (32, 1)] := by decide +kernel
/-- T7. -/
theorem test_eos : (result .eos fresh).map (fun t => (t.phase, t.output, t.rc, shown t)) =
    some (.ended, [0x00, 0x83, 0xFF], ⟨0x40000000, 0xC0000000, 0xFB, 3⟩, [7, 0, 0, 0, 0, 0, 0, 0, 0]) := by
  decide +kernel
/-- V17, row 3, and V8, row 1. -/
theorem test_flush : (result .flush fresh).map (fun t => (t.phase, t.output)) = some (.done, [0, 0, 0, 0, 0]) := by
  decide +kernel

/-! ### Faults (V18) and the ports -/

/-- F2: the first word after power-on. -/
theorem test_step_from_reset : (match step (State.reset.withFetchWord 72 0x100000000000000001) with
    | .next t => some (record t)
    | .fault _ => none
    | .refused _ => none) = some (.fault, .sequenceError, 0x10, 1) := by decide +kernel
/-- F14. -/
theorem test_length_fault : (result (.rep 0 1) oneByte).map record =
    some (.fault, .lengthRange, 0x12, 0x0000000100000000) := by decide +kernel
/-- F18: the copy distance does not wrap. -/
theorem test_distance_fault : (result (.simpleMatch 0xFFFFFFFF 2) oneByte).map record =
    some (.fault, .historyRange, 0x13, 0x00000002FFFFFFFF) := by decide +kernel
/-- F27: a bad CONFIG in phase FAULT faults again. -/
theorem test_config_fault : (result (.config 9 0 0 false false 0) faulted).map record =
    some (.fault, .configRange, 0x01, 9) := by decide +kernel
/-- F25: FLUSH is discarded in phase FAULT. -/
theorem test_fault_discards : (result .flush faulted).map record = some (record faulted) := by decide +kernel
/-- R158: a sink that takes three bytes of the header. -/
theorem test_sink_abort : (result .header { ready with sinkPlan := [3] }).map (fun t => (t.output, record t)) =
    some ([0x5D, 0, 0], .fault, .sinkAborted, 0x03, 0) := by decide +kernel
theorem test_observe : observe ready 0 0x010 = 0x0001000000000203 ∧ observe ready 0 0x000 = 1 ∧
    observe oneByte 2 0 = 0x161 ∧ observe oneByte 2 1 = 0 ∧ observe ready 1 (19 * 2 ^ 24 + 0x17FF) = 1024 ∧
    observe ready 1 (19 * 2 ^ 24 + 0x1800) = 0 := by decide +kernel
theorem test_decodeTableWord : decodeTableWord 72 0x120000000300000002 = some (.rep 2 3) ∧
    decodeTableWord 72 0 = none := by decide
theorem test_render : render (.config 3 0 2 false false 65536) =
    "CONFIG lc=3, lp=0, pb=2, hdr_size=0, round_pow2=0, dict=65536" := by decide +kernel
/-- P2: `MATCHD 3, 6` is `MATCH 2, 6`. -/
theorem test_matchD : Pseudo.expand (.matchD 3 6) = some [.simpleMatch 2 6] := by decide +kernel

/-! ### States that meet the invariant -/

theorem initial_inRange : ProbFile.inRange ⟨.initial, []⟩ := fun _ => rfl
theorem fresh_coder_sound : RangeCoder.initial.sound := ⟨by decide, by decide⟩
theorem standard_sizes {s : State} (hd : s.dictEff = 0x10000) (hn : s.histN = 0x10000) : s.sizesSound := by
  rw [State.sizesSound, hd, hn]
  exact ⟨by decide, by decide, 16, by decide, by decide, by decide⟩
/-- The history of a state that holds one byte. -/
theorem oneByte_history {s : State} (hr : s.es.r = 1) (hp : s.es.totalPos = 1) (hn : s.histN = 0x10000)
    (hh : s.hist = ⟨.initial, [(0, s.es.prevByte)]⟩) : s.HistorySound := by
  have hlast : histRead 1 s = some s.es.prevByte := by simp [histRead, hr, hn, hh, History.read, Memory.lookup]
  refine ⟨by rw [hr, hp, hn]; decide, fun a ha => ?_, fun dist h1 h2 _ => ?_, fun _ => hlast⟩
  · rw [hn]
    by_cases h : a = 0
    · subst h; decide
    · simp [hh, History.read, Memory.lookup, Ne.symm h] at ha
  · obtain rfl : dist = 1 := Nat.le_antisymm (by simpa [hp] using h2) h1
    rw [hlast]; rfl

theorem oneByte_shape_inv (state : BitVec 4) (h : state.toNat < 12) :
    (holding state ⟨0, 0, 0, 0⟩ [0x61]).Inv where
  canonical := by decide +revert
  recorded := by decide +revert
  live _ := {
    config := by decide +revert
    sizes := standard_sizes rfl rfl
    initial := ⟨rfl, rfl⟩
    probs := initial_inRange
    coder := fresh_coder_sound
    fsm := h
    position := by decide +revert
    history := oneByte_history rfl rfl rfl rfl
    matched := by decide +revert }

theorem witness_oneByte_inv : oneByte.Inv := oneByte_shape_inv 0 (by decide)
theorem witness_afterMatch_inv : afterMatch.Inv := oneByte_shape_inv 7 (by decide)
theorem witness_reset_inv : State.reset.Inv := ⟨rfl, by decide, fun h => by cases h⟩

/-! ### Witnesses: for each statement, a case that meets all its hypotheses, its ends included -/

theorem witness_EncodeOfDecode : decode 0x130000011180000001 = .command (.simpleMatch 0x80000001 273) := by decide

/-- A word of the REP row, one with its opcode and a must-be-zero bit, one of no row. -/
theorem witness_DecodeAgreesWithOpcodeTable : ∃ row ∈ opcodeTable,
    (0x120000001100000003 : CommandWord) &&& row.mask = row.pattern ∧
    opField 0x120000001100000004 = opField row.pattern ∧ 0x120000001100000004 &&& row.mask ≠ row.pattern ∧
    ∀ row ∈ opcodeTable, opField 0x160000000000000000 ≠ opField row.pattern :=
  ⟨opcodeTable[5], by decide⟩

theorem witness_StepRunsDecodedCommand :
    { ready with input := [.command 0x030000000000000000, .abort] }.input =
      .command 0x030000000000000000 :: [.abort] ∧ decode 0x030000000000000000 = .command .header := by decide

theorem witness_IdleHoldsState : State.reset.input = [] := rfl

theorem witness_ReadHasNoSideEffect : { ready with input := [.observe 0 0x010] }.input = .observe 0 0x010 :: [] := rfl

/-- A reserved opcode, and a defined one with a must-be-zero bit. -/
theorem witness_IllegalWordRaisesIllegalCommand :
    ({ ready with input := [.command 0x160000000000000000] }.input = .command 0x160000000000000000 :: [] ∧
      ready.phase ≠ .fault ∧
      opField 0x160000000000000000 ∉ [0x01, 0x02, 0x03, 0x10, 0x11, 0x12, 0x13, 0x14, 0x15]) ∧
    ({ ready with input := [.command 0x110000000000000001] }.input = .command 0x110000000000000001 :: [] ∧
      ∃ row ∈ opcodeTable, opField 0x110000000000000001 = opField row.pattern ∧
        0x110000000000000001 &&& row.mask ≠ row.pattern) :=
  ⟨by decide, rfl, opcodeTable[4], by decide⟩

/-- Addresses beside the assigned ones. -/
theorem witness_RegisterMap : [0x003, 0x00F, 0x015, 0x035, 0x03C, 0x041].all
    (fun addr => addr ∉ [0x000, 0x001, 0x002, 0x010, 0x011, 0x012, 0x013, 0x014, 0x020, 0x021, 0x022, 0x023, 0x030, 0x031,
      0x032, 0x033, 0x034, 0x038, 0x039, 0x03A, 0x03B, 0x040]) = true := by decide

/-- The last index of the literal table, the first beyond it, the last address of a table, the first unnumbered table. -/
theorem witness_ProbabilityWindow : 0x17FF < 2 ^ 24 ∧ 0x17FF < 0x300 * 2 ^ (3 + 0) ∧ 2 ^ 24 - 1 < 2 ^ 24 ∧
    ¬ 0x1800 < 0x300 * 2 ^ (3 + 0) ∧ 20 ≤ (20 * 2 ^ 24) / 2 ^ 24 := by decide

/-- A written entry, the last unwritten one, the first address beyond the buffer. -/
theorem witness_HistoryWindow : (0 < oneByte.histN.toNat ∧ oneByte.hist.read 0 = some 0x61) ∧
    (0xFFFF < oneByte.histN.toNat ∧ oneByte.hist.read 0xFFFF = none ∧ oneByte.hist.background = .initial) ∧
    oneByte.histN.toNat ≤ 0x10000 := by decide +kernel

/-- The largest legal operands. -/
theorem witness_ConfigStartsInvocation : (8 : BitVec 4).toNat ≤ 8 ∧ (4 : BitVec 4).toNat ≤ 4 := by decide

theorem config_completes (s : State) : exec (.config 8 4 4 true true 0xFFFFFFFF) s =
    .next (configured ⟨8, 4, 4, true, true, 0xFFFFFFFF⟩ s) := rfl
theorem config_completes_unrounded (s : State) : exec (.config 8 4 4 true false 4097) s =
    .next (configured ⟨8, 4, 4, true, false, 4097⟩ s) := rfl

/-- A size that is clamped down and rounded, and one that is neither. -/
theorem witness_ConfigDerivesSizes :
    (∃ t, exec (.config 8 4 4 true true 0xFFFFFFFF) State.reset = .next t ∧ t.dictEff.toNat = 2 ^ 25) ∧
    (∃ t, exec (.config 8 4 4 true false 4097) State.reset = .next t ∧ t.dictEff.toNat = 4097) :=
  ⟨⟨_, config_completes _, by decide +kernel⟩, ⟨_, config_completes_unrounded _, by decide +kernel⟩⟩

/-- Two states that differ in everything but what has crossed the ports. -/
theorem witness_ConfigForgetsEverything : samePorts oneByte faulted ∧ faulted.output = oneByte.output ∧
    oneByte.es ≠ faulted.es ∧ oneByte.phase ≠ faulted.phase := ⟨⟨rfl, rfl, rfl, rfl⟩, by decide +kernel⟩

/-- The least operands out of range. -/
theorem witness_ConfigOutOfRangeFaults : 8 < (9 : BitVec 4).toNat ∧ 4 < (5 : BitVec 4).toNat := by decide

theorem witness_SetsizeRecordsSize : ready.phase = .configured ∧ (fresh.phase ≠ .configured ∧ fresh.phase ≠ .fault) ∧
    faulted.phase = .fault := by decide

theorem witness_HeaderEmitsItsFields : ready.phase = .configured ∧ ready.sinkPlan = [] ∧
    configInRange ready.cfg.lc ready.cfg.lp ready.cfg.pb = true := by decide

theorem witness_EosCodesTheMarker : afterMatch.phase = .coding ∧ afterMatch.sinkPlan = [] ∧
    afterMatch.es.state.toNat < 12 := by decide

theorem witness_FlushEndsTheStream : fresh.phase = .coding ∧ ended.phase = .ended ∧ fresh.sinkPlan = [] ∧
    ended.sinkPlan = [] := by decide

/-- One state codes the literal plainly, the other against its match byte, `state` at either side of 7. -/
theorem witness_LitCommitsItsByte :
    (oneByte.Inv ∧ oneByte.phase = .coding ∧ oneByte.sinkPlan = [] ∧ oneByte.es.state.toNat < 7) ∧
    (afterMatch.Inv ∧ afterMatch.phase = .coding ∧ afterMatch.sinkPlan = [] ∧ 7 ≤ afterMatch.es.state.toNat) :=
  ⟨⟨witness_oneByte_inv, by decide⟩, witness_afterMatch_inv, by decide⟩

/-- The distance is all that was committed. -/
theorem witness_ShortrepCopiesOneByte : oneByte.Inv ∧ oneByte.phase = .coding ∧ oneByte.sinkPlan = [] ∧
    oneByte.es.mru.rep0.toNat + 1 ≤ oneByte.es.totalPos.toNat ∧ oneByte.es.mru.rep0.toNat + 1 ≤ oneByte.dictEff.toNat :=
  ⟨witness_oneByte_inv, by decide +kernel⟩

/-- Every rep index, and the least and the greatest length. -/
theorem witness_RepCopiesAndRotates : oneByte.Inv ∧ oneByte.phase = .coding ∧ oneByte.sinkPlan = [] ∧
    (2 ≤ (2 : BitVec 9).toNat ∧ (273 : BitVec 9).toNat ≤ 273) ∧
    ∀ i : BitVec 2, (oneByte.es.mru.get i).toNat + 1 ≤ oneByte.es.totalPos.toNat ∧
      (oneByte.es.mru.get i).toNat + 1 ≤ oneByte.dictEff.toNat :=
  ⟨witness_oneByte_inv, by decide +kernel⟩

theorem witness_MatchCopiesAndPushes : oneByte.Inv ∧ oneByte.phase = .coding ∧ oneByte.sinkPlan = [] ∧
    (2 ≤ (2 : BitVec 9).toNat ∧ (273 : BitVec 9).toNat ≤ 273) ∧
    (0 : BitVec 32).toNat + 1 ≤ oneByte.es.totalPos.toNat ∧ (0 : BitVec 32).toNat + 1 ≤ oneByte.dictEff.toNat :=
  ⟨witness_oneByte_inv, by decide +kernel⟩

/-- The narrowest width and the least probability. -/
theorem witness_EncodeBitSplitsTheInterval : 2 ^ 24 ≤ (coderAt 0x01000000 0x1FFFFFFFF 31).rc.width.toNat ∧
    (coderAt 0x01000000 0x1FFFFFFFF 31).rc.low.toNat < 2 ^ 33 ∧ (coderAt 0x01000000 0x1FFFFFFFF 31).probs.wf = true ∧
    31 ≤ ((coderAt 0x01000000 0x1FFFFFFFF 31).probs.read .matchSwitch 0).toNat ∧
    ((coderAt 0x01000000 0x1FFFFFFFF 31).probs.read .matchSwitch 0).toNat ≤ 2017 := by decide +kernel

theorem witness_AdaptKeepsProbabilityBounds : (31 ≤ (31 : Prob).toNat ∧ (2017 : Prob).toNat ≤ 2017) ∧
    (2047 : Prob).toNat ≤ (2048 : Prob).toNat ∧ (2048 : Prob).toNat ≤ 2048 := by decide

theorem witness_CodingStepKeepsRange : Coder.initial.rc.sound ∧ Coder.initial.probs.inRange ∧
    Coder.initial.probs.wf = true := ⟨fresh_coder_sound, initial_inRange, rfl⟩

theorem witness_ShiftLowAddsOneDigit : 1 ≤ Coder.initial.rc.cacheSize.toNat ∧
    Coder.initial.rc.cacheSize.toNat < 2 ^ 64 - 1 := by decide

/-- A carry is due; a cache byte of 0xFF with none due. -/
theorem witness_ShiftLowKeepsTheNumber :
    (∀ c ∈ [(⟨⟨0x01000000, 0x1FFFFFFFF, 0xFE, 3⟩, ⟨.initial, []⟩, []⟩ : Coder),
        ⟨⟨0x01000000, 0xFFFFFFFF, 0xFF, 1⟩, ⟨.initial, []⟩, []⟩],
      1 ≤ c.rc.cacheSize.toNat ∧ c.rc.cacheSize.toNat < 2 ^ 64 - 1 ∧ c.rc.low.toNat < 2 ^ 33 ∧
      (c.rc.cache = 0xFF → c.rc.low.toNat < 2 ^ 32)) := by decide

theorem initial_carrySafe : Coder.initial.carrySafe :=
  ⟨fresh_coder_sound, initial_inRange, rfl, by decide, by decide⟩

/-- The range coder of CONFIG, and the 35 coding steps of a MATCH. -/
theorem witness_CodingNarrowsTheInterval : Coder.initial.carrySafe ∧
    Coder.initial.rc.cacheSize.toNat + (simpleMatchPath 0xFFFFFF 273 0 0).length < 2 ^ 64 - 1 :=
  ⟨initial_carrySafe, by decide +kernel⟩

theorem witness_FlushedStreamLiesInEveryInterval : Coder.initial.carrySafe ∧
    Coder.initial.rc.cacheSize.toNat + (simpleMatchPath 0xFFFFFF 273 0 0).length + (eosPath 7 0).length ≤ 2 ^ 63 :=
  ⟨initial_carrySafe, by decide +kernel⟩

/-- The least base of a reverse tree is the middle coder's for slot 4. -/
theorem witness_TreesStayInTheirNodes : (-1 : Int) ≤ (slotBase 4 : Int) - 4 - 1 ∧ 0 < footerBits 4 := by decide

/-- R97's example: `sym = 6`, `n = 4` codes bits 0, 1, 1, 0 through nodes 1, 2, 5, 11. -/
theorem test_reverse_tree : treeReverseEncode .alignCoder 0 4 6 =
    [.bit .alignCoder 1 false, .bit .alignCoder 2 true, .bit .alignCoder 5 true, .bit .alignCoder 11 false] ∧
    nodeAfter [false, true, true] = 11 := by decide +kernel

/-- The ends of the three sub-ranges (R100). -/
theorem witness_LengthCodingsAreDistinct : ∀ len ∈ [2, 9, 10, 17, 18, 273], 2 ≤ len ∧ len ≤ 273 := by decide

/-- The first and the last slot of each clause. -/
theorem witness_SlotsPartitionDistances : (0xFFFFFFFF : Nat) < 2 ^ 32 ∧ 3 < 4 ∧ (4 ≤ 4 ∧ 63 ≤ 63) ∧
    (slotBase 4 ≤ 4 ∧ 5 < slotBase 4 + 2 ^ footerBits 4) ∧
    (slotBase 63 ≤ 0xFFFFFFFF ∧ 0xFFFFFFFF < slotBase 63 + 2 ^ footerBits 63) := by decide +kernel

/-- The first and the last distance of each clause: slots 0 and 3, 4 and 13, 14 and 63. -/
theorem witness_DistanceCodedBySlotAndFooter :
    (∀ dist0 ∈ [0, 3, 4, 0x7F, 0x80, 0xFFFFFFFF], dist0 < 2 ^ 32) ∧ (2 ≤ 2 ∧ 273 ≤ 273) ∧
    [0, 3, 4, 0x7F, 0x80, 0xFFFFFFFF].map distSlot = [0, 3, 4, 13, 14, 63] := by decide +kernel

theorem witness_LiteralClusterInsideTable : 8 ≤ 8 ∧ 4 ≤ 4 ∧
    litIndex 8 4 15 0xFF + 0x2FF < 0x300 * 2 ^ (8 + 4) := by decide +kernel

theorem witness_CodingStaysInsideTables : afterMatch.Live ∧ (Instr.simpleMatch 0xFFFFFFFF 273).wellFormed = true ∧
    (Instr.lit 0).wellFormed = true := ⟨witness_afterMatch_inv.live rfl, by decide⟩

/-- An entry of each kind that R47 lists, with the standard configuration. -/
theorem witness_UnusedEntriesKeepTheirValue : oneByte.Live ∧
    (∃ t, exec .eos oneByte = .next t ∧ t.probs.background = .initial) ∧ isConfig .eos = false ∧
    (8 < (ProbTable.lowCoder .len).size 3 0 ∧ unusedEntry 2 (.lowCoder .len) 8) ∧
    (4 < ProbTable.matchSwitch.size 3 0 ∧ unusedEntry 2 .matchSwitch 4) ∧
    (114 < ProbTable.posCoder.size 3 0 ∧ unusedEntry 2 .posCoder 114) ∧
    (0x1600 < ProbTable.lit.size 3 0 ∧ unusedEntry 2 .lit 0x1600) :=
  ⟨witness_oneByte_inv.live rfl, ⟨_, rfl, by decide +kernel⟩, rfl, ⟨by decide, Or.inl rfl⟩,
    ⟨by decide, by show 2 ^ 2 ≤ 4 % 16; decide⟩, ⟨by decide, rfl⟩, ⟨by decide, Or.inr (Or.inl rfl)⟩⟩

theorem witness_BitsPerCommand : oneByte.Live ∧ oneByte.phase = .coding ∧ lengthInRange 2 = true ∧
    lengthInRange 273 = true ∧ histCheck (copyDistance 0) oneByte = true :=
  ⟨witness_oneByte_inv.live rfl, by decide +kernel⟩

/-- Each command in a phase that does not accept it (CONFIG has none), and in FAULT. -/
theorem witness_PhaseGatesEveryCommand :
    (∀ i ∈ [Instr.lit 0, .shortrep, .rep 0 2, .simpleMatch 0 2, .eos, .flush], ready.phase ∉ acceptedIn i) ∧
    (∀ i ∈ [Instr.setsize 0, .header], fresh.phase ∉ acceptedIn i ∧ faulted.phase ∉ acceptedIn i) := by decide

theorem witness_FaultPhaseDiscards : faulted.phase = .fault ∧
    ({ faulted with input := [.command 0xFF0000000000000000] }.input = .command 0xFF0000000000000000 :: [] ∧
      opField 0xFF0000000000000000 ≠ 0x01) ∧
    { faulted with input := [.observe 0 0] }.input = .observe 0 0 :: [] ∧
    ({ faulted with input := [.command 0x010000000000004000] }.input = .command 0x010000000000004000 :: [] ∧
      opField 0x010000000000004000 = 0x01 ∧ decode 0x010000000000004000 = .mustBeZero) := by decide

theorem witness_LengthOutOfRangeFaults : fresh.phase = .coding ∧ (1 : BitVec 9).toNat < 2 ∧ 273 < (274 : BitVec 9).toNat := by
  decide

/-- A distance one beyond what was committed, and one beyond the announced dictionary. -/
theorem witness_DistanceOutsideHistoryFaults : oneByte.phase = .coding ∧ oneByte.es.totalPos.toNat < (1 : BitVec 32).toNat + 1 ∧
    oneByte.dictEff.toNat < (0x10000 : BitVec 32).toNat + 1 ∧ fresh.phase = .coding ∧
    (∀ i, fresh.es.totalPos.toNat < (fresh.es.mru.get i).toNat + 1) ∧
    fresh.es.totalPos.toNat < fresh.es.mru.rep0.toNat + 1 := by decide +kernel

theorem shortrep_faults : step { fresh with input := [.command 0x110000000000000000] } =
    .next (faultRecorded .historyRange .shortrep fresh) := by
  rfl

theorem flush_discarded : step { faulted with input := [.command 0x150000000000000000] } = .next faulted := by
  rfl

/-- A fault that is raised, and a word that is discarded. -/
theorem witness_CheckFaultsArePrecise :
    (step { fresh with input := [.command 0x110000000000000000] } =
      .next (faultRecorded .historyRange .shortrep fresh) ∧
      (faultRecorded .historyRange .shortrep fresh).phase = .fault ∧
      (faultRecorded .historyRange .shortrep fresh).cause ≠ .sinkAborted) ∧
    (step { faulted with input := [.command 0x150000000000000000] } = .next faulted ∧ faulted.phase = .fault ∧
      faulted.cause ≠ .sinkAborted) := ⟨⟨shortrep_faults, by decide⟩, flush_discarded, by decide⟩

/-- A sink that takes all five header bytes, and one that takes four. -/
theorem witness_SinkAbortStopsBetweenBytes : ∃ t, ready.sinkPlan = [] ∧ exec .header ready = .next t ∧
    t.output = ready.output ++ [0x5D, 0, 0, 1, 0] ∧ 4 < [0x5D, 0, 0, 1, (0 : Byte)].length ∧
    [0x5D, 0, 0, 1, (0 : Byte)].length ≤ 5 :=
  ⟨_, rfl, rfl, by decide +kernel⟩

theorem witness_IdleAbort : { fresh with input := [.abort] }.input = .abort :: [] ∧ fresh.phase ≠ .fault ∧
    { faulted with input := [.abort] }.input = .abort :: [] ∧ faulted.phase = .fault := by decide

theorem witness_PhaseTransitions : ∃ t, exec .header ready = .next t ∧ t.phase = .coding := ⟨_, rfl, by decide⟩

/-- A command of each kind that the frames tell apart: one that stores, one that codes without storing, one that does
neither. -/
theorem witness_RegisterFrame :
    (∃ t, exec .eos fresh = .next t) ∧ (∃ t, exec (.setsize 1) ready = .next t) ∧
    (∃ t, exec (.lit 0x41) fresh = .next t) ∧ fresh.sinkPlan = [] ∧ ready.sinkPlan = [] ∧
    isConfig .eos = false ∧ storedBytes .eos = 0 ∧ storedBytes (.lit 0x41) = 1 :=
  ⟨⟨_, rfl⟩, ⟨_, rfl⟩, ⟨_, rfl⟩, by decide⟩

/-- LIT at the cursor 0: the next entry is outside the byte it stores. -/
theorem witness_HistoryFrame : (∃ t, exec (.lit 0x41) fresh = .next t) ∧ fresh.sinkPlan = [] ∧
    isConfig (.lit 0x41) = false ∧ fresh.es.r.toNat < fresh.histN.toNat ∧
    ∀ k, k < storedBytes (.lit 0x41) → 1 ≠ (fresh.es.r.toNat + k) % fresh.histN.toNat :=
  ⟨⟨_, rfl⟩, by decide +kernel⟩

/-- SHORTREP's faulting form codes nothing; EOS leaves the literal table alone. -/
theorem witness_ProbabilityFrame : (∃ t, exec .eos fresh = .next t) ∧ fresh.sinkPlan = [] ∧ isConfig .eos = false ∧
    (codingSteps .eos fresh).all (fun d => match d with
      | .bit table index _ => table.address index != ProbTable.lit.address 0
      | .direct _ => true) = true :=
  ⟨⟨_, rfl⟩, by decide +kernel⟩

theorem witness_OutputOnlyGrows : (∃ t, exec .header ready = .next t ∧ t.output = ready.output ++ [0x5D, 0, 0, 1, 0]) ∧
    ready.sinkPlan = [] ∧ isConfig .header = false ∧ step State.reset = .next State.reset :=
  ⟨⟨_, rfl, by decide +kernel⟩, by decide, by decide, rfl⟩

theorem witness_StepKeepsInvariant : oneByte.Inv ∧
    ∃ t, step { oneByte with input := [.command 0x140000000000000000] } = .next t :=
  ⟨witness_oneByte_inv, _, rfl⟩

theorem witness_InvariantStatesNeverStop : afterMatch.Inv ∧ State.reset.Inv :=
  ⟨witness_afterMatch_inv, witness_reset_inv⟩

/-- Both ends of the producer distance, and the first values outside. -/
theorem witness_PseudoInstructionsExpand : (1 ≤ 1 ∧ 2 ^ 32 ≤ 2 ^ 32) ∧ 2 ^ 32 < 2 ^ 32 + 1 ∧
    Pseudo.expand (.matchD (2 ^ 32) 2) = some [.simpleMatch 0xFFFFFFFF 2] := by decide +kernel

end Sys2Proof.Tests
end

section
/-! The dictionary sizes that CONFIG derives (R10, R11). -/

namespace Sys2Proof.Machine

/-! ### The least power of two -/

/-- The model's power of two is the library's upper logarithm, R10's `2^ceil(log2 d)`. -/
theorem powerOfTwoAtLeast_eq_two_pow_clog {d : Nat} (hd : 2 ≤ d) : powerOfTwoAtLeast d = 2 ^ Nat.clog 2 d := by
  have hlog : Nat.log 2 (d - 1) + 1 = Nat.clog 2 d := by
    refine eq_of_forall_ge_iff fun k => ?_
    rw [Nat.succ_le_iff, Nat.log_lt_iff_lt_pow Nat.one_lt_two (by omega), Nat.clog_le_iff_le_pow Nat.one_lt_two]
    omega
  rw [powerOfTwoAtLeast, Nat.log2_eq_log_two, hlog]

theorem exists_powerOfTwoAtLeast_eq (d : Nat) : ∃ k, powerOfTwoAtLeast d = 2 ^ k := ⟨_, rfl⟩

theorem le_powerOfTwoAtLeast {d : Nat} (hd : 2 ≤ d) : d ≤ powerOfTwoAtLeast d := by
  rw [powerOfTwoAtLeast_eq_two_pow_clog hd]
  exact Nat.le_pow_clog Nat.one_lt_two d

/-- No smaller power of two reaches `d`. -/
theorem powerOfTwoAtLeast_le {d k : Nat} (hd : 2 ≤ d) (hk : d ≤ 2 ^ k) : powerOfTwoAtLeast d ≤ 2 ^ k := by
  rw [powerOfTwoAtLeast_eq_two_pow_clog hd]
  exact Nat.pow_le_pow_right Nat.two_pos (Nat.clog_le_of_le_pow hk)

/-! ### The two sizes -/

theorem effectiveDict_unrounded (dictSize : BitVec 32) :
    effectiveDict dictSize false = min (max dictSize.toNat (2 ^ 12)) (2 ^ 25) := rfl

theorem effectiveDict_rounded (dictSize : BitVec 32) :
    effectiveDict dictSize true = powerOfTwoAtLeast (min (max dictSize.toNat (2 ^ 12)) (2 ^ 25)) := rfl

/-- Rounding up does not leave the range of the clamp, whose upper end is a power of two. -/
theorem effectiveDict_bounds (dictSize : BitVec 32) (roundPow2 : Bool) :
    2 ^ 12 ≤ effectiveDict dictSize roundPow2 ∧ effectiveDict dictSize roundPow2 ≤ 2 ^ 25 := by
  have hlow : 2 ^ 12 ≤ min (max dictSize.toNat (2 ^ 12)) (2 ^ 25) := by omega
  cases roundPow2 with
  | false => exact ⟨hlow, Nat.min_le_right _ _⟩
  | true =>
    rw [effectiveDict_rounded]
    exact ⟨hlow.trans (le_powerOfTwoAtLeast (by omega)), powerOfTwoAtLeast_le (by omega) (Nat.min_le_right _ _)⟩

theorem effectiveDict_le_historySize (dictSize : BitVec 32) (roundPow2 : Bool) :
    effectiveDict dictSize roundPow2 ≤ historySize dictSize roundPow2 :=
  le_powerOfTwoAtLeast (by have := effectiveDict_bounds dictSize roundPow2; omega)

theorem historySize_le_two_pow {dictSize : BitVec 32} {roundPow2 : Bool} {k : Nat}
    (hk : effectiveDict dictSize roundPow2 ≤ 2 ^ k) : historySize dictSize roundPow2 ≤ 2 ^ k :=
  powerOfTwoAtLeast_le (by have := effectiveDict_bounds dictSize roundPow2; omega) hk

/-- The bounds that R11 gives for `N`. -/
theorem historySize_bounds (dictSize : BitVec 32) (roundPow2 : Bool) :
    2 ^ 12 ≤ historySize dictSize roundPow2 ∧ historySize dictSize roundPow2 ≤ 2 ^ 25 := by
  obtain ⟨hlow, hhigh⟩ := effectiveDict_bounds dictSize roundPow2
  exact ⟨hlow.trans (effectiveDict_le_historySize _ _), historySize_le_two_pow hhigh⟩

/-! ### The registers that CONFIG leaves -/

theorem configured_dictEff_toNat (cfg : CfgRegs) (s : State) :
    (configured cfg s).dictEff.toNat = effectiveDict cfg.dictSize cfg.roundPow2 := by
  have hbounds := effectiveDict_bounds cfg.dictSize cfg.roundPow2
  rw [configured_dictEff, BitVec.toNat_ofNat, Nat.mod_eq_of_lt (by omega)]

theorem configured_histN_toNat (cfg : CfgRegs) (s : State) :
    (configured cfg s).histN.toNat = historySize cfg.dictSize cfg.roundPow2 := by
  have hbounds := historySize_bounds cfg.dictSize cfg.roundPow2
  rw [configured_histN, BitVec.toNat_ofNat, Nat.mod_eq_of_lt (by omega)]

/-- CONFIG with legal operands completes in every phase (R131). -/
theorem exec_config_of_inRange {lc lp pb : BitVec 4} (h : configInRange lc lp pb = true)
    (hdrSize roundPow2 : Bool) (dictSize : BitVec 32) (s : State) :
    exec (.config lc lp pb hdrSize roundPow2 dictSize) s =
      .next (configured ⟨lc, lp, pb, hdrSize, roundPow2, dictSize⟩ s) := by
  rw [exec_config, h, require_true]

/-- Settles O14: CONFIG leaves `effectiveDict` and `historySize` in the two registers, and `powerOfTwoAtLeast` is the
least power of two. -/
theorem configDerivesSizes : Obligations.ConfigDerivesSizes := by
  intro s t lc lp pb hdrSize roundPow2 dictSize hlc hlp hpb hexec
  rw [exec_config_of_inRange ((configInRange_iff lc lp pb).mpr ⟨hlc, hlp, hpb⟩)] at hexec
  obtain rfl := Host.Outcome.next.inj hexec
  rw [configured_dictEff_toNat, configured_histN_toNat]
  have hclamp : 2 ≤ min (max dictSize.toNat (2 ^ 12)) (2 ^ 25) := by omega
  refine ⟨?_, ?_, exists_powerOfTwoAtLeast_eq _, effectiveDict_le_historySize _ _, fun _ => historySize_le_two_pow,
    historySize_bounds _ _⟩
  · rintro rfl
    exact effectiveDict_unrounded dictSize
  · rintro rfl
    exact ⟨exists_powerOfTwoAtLeast_eq _, le_powerOfTwoAtLeast hclamp, fun _ => powerOfTwoAtLeast_le hclamp⟩

end Sys2Proof.Machine
end

section
/-! The range coder as a number (R32, R63, R90, R91): Shift_low multiplies it by 256, a coding step narrows its interval. -/

namespace Sys2Proof.Machine

/-! ### Digits as a number -/

/-- The number that base-256 digits stand for, most significant first (R63). -/
def digitsNumber (digits : List Nat) : Nat := digits.foldl (fun acc digit => 256 * acc + digit) 0

theorem digitsNumber_concat (digits : List Nat) (d : Nat) :
    digitsNumber (digits ++ [d]) = 256 * digitsNumber digits + d := by
  simp [digitsNumber, List.foldl_append]

/-- Appending 0xFF digits gives the last number before the next multiple. -/
theorem digitsNumber_replicate_255 (digits : List Nat) (n : Nat) :
    digitsNumber (digits ++ List.replicate n 0xFF) + 1 = (digitsNumber digits + 1) * 256 ^ n := by
  induction n with
  | zero => simp
  | succ n ih =>
    rw [List.replicate_succ', ← List.append_assoc, digitsNumber_concat, Nat.pow_succ, ← Nat.mul_assoc, ← ih]
    omega

theorem digitsNumber_replicate_zero (digits : List Nat) (n : Nat) :
    digitsNumber (digits ++ List.replicate n 0) = digitsNumber digits * 256 ^ n := by
  induction n with
  | zero => simp
  | succ n ih =>
    rw [List.replicate_succ', ← List.append_assoc, digitsNumber_concat, ih, Nat.pow_succ]
    ring

/-- The number of the bytes a coder has emitted (R63). -/
def Coder.emittedNumber (c : Coder) : Nat := digitsNumber (c.out.map BitVec.toNat)

/-- What the emitted bytes become when the cache and the pending bytes follow with a carry (R90). -/
def Coder.carriedNumber (c : Coder) : Nat :=
  (256 * c.emittedNumber + c.rc.cache.toNat + 1) * 256 ^ (c.rc.cacheSize.toNat - 1)

/-- The number of a coder (R32): the digits without a carry are one less than with it. -/
theorem Coder.value_add (c : Coder) : c.value + 2 ^ 32 = c.carriedNumber * 2 ^ 32 + c.rc.low.toNat := by
  have hdigits := digitsNumber_replicate_255 (c.out.map BitVec.toNat ++ [c.rc.cache.toNat]) (c.rc.cacheSize.toNat - 1)
  rw [digitsNumber_concat, List.append_assoc, List.singleton_append] at hdigits
  have hvalue : c.value = digitsNumber (c.out.map BitVec.toNat ++
      c.rc.cache.toNat :: List.replicate (c.rc.cacheSize.toNat - 1) 0xFF) * 2 ^ 32 + c.rc.low.toNat := rfl
  rw [hvalue, Coder.carriedNumber, Coder.emittedNumber, ← hdigits]
  omega

/-- The bytes that Shift_low emits carry into the number, unless the cache byte has no room for the carry (R90). -/
theorem digitsNumber_pending {rc : RangeCoder} {carry : Byte} (out : List Byte) (hsize : 1 ≤ rc.cacheSize.toNat)
    (hcarry : carry.toNat ≤ 1) (hcache : rc.cache.toNat + carry.toNat < 256) :
    digitsNumber ((out ++ rc.pending carry).map BitVec.toNat) + 1 =
      (256 * digitsNumber (out.map BitVec.toNat) + rc.cache.toNat + 1) * 256 ^ (rc.cacheSize.toNat - 1) +
        carry.toNat := by
  have hcount : (rc.cacheSize - 1).toNat = rc.cacheSize.toNat - 1 := by bv_omega
  have hhead : (rc.cache + carry).toNat = rc.cache.toNat + carry.toNat := by
    rw [BitVec.toNat_add, Nat.mod_eq_of_lt hcache]
  rw [RangeCoder.pending, hcount, List.map_append, List.map_cons, List.map_replicate, hhead,
    ← List.singleton_append, ← List.append_assoc]
  obtain h0 | h1 : carry.toNat = 0 ∨ carry.toNat = 1 := by omega
  · have hfill : (0xFF + carry).toNat = 0xFF := by bv_omega
    rw [hfill, digitsNumber_replicate_255, digitsNumber_concat, h0]
    rfl
  · have hfill : (0xFF + carry).toNat = 0 := by bv_omega
    rw [hfill, digitsNumber_replicate_zero, digitsNumber_concat, h1]
    rfl

/-! ### Shift_low -/

/-- `low` as the three parts that Shift_low takes it apart into (R90): the carry, the next digit, the window it keeps. -/
theorem low_parts (low : BitVec 64) (h : low.toNat < 2 ^ 33) :
    ((low.extractLsb' 32 32).setWidth 8).toNat = low.toNat / 2 ^ 32 ∧
    (((low.extractLsb' 0 32) >>> 24).setWidth 8).toNat = low.toNat % 2 ^ 32 / 2 ^ 24 ∧
    (low.extractLsb' 0 32 < (0xFF000000 : BitVec 32) ↔ low.toNat % 2 ^ 32 < 0xFF000000) ∧
    (low.extractLsb' 32 32 = (0 : BitVec 32) ↔ low.toNat < 2 ^ 32) := by
  have htop : (0xFF000000 : BitVec 32).toNat = 0xFF000000 := rfl
  have hzero : (0 : BitVec 32).toNat = 0 := rfl
  simp only [BitVec.toNat_setWidth, BitVec.extractLsb'_toNat, BitVec.toNat_ushiftRight, BitVec.lt_def, ← BitVec.toNat_inj,
    Nat.shiftRight_eq_div_pow, htop, hzero]
  omega

/-- `Shift_low` in plain numbers, from a `low` whose carry is 0 or 1 (R90). -/
theorem Coder.shiftLow_emits_or_defers {c : Coder} (hlow : c.rc.low.toNat < 2 ^ 33) :
    ((c.rc.low.toNat % 2 ^ 32 < 0xFF000000 ∨ 2 ^ 32 ≤ c.rc.low.toNat) ∧
      (∃ carry : Byte, carry.toNat = c.rc.low.toNat / 2 ^ 32 ∧ c.shiftLow.out = c.out ++ c.rc.pending carry) ∧
      c.shiftLow.rc.cache.toNat = c.rc.low.toNat % 2 ^ 32 / 2 ^ 24 ∧ c.shiftLow.rc.cacheSize = 1) ∨
    ((0xFF000000 ≤ c.rc.low.toNat ∧ c.rc.low.toNat < 2 ^ 32) ∧ c.shiftLow.out = c.out ∧
      c.shiftLow.rc.cache = c.rc.cache ∧ c.shiftLow.rc.cacheSize = c.rc.cacheSize + 1) := by
  obtain ⟨hcarry, hdigit, hsmall, htop⟩ := low_parts c.rc.low hlow
  rcases c.shiftLow_cases with ⟨hcond, heq⟩ | ⟨hbot, hzero, heq⟩
  · refine .inl ⟨?_, ⟨_, hcarry, by rw [heq]⟩, by rw [heq]; exact hdigit, by rw [heq]⟩
    rw [hsmall, ne_eq, htop] at hcond
    omega
  · rw [hsmall] at hbot
    rw [htop] at hzero
    exact .inr ⟨by omega, by rw [heq], by rw [heq], by rw [heq]⟩

theorem Coder.shiftLow_low_toNat (c : Coder) :
    c.shiftLow.rc.low.toNat = c.rc.low.toNat % 2 ^ 24 * 2 ^ 8 := by
  rw [Coder.shiftLow_low, shifted_low_toNat]

/-- A carry finds room in the cache byte (R91): none is due while that byte is 0xFF. -/
def RangeCoder.carryFits (rc : RangeCoder) : Prop :=
  rc.low.toNat < 2 ^ 33 ∧ (rc.cache = 0xFF → rc.low.toNat < 2 ^ 32)

theorem RangeCoder.carryFits.cache_add_carry {rc : RangeCoder} (h : rc.carryFits) :
    rc.cache.toNat + rc.low.toNat / 2 ^ 32 < 256 := by
  obtain ⟨hlow, hff⟩ := h
  by_cases hcache : rc.cache = 0xFF
  · have := hff hcache
    have := rc.cache.isLt
    omega
  · have : rc.cache.toNat ≠ 0xFF := fun h => hcache (BitVec.eq_of_toNat_eq h)
    have := rc.cache.isLt
    omega

/-- Shift_low loses nothing: it multiplies the number by 256 (R90, R63). -/
theorem Coder.shiftLow_value {c : Coder} (hsize : 1 ≤ c.rc.cacheSize.toNat)
    (hmax : c.rc.cacheSize.toNat < 2 ^ 64 - 1) (hfits : c.rc.carryFits) : c.shiftLow.value = 256 * c.value := by
  have hbefore := c.value_add
  have hafter := c.shiftLow.value_add
  rw [Coder.shiftLow_low_toNat] at hafter
  rcases Coder.shiftLow_emits_or_defers hfits.1 with ⟨-, ⟨carry, hcarry, hout⟩, hcache, hsize'⟩ |
    ⟨hlow, hout, hcache, hsize'⟩
  · have hroom := hfits.cache_add_carry
    have hlow := hfits.1
    have hemitted := digitsNumber_pending c.out hsize (carry := carry) (by omega) (by omega)
    have hnumber : c.shiftLow.emittedNumber + 1 = c.carriedNumber + c.rc.low.toNat / 2 ^ 32 := by
      rw [Coder.emittedNumber, hout, hemitted, hcarry]
      rfl
    rw [Coder.carriedNumber, hcache, hsize', show (1 : BitVec 64).toNat - 1 = 0 from rfl, Nat.pow_zero,
      Nat.mul_one] at hafter
    omega
  · have hgrown : (c.rc.cacheSize + 1).toNat - 1 = c.rc.cacheSize.toNat - 1 + 1 := by bv_omega
    have hcarried : c.shiftLow.carriedNumber = 256 * c.carriedNumber := by
      rw [Coder.carriedNumber, Coder.carriedNumber, Coder.emittedNumber, Coder.emittedNumber, hout, hcache, hsize',
        hgrown, Nat.pow_succ]
      ring
    omega

/-- Shift_low adds one digit, emitted or pending (R95). -/
theorem Coder.shiftLow_digits {c : Coder} (hsize : 1 ≤ c.rc.cacheSize.toNat)
    (hmax : c.rc.cacheSize.toNat < 2 ^ 64 - 1) : c.shiftLow.digits = c.digits + 1 := by
  have hcount : (c.rc.cacheSize - 1).toNat = c.rc.cacheSize.toNat - 1 := by bv_omega
  have hgrown : (c.rc.cacheSize + 1).toNat = c.rc.cacheSize.toNat + 1 := by bv_omega
  rcases c.shiftLow_cases with ⟨-, heq⟩ | ⟨-, -, heq⟩
  · have hone : (1 : BitVec 64).toNat = 1 := rfl
    simp only [heq, Coder.digits, RangeCoder.pending, List.length_append, List.length_cons, List.length_replicate,
      hcount, hone]
    omega
  · simp only [heq, Coder.digits, hgrown]
    omega

theorem Coder.shiftLow_cacheSize {c : Coder} (hmax : c.rc.cacheSize.toNat < 2 ^ 64 - 1) :
    1 ≤ c.shiftLow.rc.cacheSize.toNat ∧ c.shiftLow.rc.cacheSize.toNat ≤ c.rc.cacheSize.toNat + 1 := by
  rcases c.shiftLow_cases with ⟨-, heq⟩ | ⟨-, -, heq⟩
  · simp [heq]
  · have hgrown : (c.rc.cacheSize + 1).toNat = c.rc.cacheSize.toNat + 1 := by bv_omega
    simp only [heq, hgrown]
    omega

/-- After a Shift_low no carry is due. -/
theorem Coder.shiftLow_low_lt (c : Coder) : c.shiftLow.rc.low.toNat < 2 ^ 32 := by
  rw [Coder.shiftLow_low_toNat]
  omega

/-! ### The interval of a coding step (R86, R93) -/

/-- The interval ends below `2^33`, and below the carry while the cache byte has no room for one (R91). -/
def RangeCoder.intervalFits (rc : RangeCoder) : Prop :=
  rc.low.toNat + rc.width.toNat < 2 ^ 33 ∧ (rc.cache = 0xFF → rc.low.toNat + rc.width.toNat ≤ 2 ^ 32)

theorem RangeCoder.intervalFits.carryFits {rc : RangeCoder} (h : rc.intervalFits) (hwidth : 0 < rc.width.toNat) :
    rc.carryFits := by
  obtain ⟨hend, hff⟩ := h
  refine ⟨by omega, fun hcache => ?_⟩
  have := hff hcache
  omega

/-- `c'` is `c` once a coding step has chosen its part of the interval, before Normalize: no digit has moved, and what
is left is at least `2^16` wide, so that one Shift_low makes it wide enough again (R88, R89). -/
structure Coder.Selects (c c' : Coder) : Prop where
  wide : 2 ^ 16 ≤ c'.rc.width.toNat
  lower : c.rc.low.toNat ≤ c'.rc.low.toNat
  upper : c'.rc.low.toNat + c'.rc.width.toNat ≤ c.rc.low.toNat + c.rc.width.toNat
  cache : c'.rc.cache = c.rc.cache
  cacheSize : c'.rc.cacheSize = c.rc.cacheSize
  out : c'.out = c.out

/-- EncodeBit selects the part below or above the cut (R86). -/
theorem Coder.encodeBit_selects {c : Coder} (hsound : c.rc.sound) (hrange : c.probs.inRange) (t : ProbTable) (i : Nat)
    (b : Bool) : ∃ c', c.encodeBit t i b = c'.normalize ∧ c.Selects c' := by
  obtain ⟨hwidth, hend⟩ := hsound
  have hmin : widthMin.toNat = 2 ^ 24 := rfl
  have hprob := hrange (t.address i)
  simp only [probInRange, Bool.and_eq_true, decide_eq_true_eq] at hprob
  have hcut := bound_toNat c.rc.width (c.probs.read t i) (by omega) hprob.1 hprob.2
  have hbounds := cut_bounds c.rc.width.toNat (c.probs.read t i).toNat (by omega) c.rc.width.isLt hprob.1 hprob.2
  rw [← hcut] at hbounds
  cases b with
  | false =>
    refine ⟨⟨{ c.rc with width := bound c.rc.width (c.probs.read t i) },
      c.probs.write t i (adapt (c.probs.read t i) false), c.out⟩, rfl, ?_⟩
    exact { wide := by dsimp only; omega
            lower := Nat.le_refl _
            upper := by dsimp only; omega
            cache := rfl, cacheSize := rfl, out := rfl }
  | true =>
    have hwidth' : (c.rc.width - bound c.rc.width (c.probs.read t i)).toNat =
        c.rc.width.toNat - (bound c.rc.width (c.probs.read t i)).toNat :=
      BitVec.toNat_sub_of_le (BitVec.le_def.mpr (by omega))
    have hlow : (c.rc.low + (bound c.rc.width (c.probs.read t i)).setWidth 64).toNat =
        c.rc.low.toNat + (bound c.rc.width (c.probs.read t i)).toNat := by
      rw [BitVec.toNat_add, BitVec.toNat_setWidth]
      omega
    refine ⟨⟨{ c.rc with low := c.rc.low + (bound c.rc.width (c.probs.read t i)).setWidth 64,
                         width := c.rc.width - bound c.rc.width (c.probs.read t i) },
      c.probs.write t i (adapt (c.probs.read t i) true), c.out⟩, rfl, ?_⟩
    exact { wide := by dsimp only; omega
            lower := by dsimp only; omega
            upper := by dsimp only; omega
            cache := rfl, cacheSize := rfl, out := rfl }

/-- A direct bit selects the lower or the upper half (R93). -/
theorem Coder.encodeDirect_selects {c : Coder} (hsound : c.rc.sound) (b : Bool) :
    ∃ c', c.encodeDirect b = c'.normalize ∧ c.Selects c' := by
  obtain ⟨hwidth, hend⟩ := hsound
  have hmin : widthMin.toNat = 2 ^ 24 := rfl
  have hhalf : (c.rc.width >>> 1).toNat = c.rc.width.toNat / 2 := by simp [Nat.shiftRight_eq_div_pow]
  have hstep : ((c.rc.width >>> 1) &&& (0 - (BitVec.ofBool b).setWidth 32)).toNat =
      if b then c.rc.width.toNat / 2 else 0 := by
    cases b
    · simp
    · rw [show (0 - (BitVec.ofBool true).setWidth 32 : BitVec 32) = BitVec.allOnes 32 by decide, BitVec.and_allOnes, hhalf]
      rfl
  have hlow : (c.rc.low + ((c.rc.width >>> 1) &&& (0 - (BitVec.ofBool b).setWidth 32)).setWidth 64).toNat =
      c.rc.low.toNat + if b then c.rc.width.toNat / 2 else 0 := by
    rw [BitVec.toNat_add, BitVec.toNat_setWidth, hstep]
    split <;> omega
  refine ⟨_, rfl, ?_⟩
  exact { wide := by dsimp only; omega
          lower := by dsimp only; omega
          upper := by dsimp only; rw [hlow, hhalf]; split <;> omega
          cache := rfl, cacheSize := rfl, out := rfl }

theorem Coder.encode_selects {c : Coder} (hsound : c.rc.sound) (hrange : c.probs.inRange) (d : Decision) :
    ∃ c', c.encode d = c'.normalize ∧ c.Selects c' := by
  cases d with
  | bit t i b => exact Coder.encodeBit_selects hsound hrange t i b
  | direct b => exact Coder.encodeDirect_selects hsound b

/-! ### Normalize (R88) -/

/-- Normalize shifts once, and moves `width` up by a digit, or does nothing (R88). -/
theorem Coder.normalize_shifts_or_not (c : Coder) :
    (2 ^ 24 ≤ c.rc.width.toNat ∧ c.normalize = c) ∨
    (c.rc.width.toNat < 2 ^ 24 ∧ ∃ width : BitVec 32, width.toNat = 256 * c.rc.width.toNat ∧
      c.normalize = Coder.shiftLow { c with rc := { c.rc with width := width } }) := by
  have hmin : widthMin.toNat = 2 ^ 24 := rfl
  rcases c.normalize_cases with ⟨hwide, heq⟩ | ⟨hnarrow, heq⟩
  · rw [BitVec.lt_def] at hwide
    exact .inl ⟨by omega, heq⟩
  · rw [BitVec.lt_def] at hnarrow
    refine .inr ⟨by omega, _, ?_, heq⟩
    rw [BitVec.toNat_shiftLeft, Nat.shiftLeft_eq]
    omega

/-- Normalize restores `width ≥ WIDTH_MIN` and keeps the carry bound (R89, R91). -/
theorem Coder.normalize_sound {c : Coder} (hwide : 2 ^ 16 ≤ c.rc.width.toNat)
    (hend : c.rc.low.toNat + c.rc.width.toNat < 2 ^ 33) : c.normalize.rc.sound := by
  have hmin : widthMin.toNat = 2 ^ 24 := rfl
  rcases c.normalize_shifts_or_not with ⟨hw, heq⟩ | ⟨hw, width, hwidth, heq⟩
  · rw [heq]
    exact ⟨by omega, hend⟩
  · rw [heq, RangeCoder.sound, Coder.shiftLow_low_toNat, Coder.shiftLow_width]
    dsimp only
    omega

/-- Shift_low keeps room for a carry when the width moves up with `low`: either the digit that becomes the cache byte
is not 0xFF, or it is and the interval ended below the carry (R91). -/
theorem Coder.shiftLow_intervalFits {c : Coder} {width : BitVec 32}
    (hwidth : width.toNat = 256 * c.rc.width.toNat) (hfits : c.rc.intervalFits) :
    (Coder.shiftLow { c with rc := { c.rc with width := width } }).rc.intervalFits := by
  obtain ⟨hend, hff⟩ := hfits
  refine ⟨by rw [Coder.shiftLow_low_toNat, Coder.shiftLow_width]; dsimp only; omega, fun hcache => ?_⟩
  rw [Coder.shiftLow_low_toNat, Coder.shiftLow_width]
  dsimp only
  rcases Coder.shiftLow_emits_or_defers (c := { c with rc := { c.rc with width := width } })
    (by dsimp only; omega) with ⟨hemits, -, hcache', -⟩ | ⟨hdefers, -, hcache', -⟩
  · have hbyte : (0xFF : Byte).toNat = 0xFF := rfl
    rw [hcache, hbyte] at hcache'
    dsimp only at hemits hcache'
    omega
  · dsimp only at hdefers
    have := hff (hcache'.symm.trans hcache)
    omega

theorem Coder.normalize_intervalFits {c : Coder} (hfits : c.rc.intervalFits) : c.normalize.rc.intervalFits := by
  rcases c.normalize_shifts_or_not with ⟨-, heq⟩ | ⟨-, width, hwidth, heq⟩
  · rwa [heq]
  · rw [heq]
    exact Coder.shiftLow_intervalFits hwidth hfits

theorem Coder.normalize_cacheSize {c : Coder} (hsize : 1 ≤ c.rc.cacheSize.toNat)
    (hmax : c.rc.cacheSize.toNat < 2 ^ 64 - 1) :
    1 ≤ c.normalize.rc.cacheSize.toNat ∧ c.normalize.rc.cacheSize.toNat ≤ c.rc.cacheSize.toNat + 1 := by
  rcases c.normalize_shifts_or_not with ⟨-, heq⟩ | ⟨-, width, -, heq⟩ <;> rw [heq]
  · exact ⟨hsize, Nat.le_succ _⟩
  · exact Coder.shiftLow_cacheSize hmax

/-! ### Nested intervals -/

/-- The interval of `c'` lies in that of `c`, scaled by the digits produced between them (R32, R91). -/
structure Coder.Narrows (c c' : Coder) : Prop where
  digits : c.digits ≤ c'.digits
  lower : c.value * 256 ^ (c'.digits - c.digits) ≤ c'.value
  upper : c'.value + c'.rc.width.toNat ≤ (c.value + c.rc.width.toNat) * 256 ^ (c'.digits - c.digits)

theorem Coder.Narrows.refl (c : Coder) : c.Narrows c := ⟨Nat.le_refl _, by simp, by simp⟩

theorem Coder.Narrows.trans {a b c : Coder} (hab : a.Narrows b) (hbc : b.Narrows c) : a.Narrows c := by
  have hpow : 256 ^ (c.digits - a.digits) = 256 ^ (b.digits - a.digits) * 256 ^ (c.digits - b.digits) := by
    have := hab.digits
    have := hbc.digits
    rw [← Nat.pow_add]
    congr 1
    omega
  refine ⟨hab.digits.trans hbc.digits, ?_, ?_⟩
  · rw [hpow, ← Nat.mul_assoc]
    exact (Nat.mul_le_mul_right _ hab.lower).trans hbc.lower
  · rw [hpow, ← Nat.mul_assoc]
    exact hbc.upper.trans (Nat.mul_le_mul_right _ hab.upper)

theorem Coder.Selects.narrows {c c' : Coder} (h : c.Selects c') : c.Narrows c' := by
  have hdigits : c'.digits = c.digits := by rw [Coder.digits, Coder.digits, h.out, h.cacheSize]
  have hcarried : c'.carriedNumber = c.carriedNumber := by
    rw [Coder.carriedNumber, Coder.carriedNumber, Coder.emittedNumber, Coder.emittedNumber, h.out, h.cache, h.cacheSize]
  have hvalue := c.value_add
  have hvalue' := c'.value_add
  have hlower := h.lower
  have hupper := h.upper
  rw [hcarried] at hvalue'
  refine ⟨hdigits.ge, ?_, ?_⟩ <;> rw [hdigits, Nat.sub_self, Nat.pow_zero, Nat.mul_one] <;> omega

theorem Coder.normalize_narrows {c : Coder} (hsize : 1 ≤ c.rc.cacheSize.toNat)
    (hmax : c.rc.cacheSize.toNat < 2 ^ 64 - 1) (hfits : c.rc.carryFits) : c.Narrows c.normalize := by
  rcases c.normalize_shifts_or_not with ⟨-, heq⟩ | ⟨-, width, hwidth, heq⟩
  · rw [heq]
    exact .refl c
  · have hdigits : c.normalize.digits = c.digits + 1 := by rw [heq]; exact Coder.shiftLow_digits hsize hmax
    have hvalue : c.normalize.value = 256 * c.value := by rw [heq]; exact Coder.shiftLow_value hsize hmax hfits
    have hwidth' : c.normalize.rc.width.toNat = 256 * c.rc.width.toNat := by rw [heq, Coder.shiftLow_width, hwidth]
    refine ⟨by omega, ?_, ?_⟩ <;> rw [hdigits, Nat.add_sub_cancel_left, Nat.pow_one] <;> omega

/-! ### One coding step -/

/-- Every update of a probability in `[31, 2017]` stays there (R87). -/
theorem adapt_inRange {p : Prob} (b : Bool) (h : probInRange p = true) : probInRange (adapt p b) = true := by
  simp only [probInRange, Bool.and_eq_true, decide_eq_true_eq] at h ⊢
  rw [adapt_toNat p b (by omega)]
  split <;> omega

/-- A write of a probability in range keeps the file in range (R39). -/
theorem ProbFile.writeAt_inRange {f : ProbFile} (hwf : f.wf = true) (hrange : f.inRange) (a : Nat) {p : Prob}
    (hp : probInRange p = true) : (f.writeAt a p).inRange := by
  intro address
  by_cases h : address = a
  · rwa [h, ProbFile.readAt_writeAt_same hwf]
  · rw [ProbFile.readAt_writeAt_ne h]
    exact hrange address

theorem Coder.encode_inRange {c : Coder} (hwf : c.probs.wf = true) (hrange : c.probs.inRange) (d : Decision) :
    (c.encode d).probs.inRange := by
  cases d with
  | bit t i b =>
    rw [Coder.encode, Coder.encodeBit_probs]
    exact ProbFile.writeAt_inRange hwf hrange _ (adapt_inRange b (hrange _))
  | direct b => rwa [Coder.encode, Coder.encodeDirect_probs]

theorem Coder.encode_sound {c : Coder} (hsound : c.rc.sound) (hrange : c.probs.inRange) (d : Decision) :
    (c.encode d).rc.sound := by
  obtain ⟨c', heq, hselects⟩ := Coder.encode_selects hsound hrange d
  rw [heq]
  exact Coder.normalize_sound hselects.wide (hselects.upper.trans_lt hsound.2)

/-- A run of coding steps keeps the range coder sound and every probability in range (R87, R89, R91). -/
theorem Coder.run_sound {c : Coder} (hsound : c.rc.sound) (hwf : c.probs.wf = true) (hrange : c.probs.inRange)
    (path : List Decision) : (c.run path).rc.sound ∧ (c.run path).probs.wf = true ∧ (c.run path).probs.inRange :=
  Coder.run_induction (P := fun x => x.rc.sound ∧ x.probs.wf = true ∧ x.probs.inRange)
    (fun _ d ⟨hsound, hwf, hrange⟩ =>
      ⟨Coder.encode_sound hsound hrange d, Coder.encode_wf hwf d, Coder.encode_inRange hwf hrange d⟩)
    ⟨hsound, hwf, hrange⟩ path

theorem Coder.carrySafe.intervalFits {c : Coder} (h : c.carrySafe) : c.rc.intervalFits := by
  obtain ⟨hsound, -, -, -, hff⟩ := h
  exact ⟨hsound.2, hff⟩

theorem Coder.carrySafe.carryFits {c : Coder} (h : c.carrySafe) : c.rc.carryFits := by
  refine h.intervalFits.carryFits ?_
  have hmin : widthMin.toNat = 2 ^ 24 := rfl
  have hwidth := h.1.1
  omega

/-- One coding step loses no carry and narrows the interval (R86, R91, R93); `cache_size` grows by one at most. -/
theorem Coder.encode_carrySafe {c : Coder} (h : c.carrySafe) (hmax : c.rc.cacheSize.toNat < 2 ^ 64 - 1)
    (d : Decision) : (c.encode d).carrySafe ∧ c.Narrows (c.encode d) ∧
      (c.encode d).rc.cacheSize.toNat ≤ c.rc.cacheSize.toNat + 1 := by
  obtain ⟨hsound, hrange, hwf, hsize, hff⟩ := id h
  obtain ⟨c', heq, hsel⟩ := Coder.encode_selects hsound hrange d
  have hfits : c'.rc.intervalFits :=
    ⟨hsel.upper.trans_lt hsound.2, fun hcache => hsel.upper.trans (hff (hsel.cache ▸ hcache))⟩
  have hcarry := hfits.carryFits (by have := hsel.wide; omega)
  rw [← hsel.cacheSize] at hsize hmax ⊢
  have hsize' := Coder.normalize_cacheSize hsize hmax
  rw [← heq] at hsize'
  refine ⟨⟨Coder.encode_sound hsound hrange d, Coder.encode_inRange hwf hrange d, Coder.encode_wf hwf d, hsize'.1, ?_⟩,
    ?_, hsize'.2⟩ <;> rw [heq]
  · exact (Coder.normalize_intervalFits hfits).2
  · exact hsel.narrows.trans (Coder.normalize_narrows hsize hmax hcarry)

/-! ### A run -/

theorem Coder.run_carrySafe {c : Coder} {path : List Decision} (h : c.carrySafe)
    (hmax : c.rc.cacheSize.toNat + path.length < 2 ^ 64) : (c.run path).carrySafe ∧ c.Narrows (c.run path) ∧
      (c.run path).rc.cacheSize.toNat ≤ c.rc.cacheSize.toNat + path.length := by
  induction path generalizing c with
  | nil => exact ⟨h, .refl c, Nat.le_refl _⟩
  | cons d path ih =>
    rw [List.length_cons] at hmax ⊢
    obtain ⟨hsafe, hnarrows, hsize⟩ := Coder.encode_carrySafe h (by omega) d
    obtain ⟨hsafe', hnarrows', hsize'⟩ := ih hsafe (by omega)
    exact ⟨hsafe', hnarrows.trans hnarrows', by rw [Coder.run_cons]; omega⟩

/-- Settles O31: every coding step narrows the interval (`Coder.encode_carrySafe`), and narrowing is transitive. -/
theorem codingNarrowsTheInterval : Obligations.CodingNarrowsTheInterval := by
  intro c path hsafe hmax
  obtain ⟨hsafe', hnarrows, -⟩ := Coder.run_carrySafe hsafe (path := path) (by omega)
  exact ⟨hsafe', hnarrows.digits, hnarrows.lower, hnarrows.upper⟩

/-! ### Flush (R94) -/

/-- Five Shift_low leave nothing in `low` and a cache byte 0, whatever was there (R94). -/
theorem Coder.flush_rc (c : Coder) : c.flush.rc = ⟨c.rc.width, 0, 0, 1⟩ := by
  have hlow : c.shiftLow.shiftLow.shiftLow.shiftLow.rc.low = 0 := by
    have hzero : (0 : BitVec 64).toNat = 0 := rfl
    refine BitVec.eq_of_toNat_eq ?_
    simp only [Coder.shiftLow_low_toNat, hzero]
    omega
  rcases Coder.shiftLow_cases c.shiftLow.shiftLow.shiftLow.shiftLow with ⟨-, heq⟩ | ⟨hfull, -, -⟩
  · rw [Coder.flush, heq, hlow]
    simp
  · rw [hlow] at hfull
    exact absurd (by decide) hfull

/-- A Shift_low adds one digit and keeps the number, and the next one can follow at once (R90, R95). -/
theorem Coder.shiftLow_adds_digit {c : Coder} (hsize : 1 ≤ c.rc.cacheSize.toNat)
    (hmax : c.rc.cacheSize.toNat < 2 ^ 64 - 1) (hfits : c.rc.carryFits) :
    (c.shiftLow.digits = c.digits + 1 ∧ c.shiftLow.value = 256 * c.value) ∧
      (1 ≤ c.shiftLow.rc.cacheSize.toNat ∧ c.shiftLow.rc.cacheSize.toNat ≤ c.rc.cacheSize.toNat + 1) ∧
      c.shiftLow.rc.carryFits :=
  ⟨⟨Coder.shiftLow_digits hsize hmax, Coder.shiftLow_value hsize hmax hfits⟩, Coder.shiftLow_cacheSize hmax,
    c.shiftLow_low_lt.trans (by decide), fun _ => c.shiftLow_low_lt⟩

/-- Five Shift_low add five digits and keep the number (R94, R95). -/
theorem Coder.flush_value {c : Coder} (hsize : 1 ≤ c.rc.cacheSize.toNat) (hmax : c.rc.cacheSize.toNat + 5 < 2 ^ 64)
    (hfits : c.rc.carryFits) : c.flush.digits = c.digits + 5 ∧ c.flush.value = c.value * 256 ^ 5 := by
  obtain ⟨hnumber1, hsize1, hfits1⟩ := Coder.shiftLow_adds_digit hsize (by omega) hfits
  obtain ⟨hnumber2, hsize2, hfits2⟩ := Coder.shiftLow_adds_digit hsize1.1 (by omega) hfits1
  obtain ⟨hnumber3, hsize3, hfits3⟩ := Coder.shiftLow_adds_digit hsize2.1 (by omega) hfits2
  obtain ⟨hnumber4, hsize4, hfits4⟩ := Coder.shiftLow_adds_digit hsize3.1 (by omega) hfits3
  obtain ⟨hnumber5, -, -⟩ := Coder.shiftLow_adds_digit hsize4.1 (by omega) hfits4
  rw [Coder.flush]
  omega

/-- After Flush the emitted bytes are the whole number; only the cache byte 0 and an empty window follow them (R94). -/
theorem Coder.flush_value_eq_emitted (c : Coder) : c.flush.value = c.flush.emittedNumber * 256 * 2 ^ 32 := by
  have hvalue := c.flush.value_add
  have hcache : (0 : Byte).toNat = 0 := rfl
  have hsize : (1 : BitVec 64).toNat - 1 = 0 := rfl
  have hlow : (0 : BitVec 64).toNat = 0 := rfl
  rw [Coder.carriedNumber, Coder.flush_rc, hcache, hsize, hlow] at hvalue
  omega

theorem coderInitial_carrySafe : Coder.initial.carrySafe :=
  ⟨⟨by decide, by decide⟩, fun _ => rfl, rfl, by decide, by decide⟩

/-- Settles O32: the flush keeps the number, and the number of `path ++ rest` lies in the interval that `path` left. -/
theorem flushedStreamLiesInEveryInterval : Obligations.FlushedStreamLiesInEveryInterval := by
  refine ⟨coderInitial_carrySafe, fun c path rest hsafe hmax => ?_⟩
  obtain ⟨hsafeMid, -, hsizeMid⟩ := Coder.run_carrySafe hsafe (path := path) (by omega)
  obtain ⟨hsafeEnd, hnarrows, hsizeEnd⟩ := Coder.run_carrySafe hsafeMid (path := rest) (by omega)
  obtain ⟨hsound, -, -, hcached, -⟩ := id hsafeEnd
  obtain ⟨hdigits, hvalue⟩ := Coder.flush_value hcached (by omega) hsafeEnd.carryFits
  have hwidth : 0 < ((c.run path).run rest).rc.width.toNat := Nat.lt_of_lt_of_le (by decide) hsound.1
  have hle := hnarrows.digits
  have hpow : 256 ^ (((c.run path).run rest).flush.digits - (c.run path).digits) =
      256 ^ (((c.run path).run rest).digits - (c.run path).digits) * 256 ^ 5 := by
    rw [hdigits, ← Nat.pow_add]
    congr 1
    omega
  refine ⟨by omega, ?_, ?_, Coder.flush_value_eq_emitted _⟩
  · rw [hpow, hvalue, ← Nat.mul_assoc]
    exact Nat.mul_le_mul_right _ hnarrows.lower
  · rw [hpow, hvalue, ← Nat.mul_assoc]
    exact Nat.mul_lt_mul_of_pos_right (Nat.lt_of_lt_of_le (Nat.lt_add_of_pos_right hwidth) hnarrows.upper) (by decide)

end Sys2Proof.Machine
end

section
/-! What a command can do, said once: the inversion of exec (R149, R152, R158) that frames and invariant rest on. -/

namespace Sys2Proof.Machine

/-! ### Which phases accept a command (R151) -/

/-- SETSIZE and HEADER run in CONFIGURED only. -/
theorem setupAcceptance_phase {p : Phase} :
    (setupAcceptance p = .run → p = .configured) ∧ (setupAcceptance p = .discard → p = .fault) := by
  cases p <;> decide

/-- The tokens and EOS run in CODING only. -/
theorem codingAcceptance_phase {p : Phase} :
    (codingAcceptance p = .run → p = .coding) ∧ (codingAcceptance p = .discard → p = .fault) := by
  cases p <;> decide

/-- FLUSH runs in CODING and ENDED. -/
theorem flushAcceptance_phase {p : Phase} :
    (flushAcceptance p = .run → p = .coding ∨ p = .ended) ∧ (flushAcceptance p = .discard → p = .fault) := by
  cases p <;> decide

/-- Only phase FAULT discards (R155). -/
theorem phase_of_discard {i : Instr} {p : Phase} (h : acceptance i p = .discard) : p = .fault := by
  cases i with
  | config => cases h
  | setsize | header => exact setupAcceptance_phase.2 h
  | lit | shortrep | rep | simpleMatch | eos => exact codingAcceptance_phase.2 h
  | flush => exact flushAcceptance_phase.2 h

/-! ### Completion -/

/-- What the checks of a token command hand to its common body (R125): the coding steps, the FSM table, the MRU stack
after it, the source of its bytes. -/
structure TokenPlan where
  path : List Decision
  table : List (BitVec 4)
  mru : Mru
  src : Source

/-- The plan of a token command whose checks of length and history hold (R126 to R129). -/
inductive TokenPlan.IsFor (s : State) : Instr → TokenPlan → Prop
  | lit {byte : Byte} {path : List Decision} (hpath : litPath byte s = some path) :
      IsFor s (.lit byte) ⟨path, updateLiteral, s.es.mru, .literal byte⟩
  | shortrep (hdist : histCheck (copyDistance s.es.mru.rep0) s = true) :
      IsFor s .shortrep ⟨shortrepPath s.es.state s.es.posState, updateShortrep, s.es.mru,
        .copy (copyDistance s.es.mru.rep0) 1⟩
  | rep {index : BitVec 2} {len : BitVec 9} (hlen : lengthInRange len = true)
      (hdist : histCheck (copyDistance (s.es.mru.get index)) s = true) :
      IsFor s (.rep index len) ⟨repPath index len.toNat s.es.state s.es.posState, updateRep, s.es.mru.rotate index,
        .copy (copyDistance (s.es.mru.get index)) len.toNat⟩
  | simpleMatch {dist0 : BitVec 32} {len : BitVec 9} (hlen : lengthInRange len = true)
      (hdist : histCheck (copyDistance dist0) s = true) :
      IsFor s (.simpleMatch dist0 len) ⟨simpleMatchPath dist0.toNat len.toNat s.es.state s.es.posState, updateMatch,
        s.es.mru.push dist0, .copy (copyDistance dist0) len.toNat⟩

/-- The state to which a token commits its bytes: its steps coded, the FSM and the MRU stack updated (R125). -/
def State.beforeCommit (s : State) (plan : TokenPlan) (next : BitVec 4) : State :=
  { s.withCoder (s.coder.run plan.path) with es := { s.es with state := next, mru := plan.mru } }

/-- The state after Advance, where `b` is the last byte written (R124). -/
def State.advanced (s : State) (len : Nat) (b : Byte) : State :=
  { s with es := { s.es with
      totalPos := s.es.totalPos + BitVec.ofNat 64 len,
      posState := positionState s.cfg.pb (s.es.totalPos + BitVec.ofNat 64 len),
      prevByte := b } }

/-- `Completes s i bytes done`: command `i`, accepted in `s` and past its checks, emits `bytes` and leaves `done`, as
far as the sink lets it (R62, R158). CONFIG, which emits nothing, stands apart. -/
inductive Completes (s : State) : Instr → List Byte → State → Prop
  | setsize {size : BitVec 64} (hphase : s.phase = .configured) :
      Completes s (.setsize size) [] { s with sizeKnown := true, sizeValue := size }
  | header (hphase : s.phase = .configured) :
      Completes s .header (headerBytes s.cfg s.dictEff s.sizeValue) { s with phase := .coding }
  | token {i : Instr} {plan : TokenPlan} {next : BitVec 4} {s2 : State} {b : Byte} (hphase : s.phase = .coding)
      (hplan : plan.IsFor s i) (hnext : fsmNext plan.table s.es.state = some next)
      (hcommit : plan.src.commit (s.beforeCommit plan next) = some s2) (hlast : histRead 1 s2 = some b) :
      Completes s i (s.coder.run plan.path).out (s2.advanced plan.src.length b)
  | eos {next : BitVec 4} {coder : Coder} (hphase : s.phase = .coding)
      (hnext : fsmNext updateMatch s.es.state = some next)
      (hcoder : coder = s.coder.run (eosPath s.es.state s.es.posState)) :
      Completes s .eos coder.out { s.withCoder coder with es := { s.es with state := next }, phase := .ended }
  | flush {coder : Coder} (hphase : s.phase = .coding ∨ s.phase = .ended) (hcoder : coder = s.coder.flush) :
      Completes s .flush coder.out { s.withCoder coder with phase := .done }

/-- Every next state that a command can answer. -/
inductive ExecResult (s : State) (i : Instr) : State → Prop
  | discarded (hphase : s.phase = .fault) : ExecResult s i s
  | faulted {cause : Cause} (hcause : cause ≠ .none ∧ cause ≠ .sinkAborted) :
      ExecResult s i (raiseFault cause i.opcode i.argument s)
  | configured {cfg : CfgRegs} (hconfig : isConfig i = true) (hrange : configInRange cfg.lc cfg.lp cfg.pb = true) :
      ExecResult s i (configured cfg s)
  | completed {bytes : List Byte} {done : State} (hdone : Completes s i bytes done) :
      ExecResult s i (deliver i bytes done)

/-! ### The inversion -/

section
variable {s t : State} {i : Instr} {rest : Unit → Result}

theorem ExecResult.of_whenAccepted (h : whenAccepted i s rest = .next t)
    (hrun : acceptance i s.phase = .run → rest () = .next t → ExecResult s i t) : ExecResult s i t := by
  rcases whenAccepted_cases i s rest with ⟨haccept, heq⟩ | ⟨-, heq⟩ | ⟨hdiscard, heq⟩
  · exact hrun haccept (heq ▸ h)
  · obtain rfl := Host.Outcome.next.inj (heq.symm.trans h)
    exact .faulted (by decide)
  · obtain rfl := Host.Outcome.next.inj (heq.symm.trans h)
    exact .discarded (phase_of_discard hdiscard)

theorem ExecResult.of_require {holds : Bool} {cause : Cause} (hcause : cause ≠ .none ∧ cause ≠ .sinkAborted)
    (h : require holds cause i s rest = .next t) (hrun : holds = true → rest () = .next t → ExecResult s i t) :
    ExecResult s i t := by
  rcases require_cases holds cause i s rest with ⟨hholds, heq⟩ | ⟨-, heq⟩
  · exact hrun hholds (heq ▸ h)
  · obtain rfl := Host.Outcome.next.inj (heq.symm.trans h)
    exact .faulted hcause

theorem ExecResult.of_runToken {plan : TokenPlan} (hphase : s.phase = .coding) (hplan : plan.IsFor s i)
    (h : runToken i plan.path plan.table plan.mru plan.src s = .next t) : ExecResult s i t := by
  obtain ⟨next, s2, b, hnext, hcommit, hlast, rfl⟩ := runToken_next h
  exact .completed (.token hphase hplan hnext hcommit hlast)

end

/-- A command that emits nothing is as it was before the sink. -/
theorem deliver_nil (i : Instr) (done : State) : deliver i [] done = done := by
  simp [deliver]

/-- What exec answers is one of the four results. -/
theorem exec_result {i : Instr} {s t : State} (h : exec i s = .next t) : ExecResult s i t := by
  cases i with
  | config lc lp pb hdrSize roundPow2 dictSize =>
    rw [exec_config] at h
    refine .of_require (by decide) h fun hrange h => ?_
    obtain rfl := Host.Outcome.next.inj h
    exact .configured rfl hrange
  | setsize size =>
    rw [exec_setsize] at h
    refine .of_whenAccepted h fun haccept h => ?_
    obtain rfl := Host.Outcome.next.inj h
    rw [← deliver_nil (.setsize size) { s with sizeKnown := true, sizeValue := size }]
    exact .completed (.setsize (setupAcceptance_phase.1 haccept))
  | header =>
    rw [exec_header] at h
    refine .of_whenAccepted h fun haccept h => ?_
    obtain rfl := Host.Outcome.next.inj h
    exact .completed (.header (setupAcceptance_phase.1 haccept))
  | lit byte =>
    rw [exec_lit] at h
    refine .of_whenAccepted h fun haccept h => ?_
    cases hpath : litPath byte s with
    | none => simp [hpath] at h
    | some path =>
      simp only [hpath] at h
      exact .of_runToken (codingAcceptance_phase.1 haccept) (.lit hpath) h
  | shortrep =>
    rw [exec_shortrep] at h
    refine .of_whenAccepted h fun haccept h => .of_require (by decide) h fun hdist h => ?_
    exact .of_runToken (codingAcceptance_phase.1 haccept) (.shortrep hdist) h
  | rep index len =>
    rw [exec_rep] at h
    refine .of_whenAccepted h fun haccept h => .of_require (by decide) h fun hlen h =>
      .of_require (by decide) h fun hdist h => ?_
    exact .of_runToken (codingAcceptance_phase.1 haccept) (.rep hlen hdist) h
  | simpleMatch dist0 len =>
    rw [exec_simpleMatch] at h
    refine .of_whenAccepted h fun haccept h => .of_require (by decide) h fun hlen h =>
      .of_require (by decide) h fun hdist h => ?_
    exact .of_runToken (codingAcceptance_phase.1 haccept) (.simpleMatch hlen hdist) h
  | eos =>
    have hwhen := h
    rw [exec, execEos] at hwhen
    refine .of_whenAccepted hwhen fun haccept _ => ?_
    have hphase := codingAcceptance_phase.1 haccept
    cases hnext : fsmNext updateMatch s.es.state with
    | none => simp [exec, execEos, whenAccepted_run haccept, hnext] at h
    | some next =>
      rw [exec_eos hphase hnext] at h
      obtain rfl := Host.Outcome.next.inj h
      exact .completed (.eos hphase hnext rfl)
  | flush =>
    rw [exec_flush] at h
    refine .of_whenAccepted h fun haccept h => ?_
    obtain rfl := Host.Outcome.next.inj h
    exact .completed (.flush (flushAcceptance_phase.1 haccept) rfl)

/-! ### Facts about a token's plan -/

section
variable {s : State} {i : Instr} {plan : TokenPlan}

theorem TokenPlan.IsFor.storedBytes_eq (h : plan.IsFor s i) : storedBytes i = plan.src.length := by
  cases h <;> rfl

/-- A token commits 1 to 273 bytes (R124). -/
theorem TokenPlan.IsFor.length_bounds (h : plan.IsFor s i) : 1 ≤ plan.src.length ∧ plan.src.length ≤ 273 := by
  cases h with
  | lit | shortrep => exact ⟨Nat.le_refl 1, Nat.le_of_ble_eq_true rfl⟩
  | rep hlen | simpleMatch hlen =>
    rw [lengthInRange_iff] at hlen
    exact ⟨by dsimp only [Source.length]; omega, hlen.2⟩

theorem TokenPlan.IsFor.codingSteps_eq (h : plan.IsFor s i) : codingSteps i s = plan.path := by
  cases h with
  | lit hpath => rw [codingSteps, hpath]; rfl
  | shortrep | rep | simpleMatch => rfl

theorem TokenPlan.IsFor.wellFormed (h : plan.IsFor s i) : i.wellFormed = true := by
  cases h with
  | lit | shortrep => rfl
  | rep hlen | simpleMatch hlen => exact hlen

/-- Only REP and MATCH change the MRU stack (R123). -/
theorem TokenPlan.IsFor.mru_eq (h : plan.IsFor s i) (hrep : ∀ index len, i ≠ .rep index len)
    (hmatch : ∀ dist0 len, i ≠ .simpleMatch dist0 len) : plan.mru = s.es.mru := by
  cases h with
  | lit | shortrep => rfl
  | rep => exact absurd rfl (hrep _ _)
  | simpleMatch => exact absurd rfl (hmatch _ _)

/-- A copy's distance lies in what is committed and in the announced dictionary (R153). -/
theorem TokenPlan.IsFor.dist_bounds (h : plan.IsFor s i) {dist len : Nat} (hsrc : plan.src = .copy dist len) :
    1 ≤ dist ∧ dist ≤ s.es.totalPos.toNat ∧ dist ≤ s.dictEff.toNat := by
  cases h with
  | lit => cases hsrc
  | shortrep hdist | rep _ hdist | simpleMatch _ hdist =>
    injection hsrc with hdist'
    rw [histCheck_iff] at hdist
    rw [← hdist']
    exact ⟨Nat.le_add_left _ _, hdist⟩

theorem Mru.rotate_rep0 (m : Mru) (index : BitVec 2) : (m.rotate index).rep0 = m.get index := by
  unfold Mru.rotate Mru.get
  split
  · rfl
  · split
    · rfl
    · split <;> rfl

/-- A token that copies leaves its own distance in front of the MRU stack (R123). -/
theorem TokenPlan.IsFor.dist_eq (h : plan.IsFor s i) {dist len : Nat} (hsrc : plan.src = .copy dist len) :
    dist = copyDistance plan.mru.rep0 := by
  cases h with
  | lit => cases hsrc
  | shortrep | simpleMatch => injection hsrc with hdist; exact hdist.symm
  | rep => injection hsrc with hdist; rw [Mru.rotate_rep0, hdist]

/-- The FSM tables hold values 0 to 11, the one of LIT only values below 7 (R33, R120). -/
theorem TokenPlan.IsFor.next_bounds (h : plan.IsFor s i) {next : BitVec 4}
    (hnext : fsmNext plan.table s.es.state = some next) :
    next.toNat < 12 ∧ (7 ≤ next.toNat → ∃ dist len, plan.src = .copy dist len) := by
  have hmem : next ∈ plan.table := List.mem_of_getElem? hnext
  cases h with
  | lit =>
    have hlt : ∀ n ∈ updateLiteral, n.toNat < 7 := by decide
    exact ⟨(hlt next hmem).trans (by decide), fun hge => absurd (hlt next hmem) (Nat.not_lt.mpr hge)⟩
  | shortrep => exact ⟨(by decide : ∀ n ∈ updateShortrep, n.toNat < 12) next hmem, fun _ => ⟨_, _, rfl⟩⟩
  | rep => exact ⟨(by decide : ∀ n ∈ updateRep, n.toNat < 12) next hmem, fun _ => ⟨_, _, rfl⟩⟩
  | simpleMatch => exact ⟨(by decide : ∀ n ∈ updateMatch, n.toNat < 12) next hmem, fun _ => ⟨_, _, rfl⟩⟩

end

/-! ### What completion leaves unchanged -/

/-- A token changes the range coder, the memories and the encoder state, and of the latter its own six registers. -/
theorem State.advanced_of_commit {s s2 : State} {plan : TokenPlan} {next : BitVec 4} {len : Nat} {b : Byte}
    (h : plan.src.commit (s.beforeCommit plan next) = some s2) :
    ∃ hist r posState totalPos, s2.advanced len b = { s with
      rc := (s.coder.run plan.path).rc, probs := (s.coder.run plan.path).probs, hist := hist,
      es := ⟨next, posState, b, r, totalPos, plan.mru⟩ } := by
  obtain ⟨hist, r, rfl⟩ := Source.commit_frame h
  exact ⟨hist, r, _, _, rfl⟩

theorem Completes.samePorts {s done : State} {i : Instr} {bytes : List Byte} (h : Completes s i bytes done) :
    samePorts s done := by
  cases h with
  | setsize | header | eos | flush => exact ⟨rfl, rfl, rfl, rfl⟩
  | token _ _ _ hcommit =>
    obtain ⟨hist, r, posState, totalPos, heq⟩ := State.advanced_of_commit hcommit
    rw [heq]
    exact ⟨rfl, rfl, rfl, rfl⟩

/-- With a sink that does not abort a completing command leaves `done`, and its bytes on the output port. -/
theorem Completes.deliver_eq {s done : State} {i : Instr} {bytes : List Byte} (h : Completes s i bytes done)
    (hsink : s.sinkPlan = []) : deliver i bytes done =
      { done with output := done.output ++ bytes, outCount := done.outCount + BitVec.ofNat 64 bytes.length } := by
  obtain ⟨-, -, hplan, -⟩ := h.samePorts
  exact deliver_never (hplan.trans hsink) i bytes

theorem Completes.not_config {s done : State} {i : Instr} {bytes : List Byte} (h : Completes s i bytes done) :
    isConfig i = false := by
  cases h with
  | setsize | header | eos | flush => rfl
  | token _ hplan => cases hplan <;> rfl

/-! ### The phase (R25) -/

/-- The sink leaves the phase, or aborts the command (R158). -/
theorem deliver_phase (i : Instr) (bytes : List Byte) (done : State) :
    (deliver i bytes done).phase = done.phase ∨ (deliver i bytes done).phase = .fault := by
  rcases deliver_cases i bytes done with ⟨plan, -, heq⟩ | ⟨n, plan, -, -, heq⟩ <;> rw [heq]
  · exact .inl rfl
  · exact .inr rfl

/-- A token leaves the phase; HEADER, EOS and FLUSH set their own (R25). -/
theorem Completes.phase {s done : State} {i : Instr} {bytes : List Byte} (h : Completes s i bytes done) :
    done.phase = s.phase ∨ (i = .header ∧ s.phase = .configured ∧ done.phase = .coding) ∨
    (i = .eos ∧ s.phase = .coding ∧ done.phase = .ended) ∨
    (i = .flush ∧ (s.phase = .coding ∨ s.phase = .ended) ∧ done.phase = .done) := by
  cases h with
  | setsize => exact .inl rfl
  | header hphase => exact .inr (.inl ⟨rfl, hphase, rfl⟩)
  | eos hphase => exact .inr (.inr (.inl ⟨rfl, hphase, rfl⟩))
  | flush hphase => exact .inr (.inr (.inr ⟨rfl, hphase, rfl⟩))
  | token _ _ _ hcommit =>
    obtain ⟨hist, r, posState, totalPos, heq⟩ := State.advanced_of_commit hcommit
    exact .inl (by rw [heq])

/-- Settles O50, by the four results of a command. -/
theorem phaseTransitions : Obligations.PhaseTransitions := by
  intro i s t h
  cases exec_result h with
  | discarded => exact .inl rfl
  | faulted => exact .inr (.inl rfl)
  | configured hconfig => exact .inr (.inr (.inl ⟨hconfig, rfl⟩))
  | @completed bytes done hdone =>
    rcases deliver_phase i bytes done with hkept | hfault
    · rw [hkept]
      rcases hdone.phase with hsame | hset
      · exact .inl hsame
      · exact .inr (.inr (.inr hset))
    · exact .inr (.inl hfault)

/-! ### Registers (R29 to R38) -/

/-- What RegisterFrame says of a command `i` that leads from `s` to `t`. -/
def registersFramed (i : Instr) (s t : State) : Prop :=
  (t.cfg = s.cfg ∧ t.dictEff = s.dictEff ∧ t.histN = s.histN) ∧ samePorts s t ∧
  ((∀ size, i ≠ .setsize size) → t.sizeKnown = s.sizeKnown ∧ t.sizeValue = s.sizeValue) ∧
  ((i = .header ∨ ∃ size, i = .setsize size) → t.rc = s.rc) ∧
  (storedBytes i = 0 → i ≠ .eos → t.es.state = s.es.state) ∧
  (storedBytes i = 0 → t.es.posState = s.es.posState ∧ t.es.prevByte = s.es.prevByte ∧ t.es.r = s.es.r ∧
    t.es.totalPos = s.es.totalPos) ∧
  ((∀ index len, i ≠ .rep index len) → (∀ dist0 len, i ≠ .simpleMatch dist0 len) → t.es.mru = s.es.mru)

/-- The statement's frame holds where only the record, the phase, the memories and the output change. -/
theorem registersFramed_of_same {i : Instr} {s t : State} (hconfiguration : sameConfiguration s t)
    (hports : samePorts s t) (hrc : t.rc = s.rc) (hes : t.es = s.es) : registersFramed i s t := by
  obtain ⟨hcfg, hdict, hhist, hknown, hvalue⟩ := hconfiguration
  rw [registersFramed, hrc, hes]
  exact ⟨⟨hcfg, hdict, hhist⟩, hports, fun _ => ⟨hknown, hvalue⟩, fun _ => rfl, fun _ _ => rfl,
    fun _ => ⟨rfl, rfl, rfl, rfl⟩, fun _ _ => rfl⟩

theorem Completes.registersFramed {s done : State} {i : Instr} {bytes : List Byte} (h : Completes s i bytes done) :
    registersFramed i s done := by
  have hports := h.samePorts
  cases h with
  | setsize => exact ⟨⟨rfl, rfl, rfl⟩, hports, fun hne => absurd rfl (hne _), fun _ => rfl, fun _ _ => rfl,
      fun _ => ⟨rfl, rfl, rfl, rfl⟩, fun _ _ => rfl⟩
  | header => exact registersFramed_of_same ⟨rfl, rfl, rfl, rfl, rfl⟩ hports rfl rfl
  | eos => exact ⟨⟨rfl, rfl, rfl⟩, hports, fun _ => ⟨rfl, rfl⟩, by simp, fun _ hne => absurd rfl hne,
      fun _ => ⟨rfl, rfl, rfl, rfl⟩, fun _ _ => rfl⟩
  | flush => exact ⟨⟨rfl, rfl, rfl⟩, hports, fun _ => ⟨rfl, rfl⟩, by simp, fun _ _ => rfl,
      fun _ => ⟨rfl, rfl, rfl, rfl⟩, fun _ _ => rfl⟩
  | token _ hplan _ hcommit =>
    have hstores : storedBytes i ≠ 0 := by
      have := hplan.length_bounds
      rw [hplan.storedBytes_eq]
      omega
    have hcodes : ¬ (i = .header ∨ ∃ size, i = .setsize size) := by
      rintro (rfl | ⟨size, rfl⟩) <;> exact hstores rfl
    obtain ⟨hist, r, posState, totalPos, heq⟩ := State.advanced_of_commit hcommit
    rw [heq] at hports ⊢
    exact ⟨⟨rfl, rfl, rfl⟩, hports, fun _ => ⟨rfl, rfl⟩, fun hi => absurd hi hcodes, fun h0 => absurd h0 hstores,
      fun h0 => absurd h0 hstores, hplan.mru_eq⟩

/-- Settles O51, by the four results of a command. -/
theorem registerFrame : Obligations.RegisterFrame := by
  intro i s t h hsink hconfig
  cases exec_result h with
  | discarded => exact registersFramed_of_same ⟨rfl, rfl, rfl, rfl, rfl⟩ ⟨rfl, rfl, rfl, rfl⟩ rfl rfl
  | faulted => exact registersFramed_of_same ⟨rfl, rfl, rfl, rfl, rfl⟩ ⟨rfl, rfl, rfl, rfl⟩ rfl rfl
  | configured hconfig' => exact absurd (hconfig.symm.trans hconfig') Bool.false_ne_true
  | completed hdone =>
    rw [hdone.deliver_eq hsink]
    exact hdone.registersFramed

/-! ### The history (R48, R59) -/

/-- A token writes no entry but those from the cursor on (R130). -/
theorem Source.commit_read_ne {src : Source} {s t : State} (hc : src.commit s = some t)
    (h : s.es.r.toNat < s.histN.toNat) {a : Nat}
    (ha : ∀ k, k < src.length → a ≠ (s.es.r.toNat + k) % s.histN.toNat) : t.hist.read a = s.hist.read a := by
  cases src with
  | literal b =>
    obtain rfl := Option.some.inj hc
    have h0 := ha 0 Nat.one_pos
    rw [Nat.add_zero, Nat.mod_eq_of_lt h] at h0
    exact histWrite_read_ne b h0
  | copy dist len => exact histCopy_read_ne hc h ha

theorem Completes.hist_read_ne {s done : State} {i : Instr} {bytes : List Byte} (h : Completes s i bytes done)
    (hcursor : s.es.r.toNat < s.histN.toNat) {a : Nat}
    (ha : ∀ k, k < storedBytes i → a ≠ (s.es.r.toNat + k) % s.histN.toNat) : done.hist.read a = s.hist.read a := by
  cases h with
  | setsize | header | eos | flush => rfl
  | token _ hplan _ hcommit =>
    rw [hplan.storedBytes_eq] at ha
    exact Source.commit_read_ne (s := s.beforeCommit _ _) hcommit hcursor ha

/-- Settles O52, by the four results of a command. -/
theorem historyFrame : Obligations.HistoryFrame := by
  intro i s t h hsink hconfig hcursor a ha
  cases exec_result h with
  | discarded => rfl
  | faulted => rfl
  | configured hconfig' => exact absurd (hconfig.symm.trans hconfig') Bool.false_ne_true
  | completed hdone =>
    rw [hdone.deliver_eq hsink]
    exact hdone.hist_read_ne hcursor ha

/-! ### The probability file (R46, R86) -/

/-- Coding leaves every entry alone that no step addresses. -/
theorem Coder.run_readAt_ne {path : List Decision} {a : Nat}
    (ha : ∀ table index b, Decision.bit table index b ∈ path → table.address index ≠ a) (c : Coder) :
    (c.run path).probs.readAt a = c.probs.readAt a := by
  induction path generalizing c with
  | nil => rfl
  | cons d path ih =>
    rw [Coder.run_cons, ih fun table index b hmem => ha table index b (List.mem_cons_of_mem d hmem)]
    cases d with
    | bit t i b =>
      rw [Coder.encode, Coder.encodeBit_probs]
      exact ProbFile.readAt_writeAt_ne (ha t i b List.mem_cons_self).symm _
    | direct b => rw [Coder.encode, Coder.encodeDirect_probs]

theorem Completes.probs_readAt_ne {s done : State} {i : Instr} {bytes : List Byte} (h : Completes s i bytes done)
    {a : Nat} (ha : ∀ table index b, Decision.bit table index b ∈ codingSteps i s → table.address index ≠ a) :
    done.probs.readAt a = s.probs.readAt a := by
  cases h with
  | setsize | header => rfl
  | eos _ _ hcoder =>
    have hframe := Coder.run_readAt_ne (path := eosPath s.es.state s.es.posState) ha s.coder
    rw [← hcoder] at hframe
    exact hframe
  | flush _ hcoder =>
    have hframe := congrArg (ProbFile.readAt · a) (Coder.flush_probs s.coder)
    rw [← hcoder] at hframe
    exact hframe
  | token _ hplan _ hcommit =>
    obtain ⟨hist, r, posState, totalPos, heq⟩ := State.advanced_of_commit hcommit
    rw [hplan.codingSteps_eq] at ha
    rw [heq]
    exact Coder.run_readAt_ne ha s.coder

/-- Settles O53, by the four results of a command. -/
theorem probabilityFrame : Obligations.ProbabilityFrame := by
  intro i s t h hsink hconfig a ha
  cases exec_result h with
  | discarded => rfl
  | faulted => rfl
  | configured hconfig' => exact absurd (hconfig.symm.trans hconfig') Bool.false_ne_true
  | completed hdone =>
    rw [hdone.deliver_eq hsink]
    exact hdone.probs_readAt_ne ha

end Sys2Proof.Machine
end

section
/-! Where the coders walk (R98, R106, R117), and the entries that no coder uses (R47). -/

namespace Sys2Proof.Machine

/-! ### Nodes of the bit trees (R96, R97) -/

/-- The nodes that a walk of `n` bits from node `m` meets; for the root 1 they are `1 .. 2^n − 1`. -/
def nodeBelow (n m node : Nat) : Prop := m ≤ node ∧ 2 * node < (m + 1) * 2 ^ n

theorem nodeBelow_self (n m : Nat) : nodeBelow (n + 1) m m := by
  have hle : m + 1 ≤ (m + 1) * 2 ^ n := Nat.le_mul_of_pos_right _ (Nat.two_pow_pos n)
  refine ⟨Nat.le_refl m, ?_⟩
  rw [Nat.pow_succ, ← Nat.mul_assoc]
  omega

theorem nodeBelow_of_child {n m node : Nat} {b : Bool} (h : nodeBelow n (2 * m + b.toNat) node) :
    nodeBelow (n + 1) m node := by
  obtain ⟨hlow, hhigh⟩ := h
  have hb : b.toNat ≤ 1 := Bool.toNat_le b
  have hmul : (2 * m + b.toNat + 1) * 2 ^ n ≤ (m + 1) * 2 ^ (n + 1) := by
    rw [Nat.pow_succ, Nat.mul_comm (2 ^ n) 2, ← Nat.mul_assoc]
    exact Nat.mul_le_mul_right _ (by omega)
  exact ⟨by omega, by omega⟩

theorem nodeBelow_root {n node : Nat} (h : nodeBelow n 1 node) : 1 ≤ node ∧ node < 2 ^ n := by
  obtain ⟨hlow, hhigh⟩ := h
  exact ⟨hlow, by omega⟩

theorem mem_treeSteps {t : ProbTable} {base sym n m : Nat} {d : Decision} (h : d ∈ treeSteps t base sym n m) :
    ∃ node b, d = .bit t (base + node) b ∧ nodeBelow n m node := by
  induction n generalizing m with
  | zero => cases h
  | succ n ih =>
    rcases List.mem_cons.mp h with rfl | h
    · exact ⟨m, _, rfl, nodeBelow_self n m⟩
    · obtain ⟨node, b, rfl, hnode⟩ := ih h
      exact ⟨node, b, rfl, nodeBelow_of_child hnode⟩

theorem mem_treeReverseSteps {t : ProbTable} {base : Int} {n sym m : Nat} {d : Decision}
    (h : d ∈ treeReverseSteps t base n sym m) :
    ∃ (node : Nat) (b : Bool), d = .bit t (base + node).toNat b ∧ nodeBelow n m node := by
  induction n generalizing sym m with
  | zero => cases h
  | succ n ih =>
    rcases List.mem_cons.mp h with rfl | h
    · exact ⟨m, _, rfl, nodeBelow_self n m⟩
    · obtain ⟨node, b, rfl, hnode⟩ := ih h
      exact ⟨node, b, rfl, nodeBelow_of_child hnode⟩

/-! ### Paths that stay inside their tables -/

section
variable {lc lp pb : Nat}

theorem insideTables_nil : insideTables lc lp pb [] := fun _ _ _ h => by cases h

theorem insideTables_append {p q : List Decision} (hp : insideTables lc lp pb p) (hq : insideTables lc lp pb q) :
    insideTables lc lp pb (p ++ q) := fun t i b h =>
  (List.mem_append.mp h).elim (hp t i b) (hq t i b)

theorem insideTables_cons {t : ProbTable} {i : Nat} {b : Bool} {path : List Decision}
    (hhead : i < t.size lc lp ∧ ¬ unusedEntry pb t i) (htail : insideTables lc lp pb path) :
    insideTables lc lp pb (.bit t i b :: path) := by
  intro t' i' b' h
  rcases List.mem_cons.mp h with heq | h
  · cases heq
    exact hhead
  · exact htail t' i' b' h

/-- The forward tree stays inside a table whose entries `base + 1 .. base + 2^n − 1` are used (R98). -/
theorem insideTables_treeEncode {t : ProbTable} {base n : Nat} (sym : Nat)
    (h : ∀ node, 1 ≤ node → node < 2 ^ n → base + node < t.size lc lp ∧ ¬ unusedEntry pb t (base + node)) :
    insideTables lc lp pb (treeEncode t base n sym) := by
  intro t' i b hmem
  obtain ⟨node, b', heq, hnode⟩ := mem_treeSteps hmem
  cases heq
  exact h node (nodeBelow_root hnode).1 (nodeBelow_root hnode).2

theorem insideTables_treeReverseEncode {t : ProbTable} {base : Int} {n : Nat} (sym : Nat)
    (h : ∀ node : Nat, 1 ≤ node → node < 2 ^ n →
      (base + node).toNat < t.size lc lp ∧ ¬ unusedEntry pb t (base + node).toNat) :
    insideTables lc lp pb (treeReverseEncode t base n sym) := by
  intro t' i b hmem
  obtain ⟨node, b', heq, hnode⟩ := mem_treeReverseSteps hmem
  cases heq
  exact h node (nodeBelow_root hnode).1 (nodeBelow_root hnode).2

theorem insideTables_directBits (value nbits : Nat) : insideTables lc lp pb (directBits value nbits) := by
  induction nbits with
  | zero => exact insideTables_nil
  | succ nbits ih =>
    intro t i b h
    rcases List.mem_cons.mp h with heq | h
    · cases heq
    · exact ih t i b h

/-! ### Lengths and distances (R101, R106, R107) -/

theorem insideTables_lenEncode (c : LenSet) (len : Nat) {ps : Nat} (hps : ps < 2 ^ pb) (hpb : ps < 16) :
    insideTables lc lp pb (lenEncode c len ps) := by
  have hchoice1 : 0 < (ProbTable.choice1 c).size lc lp ∧ ¬ unusedEntry pb (.choice1 c) 0 := ⟨Nat.one_pos, id⟩
  have hchoice2 : 0 < (ProbTable.choice2 c).size lc lp ∧ ¬ unusedEntry pb (.choice2 c) 0 := ⟨Nat.one_pos, id⟩
  have hrow (node : Nat) (h1 : 1 ≤ node) (h8 : node < 2 ^ 3) :
      8 * ps + node < 128 ∧ ¬ ((8 * ps + node) % 8 = 0 ∨ 2 ^ pb ≤ (8 * ps + node) / 8) := by
    generalize 2 ^ pb = rows at hps ⊢
    omega
  unfold lenEncode
  dsimp only
  split
  · exact insideTables_cons hchoice1 (insideTables_treeEncode _ hrow)
  · split
    · exact insideTables_cons hchoice1 (insideTables_cons hchoice2 (insideTables_treeEncode _ hrow))
    · refine insideTables_cons hchoice1 (insideTables_cons hchoice2 (insideTables_treeEncode _ fun node h1 h256 => ?_))
      have : (2 : Nat) ^ lenHighBits = 256 := rfl
      change 0 + node < 256 ∧ ¬ 0 + node = 0
      omega

/-- The middle slots' reverse trees lie side by side in `pos_coder`, below its last entry (R106). -/
theorem posCoder_trees : ∀ slot : Nat, slot < 14 → 4 ≤ slot →
    (-1 : Int) ≤ (slotBase slot : Int) - slot - 1 ∧
      ((slotBase slot : Int) - slot - 1) + (2 ^ footerBits slot : Nat) ≤ 114 := by decide

theorem insideTables_distFooter (dist0 slot : Nat) : insideTables lc lp pb (distFooter dist0 slot) := by
  unfold distFooter
  split
  · rename_i hmodel
    dsimp only
    split
    · rename_i hend
      refine insideTables_treeReverseEncode _ fun node h1 hnode => ?_
      have htree := posCoder_trees slot hend hmodel
      generalize (slotBase slot : Int) - slot - 1 = base at htree ⊢
      change (base + node).toNat < 115 ∧ ¬ (base + node).toNat = 114
      omega
    · refine insideTables_append (insideTables_directBits _ _)
        (insideTables_treeReverseEncode _ fun node h1 hnode => ?_)
      change (0 + (node : Int)).toNat < 16 ∧ ¬ (0 + (node : Int)).toNat = 0
      have : (2 : Nat) ^ alignBits = 16 := rfl
      omega
  · exact insideTables_nil

theorem insideTables_distEncode (dist0 len : Nat) : insideTables lc lp pb (distEncode dist0 len) := by
  refine insideTables_append (insideTables_treeEncode _ fun node h1 hnode => ?_) (insideTables_distFooter _ _)
  have hrow : lenState len ≤ 3 := Nat.min_le_right _ _
  have : (2 : Nat) ^ distSlotBits = 64 := rfl
  change 64 * lenState len + node < 256 ∧ ¬ (64 * lenState len + node) % 64 = 0
  omega

/-! ### Literals (R111, R113, R115) -/

/-- One step of a literal walk: the node is the walked bits of the byte below its leading 1, in one of the three parts
of the cluster. -/
theorem literalEntry_used {idx size offset node : Nat} (hidx : idx % 0x300 = 0) (hsize : idx + 0x2FF < size)
    (hoffset : offset = 0 ∨ offset = 0x100 ∨ offset = 0x200) (hnode : 1 ≤ node ∧ node < 0x100) :
    idx + (offset + node) < size ∧ ¬ ((idx + (offset + node)) % 0x300 = 0 ∨
      (idx + (offset + node)) % 0x300 = 0x100 ∨ (idx + (offset + node)) % 0x300 = 0x200) := by
  omega

/-- The guard of the literal loops bounds the walked bits, and shifting keeps the leading 1. -/
theorem symb_bounds {symb : BitVec 32} (hlow : 0x100 ≤ symb.toNat) (hguard : symb < 0x10000) :
    (1 ≤ (symb >>> 8).toNat ∧ (symb >>> 8).toNat < 0x100) ∧ 0x100 ≤ (symb <<< 1).toNat := by
  have hlimit : (0x10000 : BitVec 32).toNat = 0x10000 := rfl
  rw [BitVec.lt_def, hlimit] at hguard
  rw [BitVec.toNat_ushiftRight, Nat.shiftRight_eq_div_pow, BitVec.toNat_shiftLeft, Nat.shiftLeft_eq]
  omega

theorem symb_start (byte : Byte) : 0x100 ≤ (0x100 ||| byte.setWidth 32 : BitVec 32).toNat := by
  rw [BitVec.toNat_or]
  exact Nat.left_le_or

/-- The only bit of the matched walk's offset is bit 8, which a mask keeps or clears (R115). -/
theorem masked_offset {offs : BitVec 32} (h : offs = 0 ∨ offs = 0x100) (x : BitVec 32) :
    offs &&& x = 0 ∨ offs &&& x = 0x100 := by
  rcases h with rfl | rfl
  · exact .inl BitVec.zero_and
  · have hbit : (0x100 : BitVec 32) = BitVec.twoPow 32 8 := rfl
    rw [hbit, BitVec.twoPow_and]
    split
    · exact .inr rfl
    · exact .inl rfl

/-- Masked with the match byte's bit the offset selects one of the three parts of a cluster (R115). -/
theorem matched_offset {offs : BitVec 32} (h : offs = 0 ∨ offs = 0x100) (x : BitVec 32) :
    (offs + (x &&& offs)).toNat = 0 ∨ (offs + (x &&& offs)).toNat = 0x100 ∨
      (offs + (x &&& offs)).toNat = 0x200 := by
  have hmask := masked_offset h x
  rw [BitVec.and_comm] at hmask
  rcases h with rfl | rfl
  · simp
  · rcases hmask with hmask | hmask <;> rw [hmask] <;> decide

section
variable {idx : Nat} (hidx : idx % 0x300 = 0) (hsize : idx + 0x2FF < ProbTable.lit.size lc lp)
include hidx hsize

theorem insideTables_litPlainSteps (rounds : Nat) {symb : BitVec 32} (hsymb : 0x100 ≤ symb.toNat) :
    insideTables lc lp pb (litPlainSteps idx rounds symb) := by
  induction rounds generalizing symb with
  | zero => exact insideTables_nil
  | succ rounds ih =>
    unfold litPlainSteps
    split
    · rename_i hguard
      obtain ⟨hnode, hnext⟩ := symb_bounds hsymb hguard
      have hentry := literalEntry_used hidx hsize (.inl rfl) hnode
      rw [Nat.zero_add] at hentry
      exact insideTables_cons hentry (ih hnext)
    · exact insideTables_nil

theorem insideTables_litMatchedSteps (rounds : Nat) {symb matchBits offs : BitVec 32} (hsymb : 0x100 ≤ symb.toNat)
    (hoffs : offs = 0 ∨ offs = 0x100) :
    insideTables lc lp pb (litMatchedSteps idx rounds symb matchBits offs) := by
  induction rounds generalizing symb matchBits offs with
  | zero => exact insideTables_nil
  | succ rounds ih =>
    unfold litMatchedSteps
    split
    · rename_i hguard
      obtain ⟨hnode, hnext⟩ := symb_bounds hsymb hguard
      have hoffset := matched_offset hoffs (matchBits <<< 1)
      have hentry := literalEntry_used hidx hsize hoffset hnode
      have hsum : (offs + ((matchBits <<< 1) &&& offs) + symb >>> 8).toNat =
          (offs + ((matchBits <<< 1) &&& offs)).toNat + (symb >>> 8).toNat := by
        rw [BitVec.toNat_add, Nat.mod_eq_of_lt (by omega)]
      rw [← hsum] at hentry
      exact insideTables_cons hentry (ih hnext (masked_offset hoffs _))
    · exact insideTables_nil

theorem insideTables_litPlain (byte : Byte) : insideTables lc lp pb (litPlain idx byte) :=
  insideTables_litPlainSteps hidx hsize 8 (symb_start byte)

theorem insideTables_litMatched (byte bMatch : Byte) : insideTables lc lp pb (litMatched idx byte bMatch) :=
  insideTables_litMatchedSteps hidx hsize 8 (symb_start byte) (.inr rfl)

end

/-- The cluster of a literal lies inside the literal table (R111). -/
theorem litIndex_bounds (totalPos : BitVec 64) (prevByte : Byte) (hlc : lc ≤ 8) :
    litIndex lc lp totalPos prevByte % 0x300 = 0 ∧
      litIndex lc lp totalPos prevByte + 0x2FF < ProbTable.lit.size lc lp := by
  have hpos : totalPos.toNat &&& ((1 <<< lp) - 1) < 2 ^ lp := by
    rw [Nat.one_shiftLeft, Nat.and_two_pow_sub_one_eq_mod]
    exact Nat.mod_lt _ (Nat.two_pow_pos lp)
  have hhigh : (totalPos.toNat &&& ((1 <<< lp) - 1)) <<< lc < 2 ^ (lc + lp) := by
    rw [Nat.shiftLeft_eq, Nat.add_comm, Nat.pow_add]
    exact Nat.mul_lt_mul_of_pos_right hpos (Nat.two_pow_pos lc)
  have hlow : prevByte.toNat >>> (8 - lc) < 2 ^ (lc + lp) := by
    have hbyte : prevByte.toNat < 2 ^ lc * 2 ^ (8 - lc) := by
      rw [← Nat.pow_add, Nat.add_sub_cancel' hlc]
      exact prevByte.isLt
    rw [Nat.shiftRight_eq_div_pow]
    exact (Nat.div_lt_of_lt_mul (Nat.mul_comm _ _ ▸ hbyte)).trans_le
      (Nat.pow_le_pow_right Nat.two_pos (Nat.le_add_right lc lp))
  have hctx : litContext lc lp totalPos prevByte < 2 ^ (lc + lp) := Nat.or_lt_two_pow hhigh hlow
  have hsize : ProbTable.lit.size lc lp = 0x300 * 2 ^ (lc + lp) := rfl
  have hindex : litIndex lc lp totalPos prevByte = 0x300 * litContext lc lp totalPos prevByte := rfl
  omega

/-! ### Switch bits (R122) -/

section
variable {st ps : BitVec 4} (hst : st.toNat < 12) (hps : ps.toNat < 2 ^ pb)
include hst hps

theorem switchIndex_used : switchIndex st ps < 192 ∧ ¬ 2 ^ pb ≤ switchIndex st ps % 16 := by
  have := ps.isLt
  have hmod : (16 * st.toNat + ps.toNat) % 16 = ps.toNat := by omega
  rw [switchIndex, hmod]
  exact ⟨by omega, Nat.not_le.mpr hps⟩

theorem insideTables_repSwitch : insideTables lc lp pb (repSwitch st ps) :=
  insideTables_cons (switchIndex_used hst hps) (insideTables_cons ⟨hst, id⟩ insideTables_nil)

theorem insideTables_shortrepPath : insideTables lc lp pb (shortrepPath st ps) :=
  insideTables_append (insideTables_repSwitch hst hps)
    (insideTables_cons ⟨hst, id⟩ (insideTables_cons (switchIndex_used hst hps) insideTables_nil))

theorem insideTables_repIndexBits (i : BitVec 2) : insideTables lc lp pb (repIndexBits i st ps) := by
  unfold repIndexBits
  split
  · exact insideTables_cons ⟨hst, id⟩ (insideTables_cons (switchIndex_used hst hps) insideTables_nil)
  · split
    · exact insideTables_cons ⟨hst, id⟩ (insideTables_cons ⟨hst, id⟩ insideTables_nil)
    · exact insideTables_cons ⟨hst, id⟩ (insideTables_cons ⟨hst, id⟩ (insideTables_cons ⟨hst, id⟩ insideTables_nil))

theorem insideTables_repPath (i : BitVec 2) (len : Nat) : insideTables lc lp pb (repPath i len st ps) :=
  insideTables_append (insideTables_append (insideTables_repSwitch hst hps) (insideTables_repIndexBits hst hps i))
    (insideTables_lenEncode _ _ hps ps.isLt)

theorem insideTables_simpleMatchPath (dist0 len : Nat) : insideTables lc lp pb (simpleMatchPath dist0 len st ps) :=
  insideTables_append (insideTables_append
    (insideTables_cons (switchIndex_used hst hps) (insideTables_cons ⟨hst, id⟩ insideTables_nil))
    (insideTables_lenEncode _ _ hps ps.isLt)) (insideTables_distEncode _ _)

end
end

/-! ### Commands -/

theorem State.Live.config_bounds {s : State} (h : s.Live) :
    s.cfg.lc.toNat ≤ 8 ∧ s.cfg.lp.toNat ≤ 4 ∧ s.cfg.pb.toNat ≤ 4 := (configInRange_iff _ _ _).mp h.config

/-- The position state of a running invocation selects a used row (R34, R47). -/
theorem State.Live.posState_lt {s : State} (h : s.Live) : s.es.posState.toNat < 2 ^ s.cfg.pb.toNat := by
  obtain ⟨-, -, hpb⟩ := h.config_bounds
  rw [h.position, positionState_toNat _ _ hpb]
  exact Nat.mod_lt _ (Nat.two_pow_pos _)

theorem insideTables_litPath {s : State} (h : s.Live) {byte : Byte} {path : List Decision}
    (hpath : litPath byte s = some path) :
    insideTables s.cfg.lc.toNat s.cfg.lp.toNat s.cfg.pb.toNat path := by
  obtain ⟨hlc, -, -⟩ := h.config_bounds
  obtain ⟨hidx, hsize⟩ := litIndex_bounds (lp := s.cfg.lp.toNat) s.es.totalPos s.es.prevByte hlc
  have hswitch := switchIndex_used h.fsm h.posState_lt
  unfold litPath at hpath
  split at hpath
  · obtain rfl := Option.some.inj hpath
    exact insideTables_cons hswitch (insideTables_litPlain hidx hsize byte)
  · split at hpath
    · cases hpath
    · obtain rfl := Option.some.inj hpath
      exact insideTables_cons hswitch (insideTables_litMatched hidx hsize byte _)

/-- Every coding step of a command in a running invocation addresses a used entry of its table (R47, R98, R106, R117). -/
theorem codingSteps_insideTables {s : State} (h : s.Live) (i : Instr) :
    insideTables s.cfg.lc.toNat s.cfg.lp.toNat s.cfg.pb.toNat (codingSteps i s) := by
  have hps := h.posState_lt
  cases i with
  | config | setsize | header | flush => exact insideTables_nil
  | lit byte =>
    cases hpath : litPath byte s with
    | none => rw [codingSteps, hpath]; exact insideTables_nil
    | some path => rw [codingSteps, hpath]; exact insideTables_litPath h hpath
  | shortrep => exact insideTables_shortrepPath h.fsm hps
  | rep index len => exact insideTables_repPath h.fsm hps _ _
  | simpleMatch dist0 len => exact insideTables_simpleMatchPath h.fsm hps _ _
  | eos => exact insideTables_simpleMatchPath h.fsm hps _ _

/-! ### Entries keep apart (R52) -/

theorem ProbTable.number_injective {t t' : ProbTable} (h : t.number = t'.number) : t = t' := by
  have heq := tableNumbered_number t
  rw [h, tableNumbered_number t'] at heq
  exact (Option.some.inj heq).symm

/-- An index of a table fits the index field of an observation address (R52). -/
theorem ProbTable.size_lt {lc lp : Nat} (hlc : lc ≤ 8) (hlp : lp ≤ 4) (t : ProbTable) : t.size lc lp < 2 ^ 24 := by
  have hpow : 2 ^ (lc + lp) ≤ 2 ^ 12 := Nat.pow_le_pow_right Nat.two_pos (by omega)
  cases t <;> simp only [ProbTable.size, clusterSize] <;> omega

/-- No two entries of the tables share an address (R52). -/
theorem ProbTable.address_injective {lc lp : Nat} (hlc : lc ≤ 8) (hlp : lp ≤ 4) {t t' : ProbTable} {i i' : Nat}
    (hi : i < t.size lc lp) (hi' : i' < t'.size lc lp) (h : t.address i = t'.address i') : t = t' ∧ i = i' := by
  have hfield := window_fields (n := t.number) (hi.trans (t.size_lt hlc hlp))
  have hfield' := window_fields (n := t'.number) (hi'.trans (t'.size_lt hlc hlp))
  rw [ProbTable.address, ProbTable.address] at h
  rw [h] at hfield
  exact ⟨ProbTable.number_injective (hfield.1.symm.trans hfield'.1), hfield.2.symm.trans hfield'.2⟩

/-- An aborted command leaves the file unspecified; otherwise the sink does not reach it (R158). -/
theorem deliver_probs (i : Instr) (bytes : List Byte) (done : State) :
    (deliver i bytes done).probs = done.probs ∨ (deliver i bytes done).probs.background ≠ .initial := by
  rcases deliver_cases i bytes done with ⟨plan, -, heq⟩ | ⟨n, plan, -, -, heq⟩ <;> rw [heq]
  · exact .inl rfl
  · exact .inr (by simp)

/-- Settles O41: no coding step of a command addresses an unused entry, and what no step addresses stays. -/
theorem unusedEntriesKeepTheirValue : Obligations.UnusedEntriesKeepTheirValue := by
  intro i s t hlive h hconfig hbackground table index hindex hunused
  obtain ⟨hlc, hlp, -⟩ := hlive.config_bounds
  cases exec_result h with
  | discarded => rfl
  | faulted => rfl
  | configured hconfig' => exact absurd (hconfig.symm.trans hconfig') Bool.false_ne_true
  | @completed bytes done hdone =>
    have hprobs := (deliver_probs i bytes done).resolve_right (not_not_intro hbackground)
    rw [hprobs]
    refine hdone.probs_readAt_ne fun table' index' b hmem haddress => ?_
    obtain ⟨hindex', hused⟩ := codingSteps_insideTables hlive i table' index' b hmem
    obtain ⟨rfl, rfl⟩ := ProbTable.address_injective hlc hlp hindex' hindex haddress
    exact hused hunused

end Sys2Proof.Machine
end

section
/-! The invariant of the machine (R49): reset meets it, every step keeps it. -/

namespace Sys2Proof.Machine

/-! ### What the invariant looks at -/

theorem State.HistorySound.congr {s t : State} (h : s.HistorySound) (hr : t.es.r = s.es.r)
    (hpos : t.es.totalPos = s.es.totalPos) (hprev : t.es.prevByte = s.es.prevByte) (hN : t.histN = s.histN)
    (hhist : t.hist = s.hist) : t.HistorySound := by
  have hread (dist : Nat) : histRead dist t = histRead dist s := by rw [histRead, histRead, hr, hN, hhist]
  refine ⟨?_, ?_, ?_, ?_⟩
  · rw [hr, hpos, hN]
    exact h.cursor
  · rw [hhist, hN]
    exact h.inside
  · intro dist
    rw [hpos, hN, hread]
    exact h.written dist
  · rw [hpos, hread, hprev]
    exact h.last

/-- A running invocation stays sound when neither its registers nor its memories change and no phase is entered from
which a LIT may come. -/
theorem State.Live.congr {s t : State} (h : s.Live)
    (hregs : t.cfg = s.cfg ∧ t.dictEff = s.dictEff ∧ t.histN = s.histN ∧ t.rc = s.rc ∧ t.es = s.es)
    (hmem : t.probs = s.probs ∧ t.hist = s.hist)
    (hphase : t.phase = .configured ∨ t.phase = .coding → s.phase = .configured ∨ s.phase = .coding) : t.Live := by
  obtain ⟨hcfg, hdict, hN, hrc, hes⟩ := hregs
  obtain ⟨hprobs, hhist⟩ := hmem
  exact
    { config := by rw [hcfg]; exact h.config
      sizes := by rw [State.sizesSound, hdict, hN]; exact h.sizes
      initial := by rw [hprobs, hhist]; exact h.initial
      probs := by rw [hprobs]; exact h.probs
      coder := by rw [hrc]; exact h.coder
      fsm := by rw [hes]; exact h.fsm
      position := by rw [hes, hcfg]; exact h.position
      history := h.history.congr (by rw [hes]) (by rw [hes]) (by rw [hes]) hN hhist
      matched := fun hp => by rw [histRead, hes, hN, hhist]; exact h.matched (hphase hp) }

theorem Memory.wf_iff (s : State) : Memory.wf s = true ↔ s.probs.wf = true ∧ s.hist.wf = true := by
  rw [Memory.wf, Bool.and_eq_true]

/-- Recording a fault keeps the invariant: nothing is asked of the registers in phase FAULT (R149). -/
theorem State.Inv.raiseFault {s : State} {cause : Cause} (hwf : Memory.wf s = true) (hcause : cause ≠ .none)
    (op : Opcode) (arg : Argument) : (raiseFault cause op arg s).Inv where
  canonical := hwf
  recorded := iff_of_true rfl hcause
  live h := by cases h

/-- What crosses the ports the invariant does not look at. -/
theorem State.Inv.congr_ports {s t : State} (h : s.Inv) (hrecord : t.phase = s.phase ∧ t.cause = s.cause)
    (hregs : t.cfg = s.cfg ∧ t.dictEff = s.dictEff ∧ t.histN = s.histN ∧ t.rc = s.rc ∧ t.es = s.es)
    (hmem : t.probs = s.probs ∧ t.hist = s.hist) : t.Inv := by
  obtain ⟨hphase, hcause⟩ := hrecord
  refine ⟨?_, ?_, ?_⟩
  · rw [Memory.wf, hmem.1, hmem.2]
    exact h.canonical
  · rw [hphase, hcause]
    exact h.recorded
  · rw [hphase]
    exact fun hlive => (h.live hlive).congr hregs hmem (by rw [hphase]; exact id)

theorem State.Inv.taken {s : State} (h : s.Inv) : s.taken.Inv :=
  h.congr_ports ⟨rfl, rfl⟩ ⟨rfl, rfl, rfl, rfl, rfl⟩ ⟨rfl, rfl⟩

/-- The sink takes the bytes and leaves the rest, or aborts the command, and its memories are empty lists (R158). -/
theorem State.Inv.deliver {done : State} (h : done.Inv) (i : Instr) (bytes : List Byte) : (deliver i bytes done).Inv := by
  rcases deliver_cases i bytes done with ⟨plan, -, heq⟩ | ⟨n, plan, -, -, heq⟩ <;> rw [heq]
  · exact h.congr_ports ⟨rfl, rfl⟩ ⟨rfl, rfl, rfl, rfl, rfl⟩ ⟨rfl, rfl⟩
  · exact State.Inv.raiseFault rfl (by decide) _ _

/-! ### CONFIG (R131) -/

theorem configured_sizesSound (cfg : CfgRegs) (s : State) : (configured cfg s).sizesSound := by
  obtain ⟨k, hk⟩ := exists_powerOfTwoAtLeast_eq (effectiveDict cfg.dictSize cfg.roundPow2)
  have hN : historySize cfg.dictSize cfg.roundPow2 = 2 ^ k := hk
  obtain ⟨hlow, hhigh⟩ := historySize_bounds cfg.dictSize cfg.roundPow2
  rw [State.sizesSound, configured_dictEff_toNat, configured_histN_toNat]
  rw [hN] at hlow hhigh
  exact ⟨(effectiveDict_bounds _ _).1, effectiveDict_le_historySize _ _, k,
    (Nat.pow_le_pow_iff_right Nat.one_lt_two).mp hlow, (Nat.pow_le_pow_iff_right Nat.one_lt_two).mp hhigh, hN⟩

theorem configured_historySound (cfg : CfgRegs) (s : State) : (configured cfg s).HistorySound where
  cursor := (Nat.zero_mod _).symm
  inside a h := by cases h
  written dist h1 h0 := absurd (h1.trans h0) (by decide : ¬ 1 ≤ EncoderState.initial.totalPos.toNat)
  last h := absurd h (by decide : ¬ 1 ≤ EncoderState.initial.totalPos.toNat)

theorem rangeCoderInitial_sound : RangeCoder.initial.sound := ⟨by decide, by decide⟩

theorem positionState_zero {pb : BitVec 4} (h : pb.toNat ≤ 4) : positionState pb 0 = 0 := by
  refine BitVec.eq_of_toNat_eq ?_
  rw [positionState_toNat _ _ h]
  exact Nat.zero_mod _

theorem configured_live {cfg : CfgRegs} (h : configInRange cfg.lc cfg.lp cfg.pb = true) (s : State) :
    (configured cfg s).Live where
  config := h
  sizes := configured_sizesSound cfg s
  initial := ⟨rfl, rfl⟩
  probs := fun _ => rfl
  coder := rangeCoderInitial_sound
  fsm := (by decide : EncoderState.initial.state.toNat < 12)
  position := (positionState_zero ((configInRange_iff _ _ _).mp h).2.2).symm
  history := configured_historySound cfg s
  matched _ h7 := absurd h7 (by decide : ¬ 7 ≤ EncoderState.initial.state.toNat)

theorem configured_inv {cfg : CfgRegs} (h : configInRange cfg.lc cfg.lp cfg.pb = true) (s : State) :
    (configured cfg s).Inv where
  canonical := rfl
  recorded := iff_of_false (fun hphase => by cases hphase) (not_not_intro rfl)
  live _ := configured_live h s

/-! ### Tokens (R124, R125) -/

theorem histCopy_background {dist len : Nat} {s t : State} (h : histCopy dist len s = some t) :
    t.hist.background = s.hist.background := by
  induction len generalizing s with
  | zero =>
    obtain rfl := Option.some.inj h
    rfl
  | succ k ih =>
    simp only [histCopy] at h
    split at h
    · cases h
    · rw [ih h, histWrite_hist, History.write_background]

theorem Source.commit_background {src : Source} {s t : State} (h : src.commit s = some t) :
    t.hist.background = s.hist.background := by
  cases src with
  | literal b =>
    obtain rfl := Option.some.inj h
    rfl
  | copy dist len => exact histCopy_background h

/-- After a token every byte up to `dist` is written, old or new, for a distance that lay in what was committed. -/
theorem Source.commit_written {src : Source} {s t : State} (hs : s.sizesSound) (hh : s.HistorySound)
    (hc : src.commit s = some t) (hl : src.length ≤ 273)
    (hsrc : ∀ dist len, src = .copy dist len → 1 ≤ dist ∧ dist ≤ s.histN.toNat) {d : Nat} (h1 : 1 ≤ d)
    (hpos : d ≤ s.es.totalPos.toNat) (hN : d ≤ s.histN.toNat) : (histRead d t).isSome = true := by
  have hcursor := hh.cursor_lt hs
  obtain ⟨hmin, hdict, -⟩ := hs
  have hfour : minDict = 4096 := rfl
  obtain ⟨-, hold, -⟩ := Source.commit_facts hc hcursor (by omega)
  by_cases hnew : d ≤ src.length
  · exact Source.commit_new hc hcursor (by omega) hsrc d h1 hnew
  · have hshift := hold (d - src.length) (by omega) (by omega)
    rw [Nat.sub_add_cancel (by omega)] at hshift
    rw [hshift]
    exact hh.written _ (by omega) (by omega) (by omega)

section
variable {s s2 : State} {i : Instr} {plan : TokenPlan} {next : BitVec 4} {b : Byte}

theorem TokenPlan.IsFor.src_bounds (hlive : s.Live) (hplan : plan.IsFor s i) {dist len : Nat}
    (hsrc : plan.src = .copy dist len) : 1 ≤ dist ∧ dist ≤ s.histN.toNat := by
  obtain ⟨h1, -, hdict⟩ := hplan.dist_bounds hsrc
  exact ⟨h1, hdict.trans hlive.sizes.2.1⟩

/-- A token leaves the invocation sound (R49): its coding keeps the range coder and the file, its FSM entry is one of the
table, its bytes extend the history, and a `state` of 7 or more follows a copy, whose distance is then in front of the
stack (R114). -/
theorem State.Live.after_token (hlive : s.Live) (hprobs : s.probs.wf = true) (hplan : plan.IsFor s i)
    (hnext : fsmNext plan.table s.es.state = some next)
    (hcommit : plan.src.commit (s.beforeCommit plan next) = some s2) (hlast : histRead 1 s2 = some b) :
    (s2.advanced plan.src.length b).Live := by
  have hbefore : (s.beforeCommit plan next).HistorySound := hlive.history.congr rfl rfl rfl rfl rfl
  have hsizes : (s.beforeCommit plan next).sizesSound := hlive.sizes
  have hsrc (dist len : Nat) (h : plan.src = .copy dist len) := hplan.src_bounds hlive h
  obtain ⟨hlen1, hlen⟩ := hplan.length_bounds
  obtain ⟨hfsm, hcopy⟩ := hplan.next_bounds hnext
  obtain ⟨hsound, -, hrange⟩ := Coder.run_sound (c := s.coder) hlive.coder hprobs hlive.probs plan.path
  have hhistory := State.HistorySound.after_token hsizes hbefore hcommit hlen1 hlen hsrc b hlast
    (positionState s2.cfg.pb (s2.es.totalPos + BitVec.ofNat 64 plan.src.length))
  have hback := Source.commit_background hcommit
  have hwritten {d : Nat} := Source.commit_written (d := d) hsizes hbefore hcommit hlen hsrc
  obtain ⟨hist, r, rfl⟩ := Source.commit_frame hcommit
  exact
    { config := hlive.config
      sizes := hlive.sizes
      initial := ⟨(Coder.run_background _ _).trans hlive.initial.1, hback.trans hlive.initial.2⟩
      probs := hrange
      coder := hsound
      fsm := hfsm
      position := rfl
      history := hhistory
      matched := fun _ h7 => by
        obtain ⟨dist, len, h⟩ := hcopy h7
        obtain ⟨h1, hpos, -⟩ := hplan.dist_bounds h
        have hread := hwritten h1 hpos (hsrc _ _ h).2
        rw [hplan.dist_eq h] at hread
        exact hread }

end

/-! ### Every command -/

/-- EOS keeps the invocation sound; no LIT follows it (R134). -/
theorem State.Live.after_eos {s : State} (hlive : s.Live) (hprobs : s.probs.wf = true) {next : BitVec 4}
    (hnext : fsmNext updateMatch s.es.state = some next) {coder : Coder} {path : List Decision}
    (hcoder : coder = s.coder.run path) :
    State.Live { s.withCoder coder with es := { s.es with state := next }, phase := .ended } := by
  subst hcoder
  obtain ⟨hsound, -, hrange⟩ := Coder.run_sound (c := s.coder) hlive.coder hprobs hlive.probs path
  have hfsm : ∀ n ∈ updateMatch, n.toNat < 12 := by decide
  exact
    { config := hlive.config
      sizes := hlive.sizes
      initial := ⟨(Coder.run_background _ _).trans hlive.initial.1, hlive.initial.2⟩
      probs := hrange
      coder := hsound
      fsm := hfsm next (List.mem_of_getElem? hnext)
      position := hlive.position
      history := hlive.history.congr rfl rfl rfl rfl rfl
      matched := by rintro (h | h) <;> cases h }

/-- FLUSH leaves `width` and empties `low`, so the coder stays sound; no LIT follows it (R94, R135). -/
theorem State.Live.after_flush {s : State} (hlive : s.Live) {coder : Coder} (hcoder : coder = s.coder.flush) :
    State.Live { s.withCoder coder with phase := .done } := by
  have hsound : coder.rc.sound := by
    have hlow : (0 : BitVec 64).toNat = 0 := rfl
    have hwidth := s.rc.width.isLt
    rw [hcoder, Coder.flush_rc, RangeCoder.sound, hlow]
    exact ⟨hlive.coder.1, by rw [coder_rc]; omega⟩
  have hfile : coder.probs = s.probs := by rw [hcoder, Coder.flush_probs, coder_probs]
  exact
    { config := hlive.config
      sizes := hlive.sizes
      initial := ⟨(congrArg ProbFile.background hfile).trans hlive.initial.1, hlive.initial.2⟩
      probs := by rw [withCoder_probs, hfile]; exact hlive.probs
      coder := hsound
      fsm := hlive.fsm
      position := hlive.position
      history := hlive.history.congr rfl rfl rfl rfl rfl
      matched := by rintro (h | h) <;> cases h }

/-- Completion keeps the canonical form of both memories. -/
theorem Completes.wf {s done : State} {i : Instr} {bytes : List Byte} (h : Completes s i bytes done)
    (hwf : Memory.wf s = true) : Memory.wf done = true := by
  rw [Memory.wf_iff] at hwf ⊢
  obtain ⟨hprobs, hhist⟩ := hwf
  cases h with
  | setsize | header => exact ⟨hprobs, hhist⟩
  | eos _ _ hcoder =>
    have hrun := Coder.run_wf (c := s.coder) hprobs (eosPath s.es.state s.es.posState)
    rw [← hcoder] at hrun
    exact ⟨hrun, hhist⟩
  | flush _ hcoder =>
    have hflush : s.coder.flush.probs.wf = true := by rw [Coder.flush_probs]; exact hprobs
    rw [← hcoder] at hflush
    exact ⟨hflush, hhist⟩
  | @token _ plan next s2 b _ hplan _ hcommit =>
    have hrun := Coder.run_wf (c := s.coder) hprobs plan.path
    have hcommitted := Source.commit_wf hcommit hhist
    obtain ⟨hist, r, posState, totalPos, heq⟩ := State.advanced_of_commit (len := plan.src.length) (b := b) hcommit
    exact ⟨by rw [heq]; exact hrun, hcommitted⟩

theorem Completes.cause {s done : State} {i : Instr} {bytes : List Byte} (h : Completes s i bytes done) :
    done.cause = s.cause := by
  cases h with
  | setsize | header | eos | flush => rfl
  | token _ _ _ hcommit =>
    obtain ⟨hist, r, posState, totalPos, heq⟩ := State.advanced_of_commit hcommit
    rw [heq]

/-- A command completes from a live phase into a live phase. -/
theorem Completes.phase_live {s done : State} {i : Instr} {bytes : List Byte} (h : Completes s i bytes done) :
    s.phase.live = true ∧ done.phase.live = true := by
  have hphase : s.phase = .configured ∨ s.phase = .coding ∨ s.phase = .ended := by
    cases h with
    | setsize hphase | header hphase => exact .inl hphase
    | token hphase | eos hphase => exact .inr (.inl hphase)
    | flush hphase => exact .inr hphase
  have hlive : s.phase.live = true := by
    rcases hphase with hphase | hphase | hphase <;> rw [hphase] <;> rfl
  refine ⟨hlive, ?_⟩
  rcases h.phase with hdone | ⟨-, -, hdone⟩ | ⟨-, -, hdone⟩ | ⟨-, -, hdone⟩ <;> rw [hdone]
  · exact hlive
  all_goals rfl

theorem Completes.live {s done : State} {i : Instr} {bytes : List Byte} (h : Completes s i bytes done)
    (hlive : s.Live) (hwf : Memory.wf s = true) : done.Live := by
  obtain ⟨hprobs, -⟩ := (Memory.wf_iff s).mp hwf
  cases h with
  | setsize => exact hlive.congr ⟨rfl, rfl, rfl, rfl, rfl⟩ ⟨rfl, rfl⟩ id
  | header hphase => exact hlive.congr ⟨rfl, rfl, rfl, rfl, rfl⟩ ⟨rfl, rfl⟩ fun _ => .inl hphase
  | token _ hplan hnext hcommit hlast => exact hlive.after_token hprobs hplan hnext hcommit hlast
  | eos _ hnext hcoder => exact hlive.after_eos hprobs hnext hcoder
  | flush _ hcoder => exact hlive.after_flush hcoder

theorem Completes.inv {s done : State} {i : Instr} {bytes : List Byte} (h : Completes s i bytes done) (hinv : s.Inv) :
    done.Inv := by
  obtain ⟨hs, hdone⟩ := h.phase_live
  refine ⟨h.wf hinv.canonical, ?_, fun _ => h.live (hinv.live hs) hinv.canonical⟩
  have hnone : s.cause = .none := by
    by_contra hcause
    rw [hinv.recorded.mpr hcause] at hs
    cases hs
  rw [h.cause, hnone]
  exact iff_of_false (fun hfault => by rw [hfault] at hdone; cases hdone) (not_not_intro rfl)

theorem exec_inv {i : Instr} {s t : State} (hinv : s.Inv) (h : exec i s = .next t) : t.Inv := by
  cases exec_result h with
  | discarded => exact hinv
  | faulted hcause => exact State.Inv.raiseFault hinv.canonical hcause.1 _ _
  | configured _ hrange => exact configured_inv hrange s
  | completed hdone => exact (hdone.inv hinv).deliver _ _

/-! ### Every step -/

/-- What one step does (R21, R50, R68, R158, R168). -/
theorem step_cases {s t : State} (h : step s = .next t) :
    t = s ∨ (∃ i, exec i s.taken = .next t) ∨ (∃ w, t = illegalCommand w s.taken) ∨
    (∃ space addr, t = serveRead space addr s.taken) ∨ t = abortIdle s.taken := by
  unfold step at h
  split at h
  case h_1 => exact .inl (Host.Outcome.next.inj h).symm
  case h_2 i _ => exact .inr (.inl ⟨i, h⟩)
  case h_3 w _ => exact .inr (.inr (.inl ⟨w, (Host.Outcome.next.inj h).symm⟩))
  case h_4 space addr _ => exact .inr (.inr (.inr (.inl ⟨space, addr, (Host.Outcome.next.inj h).symm⟩)))
  case h_5 => exact .inr (.inr (.inr (.inr (Host.Outcome.next.inj h).symm)))

theorem illegalCommand_inv {s : State} (h : s.Inv) (w : CommandWord) : (illegalCommand w s).Inv := by
  unfold illegalCommand
  split
  · exact h
  · exact State.Inv.raiseFault h.canonical (by decide) _ _

theorem abortIdle_inv {s : State} (h : s.Inv) : (abortIdle s).Inv := by
  unfold abortIdle
  split
  · exact h
  · exact State.Inv.raiseFault h.canonical (by decide) _ _

/-- Settles O56: each of the five things a step can do keeps the invariant. -/
theorem stepKeepsInvariant : Obligations.StepKeepsInvariant := by
  intro s t hinv h
  rcases step_cases h with rfl | ⟨i, hexec⟩ | ⟨w, rfl⟩ | ⟨space, addr, rfl⟩ | rfl
  · exact hinv
  · exact exec_inv hinv.taken hexec
  · exact illegalCommand_inv hinv.taken w
  · exact hinv.taken.congr_ports ⟨rfl, rfl⟩ ⟨rfl, rfl, rfl, rfl, rfl⟩ ⟨rfl, rfl⟩
  · exact abortIdle_inv hinv.taken

/-- Settles O55: the memories of reset are empty lists, no cause is recorded, and phase UNCONFIGURED is not live. -/
theorem resetMeetsInvariant : Obligations.ResetMeetsInvariant where
  canonical := reset_memory_wf
  recorded := iff_of_false (by decide) (by decide)
  live h := by cases h

end Sys2Proof.Machine
end

section
/-! The observation port (R50 to R53) and the values after reset (R54). -/

namespace Sys2Proof.Machine

/-! ### Reads and reset -/

/-- Settles O7: the arrival is the read, and `serveRead` only appends its answer. -/
theorem readHasNoSideEffect : Obligations.ReadHasNoSideEffect := by
  intro s space addr rest hinput
  have harrival : arrival s = .observe space addr := by rw [arrival, hinput]; rfl
  have htaken : s.taken = { s with input := rest } := by rw [State.taken, hinput, List.tail_cons]
  rw [step, harrival, htaken]
  rfl

/-- Settles O12: R54 gives these registers, and with no event the block is idle. -/
theorem resetValues : Obligations.ResetValues :=
  ⟨rfl, rfl, rfl, rfl, rfl, rfl, rfl, rfl⟩

/-! ### The register map (R51) -/

/-- A concatenation of bit fields in plain numbers. -/
theorem append_toNat {m n : Nat} (x : BitVec m) (y : BitVec n) : (x ++ y).toNat = 2 ^ n * x.toNat + y.toNat := by
  rw [BitVec.toNat_append, Nat.shiftLeft_eq, Nat.mul_comm, Nat.two_pow_add_eq_or_of_lt y.isLt]

/-- The fields of CFG (R51). -/
theorem cfgRegister_toNat (cfg : CfgRegs) : (cfgRegister cfg).toNat =
    cfg.lc.toNat + 2 ^ 4 * cfg.lp.toNat + 2 ^ 8 * cfg.pb.toNat + 2 ^ 12 * cfg.hdrSize.toNat +
      2 ^ 13 * cfg.roundPow2.toNat + 2 ^ 32 * cfg.dictSize.toNat := by
  simp only [cfgRegister, append_toNat, BitVec.toNat_ofBool, BitVec.toNat_ofNat]
  omega

/-- A register of at most 64 bits is zero-extended (R50). -/
theorem zeroExtended_toNat {n : Nat} (h : n ≤ 64) (x : BitVec n) : (x.setWidth 64).toNat = x.toNat := by
  rw [BitVec.toNat_setWidth, Nat.mod_eq_of_lt (x.isLt.trans_le (Nat.pow_le_pow_right Nat.two_pos h))]

theorem zeroExtended_ofBool_toNat (b : Bool) : ((BitVec.ofBool b).setWidth 64).toNat = b.toNat := by
  rw [zeroExtended_toNat (by decide), BitVec.toNat_ofBool]

/-- The four slots of the MRU stack (R51). -/
theorem observeRegister_mru (s : State) (i : BitVec 2) :
    observeRegister s (0x038 + i.toNat) = (s.es.mru.get i).setWidth 64 := by
  obtain rfl | rfl | rfl | rfl : i = 0 ∨ i = 1 ∨ i = 2 ∨ i = 3 := by decide +revert
  all_goals rfl

/-- An address that R51 does not assign reads 0 (R50). -/
theorem observeRegister_unassigned {s : State} {addr : Nat}
    (h : addr ∉ [0x000, 0x001, 0x002, 0x010, 0x011, 0x012, 0x013, 0x014, 0x020, 0x021, 0x022, 0x023, 0x030, 0x031,
      0x032, 0x033, 0x034, 0x038, 0x039, 0x03A, 0x03B, 0x040]) : observeRegister s addr = 0 := by
  unfold observeRegister
  split
  case h_23 => rfl
  all_goals exact absurd (by decide) h

/-- Settles O9: every register at its address is its bits, zero-extended. -/
theorem registerMap : Obligations.RegisterMap := by
  intro s
  simp only [observe_space0]
  exact ⟨statusRegister_toNat s.phase s.cause, zeroExtended_toNat (by decide) s.faultOp, rfl,
    cfgRegister_toNat s.cfg, zeroExtended_toNat (by decide) s.dictEff, zeroExtended_toNat (by decide) s.histN,
    zeroExtended_ofBool_toNat s.sizeKnown, rfl, zeroExtended_toNat (by decide) s.rc.width, rfl,
    zeroExtended_toNat (by decide) s.rc.cache, rfl, zeroExtended_toNat (by decide) s.es.state,
    zeroExtended_toNat (by decide) s.es.posState, zeroExtended_toNat (by decide) s.es.prevByte,
    zeroExtended_toNat (by decide) s.es.r, rfl,
    fun i => (congrArg BitVec.toNat (observeRegister_mru s i)).trans (zeroExtended_toNat (by decide) _), rfl,
    fun _ => observeRegister_unassigned⟩

/-! ### The probability window (R52) -/

/-- A table's window shows its entries under its number, and 0 from its size on (R52). -/
theorem observe_table (s : State) (t : ProbTable) {index : Nat} (h : index < 2 ^ 24) :
    (observe s 1 (t.number * 2 ^ 24 + index)).toNat =
      windowEntry s t (t.size s.cfg.lc.toNat s.cfg.lp.toNat) index := by
  obtain ⟨hnumber, hindex⟩ := window_fields (n := t.number) h
  rw [observe_space1]
  exact observeProb_toNat (by rw [hnumber, tableNumbered_number]) hindex

/-- A number that no table has reads 0 (R52). -/
theorem tableNumbered_of_ge {n : Nat} (h : 20 ≤ n) : tableNumbered n = none := by
  rw [tableNumbered, List.find?_eq_none]
  intro t _ hnumber
  rw [beq_iff_eq] at hnumber
  have := t.number_lt
  omega

/-- Settles O10, table by table. -/
theorem probabilityWindow : Obligations.ProbabilityWindow := by
  refine ⟨fun s index h => ?_, fun s addr h => ?_⟩
  · exact ⟨observe_table s .matchSwitch h, observe_table s .rep h, observe_table s .repG0 h, observe_table s .repG1 h,
      observe_table s .repG2 h, observe_table s .rep0Long h, observe_table s (.choice1 .len) h,
      observe_table s (.choice2 .len) h, observe_table s (.lowCoder .len) h, observe_table s (.midCoder .len) h,
      observe_table s (.highCoder .len) h, observe_table s (.choice1 .repLen) h, observe_table s (.choice2 .repLen) h,
      observe_table s (.lowCoder .repLen) h, observe_table s (.midCoder .repLen) h,
      observe_table s (.highCoder .repLen) h, observe_table s .slotCoder h, observe_table s .posCoder h,
      observe_table s .alignCoder h, observe_table s .lit h⟩
  · rw [observe_space1, observeProb, tableNumbered_of_ge h]

/-! ### The history window (R53) -/

/-- An entry as the window may show it (R53): 0, or the written bit above a byte. -/
def isHistoryEntry (v : BitVec 64) : Prop := v = 0 ∨ ∃ b, v = writtenEntry b

theorem isHistoryEntry_unlistedEntry (background : Background) (i : Nat) :
    isHistoryEntry (unlistedEntry background i) := by
  unfold unlistedEntry
  split
  · exact .inl rfl
  · dsimp only
    split
    · exact .inr ⟨_, rfl⟩
    · exact .inl rfl

theorem isHistoryEntry_observeHistory (s : State) (i : Nat) : isHistoryEntry (observeHistory s i) := by
  unfold observeHistory
  split
  · split
    · exact .inr ⟨_, rfl⟩
    · exact isHistoryEntry_unlistedEntry _ _
  · exact .inl rfl

/-- The written bit is bit 8, and without it the byte is 0 (R53). -/
theorem isHistoryEntry.bounds {v : BitVec 64} (h : isHistoryEntry v) :
    v.toNat < 2 ^ 9 ∧ (v.toNat < 2 ^ 8 → v = 0) := by
  rcases h with rfl | ⟨b, rfl⟩
  · exact ⟨by decide, fun _ => rfl⟩
  · have hbyte := b.isLt
    rw [writtenEntry_toNat]
    exact ⟨by omega, fun h => by omega⟩

/-- Settles O11: an entry of the window is 0 or a written byte. -/
theorem historyWindow : Obligations.HistoryWindow := by
  intro s i
  rw [observe_space2]
  obtain ⟨hbound, hunwritten⟩ := (isHistoryEntry_observeHistory s i).bounds
  refine ⟨fun hi b hb => ?_, fun hi hnone hinitial => ?_, hbound, hunwritten, fun hi => ?_⟩
  · rw [observeHistory, if_pos hi, hb]
    exact writtenEntry_toNat b
  · rw [observeHistory, if_pos hi, hnone, hinitial]
    rfl
  · rw [observeHistory, if_neg (Nat.not_lt.mpr hi)]

end Sys2Proof.Machine
end

section
/-! The step runs the oldest event (R68), and stops in no state that meets the invariant (R33, R58). -/

namespace Sys2Proof.Machine

/-- Settles O5: the arrival is the decoded command. -/
theorem stepRunsDecodedCommand : Obligations.StepRunsDecodedCommand := by
  intro s w rest i hinput hdecode
  have harrival : arrival s = .command i := by simp only [arrival, hinput, arrivalOf, hdecode]
  have htaken : s.taken = { s with input := rest } := by rw [State.taken, hinput, List.tail_cons]
  rw [step, harrival, htaken]

/-! ### Checks answer a next state (R151, R152) -/

section
variable {i : Instr} {s : State} {rest : Unit → Result}

theorem whenAccepted_answers (hrun : acceptance i s.phase = .run → ∃ t, rest () = .next t) :
    ∃ t, whenAccepted i s rest = .next t := by
  rcases whenAccepted_cases i s rest with ⟨haccept, heq⟩ | ⟨-, heq⟩ | ⟨-, heq⟩ <;> rw [heq]
  · exact hrun haccept
  · exact ⟨_, rfl⟩
  · exact ⟨_, rfl⟩

theorem require_answers {holds : Bool} {cause : Cause} (hrun : holds = true → ∃ t, rest () = .next t) :
    ∃ t, require holds cause i s rest = .next t := by
  rcases require_cases holds cause i s rest with ⟨hholds, heq⟩ | ⟨-, heq⟩ <;> rw [heq]
  · exact hrun hholds
  · exact ⟨_, rfl⟩

end

/-! ### Tokens answer a next state (R125) -/

theorem fsmNext_exists {table : List (BitVec 4)} (htable : table.length = 12) {state : BitVec 4}
    (hstate : state.toNat < 12) : ∃ next, fsmNext table state = some next :=
  ⟨_, List.getElem?_eq_getElem (htable.symm ▸ hstate)⟩

/-- Every FSM table has its twelve entries (R120). -/
theorem TokenPlan.IsFor.table_length {s : State} {i : Instr} {plan : TokenPlan} (h : plan.IsFor s i) :
    plan.table.length = 12 := by
  cases h <;> rfl

theorem advance_of_histRead {s : State} {b : Byte} (h : histRead 1 s = some b) (len : Nat) :
    advance len s = some (s.advanced len b) := by
  rw [advance, h, State.advanced]

/-- A token past its checks completes: `state` has its FSM entry (R33), its copy reads only what is committed (R49), and
Advance reads the byte just written. -/
theorem TokenPlan.IsFor.runToken_answers {s : State} {i : Instr} {plan : TokenPlan} (hplan : plan.IsFor s i)
    (hlive : s.Live) : ∃ t, runToken i plan.path plan.table plan.mru plan.src s = .next t := by
  obtain ⟨next, hnext⟩ := fsmNext_exists hplan.table_length hlive.fsm
  have hbefore : (s.beforeCommit plan next).HistorySound := hlive.history.congr rfl rfl rfl rfl rfl
  have hsizes : (s.beforeCommit plan next).sizesSound := hlive.sizes
  have hsrc (dist len : Nat) (h : plan.src = .copy dist len) := hplan.src_bounds hlive h
  obtain ⟨s2, hcommit⟩ := Source.commit_exists hsizes hbefore fun dist len h =>
    ⟨(hsrc dist len h).1, (hplan.dist_bounds h).2.1, (hsrc dist len h).2⟩
  obtain ⟨hlen1, hlen⟩ := hplan.length_bounds
  have hroom : plan.src.length ≤ s.histN.toNat := by
    obtain ⟨hmin, hdict, -⟩ := hlive.sizes
    have hfour : minDict = 4096 := rfl
    omega
  have hlast := Source.commit_new hcommit (hbefore.cursor_lt hsizes) hroom hsrc 1 (Nat.le_refl 1) hlen1
  obtain ⟨b, hb⟩ := Option.isSome_iff_exists.mp hlast
  exact ⟨_, runToken_of hnext hcommit (advance_of_histRead hb _)⟩

/-- In phase CODING a LIT in matched mode finds its match byte written (R114). -/
theorem State.Live.litPath_exists {s : State} (hlive : s.Live) (hphase : s.phase = .coding) (byte : Byte) :
    ∃ path, litPath byte s = some path := by
  unfold litPath
  split
  · exact ⟨_, rfl⟩
  · next hmatched =>
    obtain ⟨bMatch, hread⟩ :=
      Option.isSome_iff_exists.mp (hlive.matched (.inr hphase) (BitVec.not_lt.mp hmatched))
    rw [hread]
    exact ⟨_, rfl⟩

/-! ### Every command and every event -/

/-- A command that the acceptance matrix runs in CODING only finds a sound invocation there. -/
theorem State.Inv.live_of_codingAcceptance {s : State} (h : s.Inv) (haccept : codingAcceptance s.phase = .run) :
    s.phase = .coding ∧ s.Live := by
  have hphase := codingAcceptance_phase.1 haccept
  exact ⟨hphase, h.live (by rw [hphase]; rfl)⟩

theorem exec_answers {s : State} (hinv : s.Inv) (i : Instr) : ∃ t, exec i s = .next t := by
  cases i with
  | config lc lp pb hdrSize roundPow2 dictSize =>
    rw [exec_config]
    exact require_answers fun _ => ⟨_, rfl⟩
  | setsize size =>
    rw [exec_setsize]
    exact whenAccepted_answers fun _ => ⟨_, rfl⟩
  | header =>
    rw [exec_header]
    exact whenAccepted_answers fun _ => ⟨_, rfl⟩
  | lit byte =>
    rw [exec_lit]
    refine whenAccepted_answers fun haccept => ?_
    obtain ⟨hphase, hlive⟩ := hinv.live_of_codingAcceptance haccept
    obtain ⟨path, hpath⟩ := hlive.litPath_exists hphase byte
    rw [hpath]
    exact (TokenPlan.IsFor.lit hpath).runToken_answers hlive
  | shortrep =>
    rw [exec_shortrep]
    exact whenAccepted_answers fun haccept => require_answers fun hdist =>
      (TokenPlan.IsFor.shortrep hdist).runToken_answers (hinv.live_of_codingAcceptance haccept).2
  | rep index len =>
    rw [exec_rep]
    exact whenAccepted_answers fun haccept => require_answers fun hlen => require_answers fun hdist =>
      (TokenPlan.IsFor.rep hlen hdist).runToken_answers (hinv.live_of_codingAcceptance haccept).2
  | simpleMatch dist0 len =>
    rw [exec_simpleMatch]
    exact whenAccepted_answers fun haccept => require_answers fun hlen => require_answers fun hdist =>
      (TokenPlan.IsFor.simpleMatch hlen hdist).runToken_answers (hinv.live_of_codingAcceptance haccept).2
  | eos =>
    rw [exec, execEos]
    refine whenAccepted_answers fun haccept => ?_
    obtain ⟨-, hlive⟩ := hinv.live_of_codingAcceptance haccept
    obtain ⟨next, hnext⟩ := fsmNext_exists (table := updateMatch) rfl hlive.fsm
    rw [hnext]
    exact ⟨_, rfl⟩
  | flush =>
    rw [exec_flush]
    exact whenAccepted_answers fun _ => ⟨_, rfl⟩

/-- Settles O57: only a command could stop the machine, and a sound state gives each token its FSM entry and its history
bytes. -/
theorem invariantStatesNeverStop : Obligations.InvariantStatesNeverStop := by
  intro s hinv
  rw [step]
  cases arrival s with
  | idle | illegal | observe | abort => exact ⟨_, rfl⟩
  | command i => exact exec_answers hinv.taken i

end Sys2Proof.Machine
end

section
/-! The output port: a byte once emitted is final, and OUT_COUNT counts the bytes (R28, R62, R63). -/

namespace Sys2Proof.Machine

/-- Before its bytes reach the sink a command has not touched the output port. -/
theorem Completes.output {s done : State} {i : Instr} {bytes : List Byte} (h : Completes s i bytes done) :
    done.output = s.output ∧ done.outCount = s.outCount := by
  cases h with
  | setsize | header | eos | flush => exact ⟨rfl, rfl⟩
  | token _ _ _ hcommit =>
    obtain ⟨hist, r, posState, totalPos, heq⟩ := State.advanced_of_commit hcommit
    rw [heq]
    exact ⟨rfl, rfl⟩

/-- The sink takes all the bytes or, when it aborts, the first of them (R158). -/
theorem deliver_output (i : Instr) (bytes : List Byte) (done : State) :
    ∃ taken, (deliver i bytes done).output = done.output ++ taken := by
  rcases deliver_cases i bytes done with ⟨plan, -, heq⟩ | ⟨n, plan, -, -, heq⟩ <;> rw [heq]
  · exact ⟨bytes, rfl⟩
  · exact ⟨bytes.take n, rfl⟩

theorem exec_output {i : Instr} {s t : State} (h : exec i s = .next t) : ∃ bytes, t.output = s.output ++ bytes := by
  cases exec_result h with
  | discarded | faulted | configured => exact ⟨[], (List.append_nil _).symm⟩
  | completed hdone =>
    rw [← hdone.output.1]
    exact deliver_output _ _ _

theorem illegalCommand_output (w : CommandWord) (s : State) : (illegalCommand w s).output = s.output := by
  unfold illegalCommand
  split <;> rfl

theorem abortIdle_output (s : State) : (abortIdle s).output = s.output := by
  unfold abortIdle
  split <;> rfl

/-- Every step only appends to the output (R63). -/
theorem step_output {s t : State} (h : step s = .next t) : ∃ bytes, t.output = s.output ++ bytes := by
  rcases step_cases h with rfl | ⟨i, hexec⟩ | ⟨w, rfl⟩ | ⟨space, addr, rfl⟩ | rfl
  · exact ⟨[], (List.append_nil _).symm⟩
  · exact exec_output (s := s.taken) hexec
  · exact ⟨[], by rw [illegalCommand_output, List.append_nil, taken_output]⟩
  · exact ⟨[], (List.append_nil _).symm⟩
  · exact ⟨[], by rw [abortIdle_output, List.append_nil, taken_output]⟩

/-- While the sink does not abort, a command other than CONFIG emits some bytes and counts them (R28, R62). -/
theorem exec_emitted {i : Instr} {s t : State} (h : exec i s = .next t) (hsink : s.sinkPlan = [])
    (hconfig : isConfig i = false) : ∃ bytes, emitted s t bytes := by
  have hnothing : s.outCount.toNat = (s.outCount.toNat + 0) % 2 ^ 64 := (Nat.mod_eq_of_lt s.outCount.isLt).symm
  cases exec_result h with
  | discarded | faulted => exact ⟨[], (List.append_nil _).symm, hnothing⟩
  | configured hconfig' => exact absurd (hconfig.symm.trans hconfig') Bool.false_ne_true
  | @completed bytes done hdone =>
    obtain ⟨houtput, hcount⟩ := hdone.output
    rw [hdone.deliver_eq hsink, houtput, hcount]
    refine ⟨bytes, rfl, ?_⟩
    rw [BitVec.toNat_add, BitVec.toNat_ofNat, Nat.add_mod_mod]

/-- Settles O54: what a command appended is what it emitted, so the bytes appended are the bytes counted. -/
theorem outputOnlyGrows : Obligations.OutputOnlyGrows := by
  refine ⟨fun s t => step_output, fun i s t bytes h hsink hconfig happended => ?_⟩
  obtain ⟨bytes', houtput, hcount⟩ := exec_emitted h hsink hconfig
  obtain rfl := List.append_cancel_left (happended.symm.trans houtput)
  exact hcount

end Sys2Proof.Machine
end

section
/-! The command word (30_encoding.md): encoder and decoder undo each other, and the decoder reads each word as the masks
and patterns of the opcode table say (R72 to R81). -/

namespace Sys2Proof

open Sys2Proof.Laws (opField_encode argField_encode)

/-! ### Must-be-zero bits -/

/-- The mask of the `len` bits of an argument from bit `start` on. -/
def sliceMask (start len : Nat) : Argument := (BitVec.allOnes len).setWidth 64 <<< start

theorem sliceMask_getLsbD_iff (start len k : Nat) :
    (sliceMask start len).getLsbD k = true ↔ k < 64 ∧ start ≤ k ∧ k < start + len := by
  rw [sliceMask, BitVec.getLsbD_shiftLeft, BitVec.getLsbD_setWidth, BitVec.getLsbD_allOnes]
  simp only [Bool.and_eq_true, Bool.not_eq_true', decide_eq_true_eq, decide_eq_false_iff_not]
  omega

theorem and_sliceMask_eq_zero_iff (arg : Argument) (start len : Nat) :
    arg &&& sliceMask start len = 0#64 ↔ arg.extractLsb' start len = 0#len := by
  constructor <;> intro h <;> refine BitVec.eq_of_getLsbD_eq fun k hk => ?_
  · have hbit := congrArg (·.getLsbD (start + k)) h
    rw [BitVec.getLsbD_extractLsb', BitVec.getLsbD_zero]
    by_cases hin : start + k < 64
    · have hmask := (sliceMask_getLsbD_iff start len (start + k)).mpr ⟨hin, by omega, by omega⟩
      simpa only [BitVec.getLsbD_and, hmask, BitVec.getLsbD_zero, hk, decide_true, Bool.and_true,
        Bool.true_and] using hbit
    · rw [BitVec.getLsbD_of_ge arg (start + k) (Nat.le_of_not_lt hin), Bool.and_false]
  · rw [BitVec.getLsbD_and, BitVec.getLsbD_zero]
    by_cases hin : start ≤ k ∧ k < start + len
    · have hbit := congrArg (·.getLsbD (k - start)) h
      have hzero : arg.getLsbD k = false := by
        simpa [show k - start < len by omega, Nat.add_sub_cancel' hin.1] using hbit
      rw [hzero, Bool.false_and]
    · have hmask : (sliceMask start len).getLsbD k = false :=
        Bool.eq_false_iff.mpr fun hset => hin ((sliceMask_getLsbD_iff start len k).mp hset).2
      rw [hmask, Bool.and_false]

theorem and_sliceMask_beq_zero (arg : Argument) (start len : Nat) :
    (arg &&& sliceMask start len == 0) = (arg.extractLsb' start len == 0) := by
  rw [Bool.eq_iff_iff, beq_iff_eq, beq_iff_eq]
  exact and_sliceMask_eq_zero_iff arg start len

/-- A mask of two slices asks for both to be 0. -/
theorem and_or_beq_zero (arg m n : Argument) :
    (arg &&& (m ||| n) == 0) = ((arg &&& m == 0) && (arg &&& n == 0)) := by
  rw [Bool.eq_iff_iff, Bool.and_eq_true, beq_iff_eq, beq_iff_eq, beq_iff_eq, BitVec.and_or_distrib_left]
  exact BitVec.or_eq_zero_iff

theorem unlessReserved_eq_command_iff {zero : Bool} {i j : Instr} :
    unlessReserved zero i = .command j ↔ zero = true ∧ i = j := by
  cases zero <;> simp [unlessReserved]

/-! ### Each format reads the fields that the encoder wrote -/

theorem decodeB_argument (byte : Byte) : decodeB (Instr.lit byte).argument = .command (.lit byte) := by
  simp (disch := decide) only [decodeB, Instr.argument, BitVec.extractLsb'_append_eq_of_add_le,
    BitVec.extractLsb'_append_eq_of_le]
  simp [unlessReserved]

theorem decodeR_argument (i : BitVec 2) (len : BitVec 9) :
    decodeR (Instr.rep i len).argument = .command (.rep i len) := by
  simp (disch := decide) only [decodeR, Instr.argument, BitVec.extractLsb'_append_eq_of_add_le,
    BitVec.extractLsb'_append_eq_of_le]
  simp [unlessReserved]

theorem decodeM_argument (dist0 : BitVec 32) (len : BitVec 9) :
    decodeM (Instr.simpleMatch dist0 len).argument = .command (.simpleMatch dist0 len) := by
  simp (disch := decide) only [decodeM, Instr.argument, BitVec.extractLsb'_append_eq_of_add_le,
    BitVec.extractLsb'_append_eq_of_le]
  simp [unlessReserved]

theorem decodeC_argument (lc lp pb : BitVec 4) (hdrSize roundPow2 : Bool) (dictSize : BitVec 32) :
    decodeC (Instr.config lc lp pb hdrSize roundPow2 dictSize).argument =
      .command (.config lc lp pb hdrSize roundPow2 dictSize) := by
  simp (disch := decide) only [decodeC, Instr.argument, BitVec.extractLsb'_append_eq_of_add_le,
    BitVec.extractLsb'_append_eq_of_le, BitVec.getLsbD_append]
  simp [unlessReserved]

/-- Settles O2: the opcode picks the format (R80), and the format reads the fields back. -/
theorem decodeOfEncode : Obligations.DecodeOfEncode := by
  intro i
  rw [decode, opField_encode, argField_encode]
  cases i with
  | config lc lp pb hdrSize roundPow2 dictSize => exact decodeC_argument lc lp pb hdrSize roundPow2 dictSize
  | lit byte => exact decodeB_argument byte
  | rep i len => exact decodeR_argument i len
  | simpleMatch dist0 len => exact decodeM_argument dist0 len
  | setsize | header | shortrep | eos | flush => rfl

/-! ### The fields of a legal argument are all of it -/

theorem ofBool_getLsbD (arg : Argument) (k : Nat) : BitVec.ofBool (arg.getLsbD k) = arg.extractLsb' k 1 := by
  ext j hj
  obtain rfl : j = 0 := by omega
  simp

theorem argument_fieldsB {arg : Argument} (h : arg.extractLsb' 8 56 = 0#56) :
    (Instr.lit (arg.extractLsb' 0 8)).argument = arg := by
  simp (disch := decide) only [Instr.argument, ← h, BitVec.extractLsb'_append_extractLsb'_eq_extractLsb',
    BitVec.extractLsb'_eq_self]

theorem argument_fieldsR {arg : Argument} (hlow : arg.extractLsb' 2 30 = 0#30)
    (hhigh : arg.extractLsb' 41 23 = 0#23) :
    (Instr.rep (arg.extractLsb' 0 2) (arg.extractLsb' 32 9)).argument = arg := by
  simp (disch := decide) only [Instr.argument, ← hlow, ← hhigh,
    BitVec.extractLsb'_append_extractLsb'_eq_extractLsb', BitVec.extractLsb'_eq_self]

theorem argument_fieldsM {arg : Argument} (h : arg.extractLsb' 41 23 = 0#23) :
    (Instr.simpleMatch (arg.extractLsb' 0 32) (arg.extractLsb' 32 9)).argument = arg := by
  simp (disch := decide) only [Instr.argument, ← h, BitVec.extractLsb'_append_extractLsb'_eq_extractLsb',
    BitVec.extractLsb'_eq_self]

theorem argument_fieldsC {arg : Argument} (h : arg.extractLsb' 14 18 = 0#18) :
    (Instr.config (arg.extractLsb' 0 4) (arg.extractLsb' 4 4) (arg.extractLsb' 8 4) (arg.getLsbD 12) (arg.getLsbD 13)
      (arg.extractLsb' 32 32)).argument = arg := by
  simp (disch := decide) only [Instr.argument, ← h, ofBool_getLsbD,
    BitVec.extractLsb'_append_extractLsb'_eq_extractLsb', BitVec.extractLsb'_eq_self]

/-! ### The opcode table, row by row (R80) -/

section
variable {row : OpcodeRow} {w : CommandWord} {i : Instr}

/-- How the row reads a word of its opcode: as the command `i` if it accepts the word, as no command if not. -/
structure OpcodeRow.Reads (row : OpcodeRow) (w : CommandWord) (i : Instr) : Prop where
  decoded : decode w = unlessReserved (row.accepts w) i
  named : i.mnemonic = row.mnemonic
  encoded : row.accepts w = true → encode i = w

theorem opField_append_argField (w : CommandWord) : opField w ++ argField w = w :=
  BitVec.extractLsb'_append_extractLsb'

/-- A mask tests the whole opcode and the `reserved` bits of the argument, which must be 0. -/
theorem OpcodeRow.accepts_eq {op : Opcode} (reserved : Argument) (hop : opField w = op)
    (hmask : row.mask = 0xFF#8 ++ reserved) (hpattern : row.pattern = op ++ 0#64) :
    row.accepts w = (argField w &&& reserved == 0) := by
  have hmasked : w &&& (0xFF#8 ++ reserved) = op ++ (argField w &&& reserved) := by
    conv_lhs => rw [← opField_append_argField w, hop, BitVec.and_append]
    rw [show 0xFF#8 = BitVec.allOnes 8 from rfl, BitVec.and_allOnes]
  rw [Bool.eq_iff_iff, OpcodeRow.accepts, beq_iff_eq, beq_iff_eq, hmask, hpattern, hmasked]
  exact BitVec.append_right_inj op

theorem OpcodeRow.Reads.of_format {zero : Bool} (haccepts : row.accepts w = zero)
    (hdecode : decode w = unlessReserved zero i) (hop : opField w = i.opcode) (hnamed : i.mnemonic = row.mnemonic)
    (hargument : zero = true → i.argument = argField w) : row.Reads w i := by
  subst haccepts
  refine ⟨hdecode, hnamed, fun h => ?_⟩
  rw [encode, hargument h, ← hop, opField_append_argField]

theorem reads_config (hop : opField w = 0x01) : ∃ i, opcodeTable[0].Reads w i := by
  have hdecode : decode w = decodeC (argField w) := by rw [decode, hop]; rfl
  have haccepts : opcodeTable[0].accepts w = ((argField w).extractLsb' 14 18 == 0) := by
    rw [OpcodeRow.accepts_eq (sliceMask 14 18) hop (by decide) rfl, and_sliceMask_beq_zero]
  exact ⟨_, .of_format haccepts hdecode hop rfl fun h => argument_fieldsC (eq_of_beq h)⟩

/-- Format S marks no bit (R78). -/
theorem reads_setsize (hop : opField w = 0x02) : ∃ i, opcodeTable[1].Reads w i := by
  have hdecode : decode w = decodeS (argField w) := by rw [decode, hop]; rfl
  have haccepts : opcodeTable[1].accepts w = true := by
    rw [OpcodeRow.accepts_eq 0#64 hop (by decide) rfl, BitVec.and_zero]
    rfl
  exact ⟨_, .of_format haccepts hdecode hop rfl fun _ => rfl⟩

theorem reads_lit (hop : opField w = 0x10) : ∃ i, opcodeTable[3].Reads w i := by
  have hdecode : decode w = decodeB (argField w) := by rw [decode, hop]; rfl
  have haccepts : opcodeTable[3].accepts w = ((argField w).extractLsb' 8 56 == 0) := by
    rw [OpcodeRow.accepts_eq (sliceMask 8 56) hop (by decide) rfl, and_sliceMask_beq_zero]
  exact ⟨_, .of_format haccepts hdecode hop rfl fun h => argument_fieldsB (eq_of_beq h)⟩

theorem reads_rep (hop : opField w = 0x12) : ∃ i, opcodeTable[5].Reads w i := by
  have hdecode : decode w = decodeR (argField w) := by rw [decode, hop]; rfl
  have haccepts : opcodeTable[5].accepts w =
      ((argField w).extractLsb' 2 30 == 0 && (argField w).extractLsb' 41 23 == 0) := by
    rw [OpcodeRow.accepts_eq (sliceMask 2 30 ||| sliceMask 41 23) hop (by decide) rfl, and_or_beq_zero,
      and_sliceMask_beq_zero, and_sliceMask_beq_zero]
  refine ⟨_, .of_format haccepts hdecode hop rfl fun h => ?_⟩
  obtain ⟨hlow, hhigh⟩ := Bool.and_eq_true_iff.mp h
  exact argument_fieldsR (eq_of_beq hlow) (eq_of_beq hhigh)

theorem reads_simpleMatch (hop : opField w = 0x13) : ∃ i, opcodeTable[6].Reads w i := by
  have hdecode : decode w = decodeM (argField w) := by rw [decode, hop]; rfl
  have haccepts : opcodeTable[6].accepts w = ((argField w).extractLsb' 41 23 == 0) := by
    rw [OpcodeRow.accepts_eq (sliceMask 41 23) hop (by decide) rfl, and_sliceMask_beq_zero]
  exact ⟨_, .of_format haccepts hdecode hop rfl fun h => argument_fieldsM (eq_of_beq h)⟩

/-- The rows of format N mark the whole argument (R73). -/
theorem reads_formatN (hop : opField w = i.opcode) (hdecode : decode w = decodeN i (argField w))
    (hmask : row.mask = 0xFF#8 ++ BitVec.allOnes 64) (hpattern : row.pattern = i.opcode ++ 0#64)
    (hnamed : i.mnemonic = row.mnemonic) (hargument : i.argument = 0) : ∃ i, row.Reads w i := by
  have haccepts : row.accepts w = (argField w == 0) := by
    rw [OpcodeRow.accepts_eq _ hop hmask hpattern, BitVec.and_allOnes]
  exact ⟨i, .of_format haccepts hdecode hop hnamed fun h => hargument.trans (eq_of_beq h).symm⟩

theorem exists_reads (hrow : row ∈ opcodeTable) (hop : opField w = opField row.pattern) :
    ∃ i, row.Reads w i := by
  simp only [opcodeTable, List.mem_cons, List.not_mem_nil, or_false] at hrow
  rcases hrow with rfl | rfl | rfl | rfl | rfl | rfl | rfl | rfl | rfl
  · exact reads_config hop
  · exact reads_setsize hop
  · exact reads_formatN (i := .header) hop (by rw [decode, hop]; rfl) (by decide) rfl rfl rfl
  · exact reads_lit hop
  · exact reads_formatN (i := .shortrep) hop (by rw [decode, hop]; rfl) (by decide) rfl rfl rfl
  · exact reads_rep hop
  · exact reads_simpleMatch hop
  · exact reads_formatN (i := .eos) hop (by rw [decode, hop]; rfl) (by decide) rfl rfl rfl
  · exact reads_formatN (i := .flush) hop (by rw [decode, hop]; rfl) (by decide) rfl rfl rfl

theorem decode_reservedOpcode (h : opField w ∉ opcodeTable.map (opField ·.pattern)) : decode w = .reservedOpcode := by
  have hopcodes : opcodeTable.map (opField ·.pattern) = [0x01, 0x02, 0x03, 0x10, 0x11, 0x12, 0x13, 0x14, 0x15] := rfl
  simp only [hopcodes, List.mem_cons, List.not_mem_nil, or_false, not_or] at h
  simp only [decode, h, if_false]

/-- A word is a command only by the row of the command's mnemonic. -/
theorem exists_row_of_decode (h : decode w = .command i) :
    ∃ row ∈ opcodeTable, row.accepts w = true ∧ row.Reads w i := by
  by_cases hdefined : opField w ∈ opcodeTable.map (opField ·.pattern)
  · obtain ⟨row, hrow, hop⟩ := List.mem_map.mp hdefined
    obtain ⟨j, hreads⟩ := exists_reads hrow hop.symm
    obtain ⟨haccepts, rfl⟩ := unlessReserved_eq_command_iff.mp (hreads.decoded.symm.trans h)
    exact ⟨row, hrow, haccepts, hreads⟩
  · rw [decode_reservedOpcode hdefined] at h
    cases h

theorem opField_and (v w : CommandWord) : opField (v &&& w) = opField v &&& opField w := BitVec.extractLsb'_and

/-- Every mask covers the whole opcode. -/
theorem OpcodeRow.opField_of_accepts (hrow : row ∈ opcodeTable) (h : row.accepts w = true) :
    opField w = opField row.pattern := by
  have hmask : ∀ row ∈ opcodeTable, opField row.mask = BitVec.allOnes 8 := by decide
  rw [← eq_of_beq h, opField_and, hmask row hrow, BitVec.and_allOnes]

end

theorem mnemonic_injective :
    ∀ row ∈ opcodeTable, ∀ row' ∈ opcodeTable, row.mnemonic = row'.mnemonic → row = row' := by
  decide

/-- Settles O3: the row that accepts the word reads all of it. -/
theorem encodeOfDecode : Obligations.EncodeOfDecode := by
  intro w i h
  obtain ⟨row, -, haccepts, hreads⟩ := exists_row_of_decode h
  exact hreads.encoded haccepts

/-- Settles O4: the row of a word's opcode reads it, and no other row has that mnemonic. -/
theorem decodeAgreesWithOpcodeTable : Obligations.DecodeAgreesWithOpcodeTable := by
  refine ⟨fun w row hrow => ⟨⟨fun hmatch => ?_, fun ⟨i, hdecode, hnamed⟩ => ?_⟩, fun hop hmismatch => ?_⟩,
    fun w hother => ?_⟩
  · have haccepts : row.accepts w = true := beq_iff_eq.mpr hmatch
    obtain ⟨i, hreads⟩ := exists_reads hrow (OpcodeRow.opField_of_accepts hrow haccepts)
    exact ⟨i, by rw [hreads.decoded, haccepts]; rfl, hreads.named⟩
  · obtain ⟨row', hrow', haccepts, hreads⟩ := exists_row_of_decode hdecode
    obtain rfl := mnemonic_injective row' hrow' row hrow (hreads.named.symm.trans hnamed)
    exact eq_of_beq haccepts
  · obtain ⟨i, hreads⟩ := exists_reads hrow hop
    rw [hreads.decoded, show row.accepts w = false from beq_eq_false_iff_ne.mpr hmismatch]
    rfl
  · refine decode_reservedOpcode fun hdefined => ?_
    obtain ⟨row, hrow, hop⟩ := List.mem_map.mp hdefined
    exact hother row hrow hop.symm

/-- Settles O1: eleven words, each decoded. -/
theorem writtenWordsDecode : Obligations.WrittenWordsDecode := by
  unfold Obligations.WrittenWordsDecode
  decide

end Sys2Proof
end

section
/-! Illegal words (R81) and pseudo-instructions (R84). -/

namespace Sys2Proof.Machine

/-- A word that is no command is taken from the port and answered as illegal (R81). -/
theorem step_illegalWord {s : State} {w : CommandWord} {rest : List HostEvent} (hinput : s.input = .command w :: rest)
    (hillegal : ∀ i, decode w ≠ .command i) : step s = .next (illegalCommand w s.taken) := by
  have harrival : arrival s = .illegal w := by
    rw [arrival, hinput]
    simp only [arrivalOf]
    cases hdecode : decode w with
    | command i => exact absurd hdecode (hillegal i)
    | reservedOpcode | mustBeZero => rfl
  rw [step, harrival]

theorem illegalCommand_of_phase_ne_fault {s : State} (h : s.phase ≠ .fault) (w : CommandWord) :
    illegalCommand w s = raiseFault .illegalCommand (opField w) (argField w) s :=
  if_neg fun hfault => h hfault.1

/-- Settles O8: by the opcode table such a word is no command, and outside FAULT its fault is recorded. -/
theorem illegalWordRaisesIllegalCommand : Obligations.IllegalWordRaisesIllegalCommand := by
  intro s w rest hinput hphase hword
  have hillegal : ∀ i, decode w ≠ .command i := by
    intro i
    rcases hword with hreserved | ⟨row, hrow, hop, hmismatch⟩
    · rw [decode_reservedOpcode hreserved]
      exact Decoded.noConfusion
    · rw [(decodeAgreesWithOpcodeTable.1 w row hrow).2 hop hmismatch]
      exact Decoded.noConfusion
  have htaken : s.taken = { s with input := rest } := by rw [State.taken, hinput, List.tail_cons]
  rw [step_illegalWord hinput hillegal, illegalCommand_of_phase_ne_fault (by rwa [taken_phase]), htaken, raiseFault]

theorem expand_matchD {d : Nat} (hlow : 1 ≤ d) (hhigh : d ≤ 2 ^ 32) (len : BitVec 9) :
    Pseudo.expand (.matchD d len) = some [.simpleMatch (BitVec.ofNat 32 (d - 1)) len] := if_pos ⟨hlow, hhigh⟩

/-- A producer distance is the copy distance of its zero-based form (R84, R119). -/
theorem copyDistance_ofNat_pred {d : Nat} (hlow : 1 ≤ d) (hhigh : d ≤ 2 ^ 32) :
    copyDistance (BitVec.ofNat 32 (d - 1)) = d := by
  rw [copyDistance, BitVec.toNat_ofNat, Nat.mod_eq_of_lt (by omega), Nat.sub_add_cancel hlow]

/-- Settles O58: `d - 1` fits the field of `dist0` exactly when `d` is in range. -/
theorem pseudoInstructionsExpand : Obligations.PseudoInstructionsExpand :=
  ⟨fun _ len hlow hhigh => ⟨_, expand_matchD hlow hhigh len, copyDistance_ofNat_pred hlow hhigh⟩,
    fun _ _ hout => if_neg (by omega), fun _ => rfl, fun _ _ => rfl, rfl, rfl⟩

end Sys2Proof.Machine
end

section
/-! The operations of the range coder, each in plain numbers (R86 to R95), and FLUSH (R135). -/

namespace Sys2Proof.Machine

/-! ### The two coding steps before Normalize (R86, R93) -/

/-- The coder once EncodeBit has cut the interval and moved its entry, before Normalize (R86). -/
def Coder.splitBit (t : ProbTable) (i : Nat) (b : Bool) (c : Coder) : Coder :=
  let cut := bound c.rc.width (c.probs.read t i)
  { c with
    rc := if b then { c.rc with low := c.rc.low + cut.setWidth 64, width := c.rc.width - cut }
          else { c.rc with width := cut }
    probs := c.probs.write t i (adapt (c.probs.read t i) b) }

theorem Coder.encodeBit_eq_normalize (t : ProbTable) (i : Nat) (b : Bool) (c : Coder) :
    c.encodeBit t i b = (c.splitBit t i b).normalize := rfl

/-- The coder once a direct bit has halved the interval, before Normalize (R93). -/
def Coder.splitDirect (b : Bool) (c : Coder) : Coder :=
  { c with
    rc := { c.rc with
      width := c.rc.width >>> 1
      low := c.rc.low + ((c.rc.width >>> 1) &&& (0 - (BitVec.ofBool b).setWidth 32)).setWidth 64 } }

theorem Coder.encodeDirect_eq_normalize (b : Bool) (c : Coder) :
    c.encodeDirect b = (c.splitDirect b).normalize := rfl

/-- What a coding step adds to `low` stays far from the register's end (R31, R91). -/
theorem low_add_toNat {low : BitVec 64} (h : low.toNat < 2 ^ 33) (x : BitVec 32) :
    (low + x.setWidth 64).toNat = low.toNat + x.toNat := by
  rw [BitVec.toNat_add, BitVec.toNat_setWidth]
  omega

/-- The mask `0 − bit` keeps all for a 1 and nothing for a 0 (R93). -/
theorem and_mask_of_bit (x : BitVec 32) (b : Bool) :
    x &&& (0 - (BitVec.ofBool b).setWidth 32) = if b then x else 0 := by
  cases b with
  | false => simp
  | true =>
    rw [show (0 - (BitVec.ofBool true).setWidth 32 : BitVec 32) = BitVec.allOnes 32 by decide, BitVec.and_allOnes]
    rfl

/-- A 0 keeps the part below the cut, a 1 the part above it (R86). -/
theorem Coder.splitBit_interval {c : Coder} {t : ProbTable} {i cut : Nat} (hlow : c.rc.low.toNat < 2 ^ 33)
    (hcut : (bound c.rc.width (c.probs.read t i)).toNat = cut) (hle : cut ≤ c.rc.width.toNat) (b : Bool) :
    (b = false → (c.splitBit t i b).rc.width.toNat = cut ∧ (c.splitBit t i b).rc.low = c.rc.low) ∧
    (b = true → (c.splitBit t i b).rc.width.toNat = c.rc.width.toNat - cut ∧
      (c.splitBit t i b).rc.low.toNat = c.rc.low.toNat + cut) := by
  subst hcut
  refine ⟨?_, ?_⟩ <;> rintro rfl
  · exact ⟨rfl, rfl⟩
  · exact ⟨BitVec.toNat_sub_of_le (BitVec.le_def.mpr hle), low_add_toNat hlow _⟩

theorem Coder.splitBit_cache (t : ProbTable) (i : Nat) (b : Bool) (c : Coder) :
    (c.splitBit t i b).rc.cache = c.rc.cache ∧ (c.splitBit t i b).rc.cacheSize = c.rc.cacheSize := by
  cases b <;> exact ⟨rfl, rfl⟩

/-- A 1 adds the halved width to `low`, a 0 adds nothing (R93). -/
theorem Coder.splitDirect_low (b : Bool) (c : Coder) :
    (c.splitDirect b).rc.low = c.rc.low + (if b then c.rc.width >>> 1 else 0 : BitVec 32).setWidth 64 := by
  rw [Coder.splitDirect, and_mask_of_bit]

/-- Settles O25: the product of R86 does not wrap (`bound_toNat`), and the cut lies inside the interval
(`cut_bounds`). -/
theorem encodeBitSplitsTheInterval : Obligations.EncodeBitSplitsTheInterval := by
  refine ⟨fun c t i b hwidth hlow hwf hmin hmax => ?_, fun c b hlow => ?_⟩
  · obtain ⟨hleast, hinside, -⟩ := cut_bounds _ _ hwidth c.rc.width.isLt hmin hmax
    obtain ⟨hzero, hone⟩ :=
      Coder.splitBit_interval hlow (bound_toNat c.rc.width (c.probs.read t i) hwidth hmin hmax) hinside.le b
    obtain ⟨hcache, hcacheSize⟩ := Coder.splitBit_cache t i b c
    have hentry : (c.splitBit t i b).probs.read t i = adapt (c.probs.read t i) b :=
      ProbFile.readAt_writeAt_same hwf _ _
    refine ⟨c.splitBit t i b, _, Coder.encodeBit_eq_normalize t i b c, rfl, hleast, hinside, hzero, hone, hcache,
      hcacheSize, rfl, ?_, fun a hne => ProbFile.readAt_writeAt_ne hne _⟩
    rw [hentry, adapt_toNat _ b (by omega)]
  · have hhalf : (c.rc.width >>> 1).toNat = c.rc.width.toNat / 2 := by
      rw [BitVec.toNat_ushiftRight, Nat.shiftRight_eq_div_pow, Nat.pow_one]
    refine ⟨c.splitDirect b, Coder.encodeDirect_eq_normalize b c, hhalf, ?_, ?_, rfl, rfl, rfl, rfl⟩
    · rintro rfl
      exact (Coder.splitDirect_low false c).trans (BitVec.add_zero _)
    · rintro rfl
      rw [Coder.splitDirect_low]
      exact (low_add_toNat hlow _).trans (congrArg _ hhalf)

/-! ### Probabilities (R87) -/

/-- Any number of updates keeps a probability in range (R87). -/
theorem foldl_adapt_inRange {p : Prob} (bits : List Bool) (h : probInRange p = true) :
    probInRange (bits.foldl adapt p) = true := by
  induction bits generalizing p with
  | nil => exact h
  | cons b bits ih => exact ih (adapt_inRange b h)

/-- Both updates are non-decreasing in the probability (R87). -/
theorem adapt_mono {p q : Prob} (b : Bool) (hle : p.toNat ≤ q.toNat) (hq : q.toNat ≤ 2048) :
    (adapt p b).toNat ≤ (adapt q b).toNat := by
  rw [adapt_toNat p b (hle.trans hq), adapt_toNat q b hq]
  split <;> omega

/-- Settles O26, by induction on the updates. -/
theorem adaptKeepsProbabilityBounds : Obligations.AdaptKeepsProbabilityBounds := by
  refine ⟨fun p bits hmin hmax => ?_, fun _ _ b => adapt_mono b, by decide, by decide⟩
  have hrange := foldl_adapt_inRange (p := p) bits (by simp [probInRange, hmin, hmax])
  simpa [probInRange] using hrange

/-- Settles O27: the step selects a part of the interval and Normalize makes it wide again (`Coder.encode_sound`). -/
theorem codingStepKeepsRange : Obligations.CodingStepKeepsRange :=
  fun _ d hsound hrange hwf =>
    ⟨Coder.encode_sound hsound hrange d, Coder.encode_inRange hwf hrange d, Coder.encode_wf hwf d⟩

/-! ### Shift_low (R90, R95) -/

/-- Settles O28, by the two things Shift_low can do. -/
theorem shiftLowAddsOneDigit : Obligations.ShiftLowAddsOneDigit :=
  fun c hsize hmax =>
    ⟨Coder.shiftLow_digits hsize hmax, (Coder.shiftLow_cacheSize hmax).1, c.shiftLow_low_toNat, c.shiftLow_width⟩

/-- Settles O29: the premises say that a carry finds room in the cache byte (`RangeCoder.carryFits`). -/
theorem shiftLowKeepsTheNumber : Obligations.ShiftLowKeepsTheNumber :=
  fun _ hsize hmax hlow hff => Coder.shiftLow_value hsize hmax ⟨hlow, hff⟩

/-! ### The first byte (R92) -/

/-- The first byte is 0x00, or still the cache byte 0x00 with no carry to come: `span` numbers from `low` on lie below
the carry (R92). -/
def Coder.startsZero (c : Coder) (span : Nat) : Prop :=
  c.out.head? = some 0 ∨ c.out = [] ∧ c.rc.cache = 0 ∧ c.rc.low.toNat + span ≤ 2 ^ 32

/-- Shift_low emits the cache byte 0x00 without a carry, or defers and moves the interval up by a digit (R90). -/
theorem Coder.startsZero.shiftLow {c : Coder} {span : Nat} (h : c.startsZero span) (hspan : 0 < span) :
    c.shiftLow.startsZero (256 * span) := by
  rcases h with hfirst | ⟨hout, hcache, hend⟩
  · obtain ⟨more, hmore⟩ := c.shiftLow_out
    exact .inl (hmore ▸ List.mem_head?_append_of_mem_head? hfirst)
  · rcases Coder.shiftLow_emits_or_defers (c := c) (by omega) with ⟨-, ⟨carry, hcarry, hout'⟩, -, -⟩ |
      ⟨hdefers, hout', hcache', -⟩
    · have hzero : carry = 0 := BitVec.eq_of_toNat_eq (hcarry.trans (Nat.div_eq_of_lt (by omega)))
      refine .inl ?_
      rw [hout', hout, RangeCoder.pending, hcache, hzero]
      rfl
    · refine .inr ⟨hout'.trans hout, hcache'.trans hcache, ?_⟩
      rw [Coder.shiftLow_low_toNat]
      omega

/-- Normalize moves `width` up together with the interval (R88). -/
theorem Coder.startsZero.normalize {c : Coder} (h : c.startsZero c.rc.width.toNat) (hwidth : 0 < c.rc.width.toNat) :
    c.normalize.startsZero c.normalize.rc.width.toNat := by
  rcases c.normalize_shifts_or_not with ⟨-, heq⟩ | ⟨-, width, hwidth', heq⟩
  · rwa [heq]
  · have hshifted := Coder.startsZero.shiftLow (c := { c with rc := { c.rc with width := width } }) h hwidth
    rwa [heq, Coder.shiftLow_width, hwidth']

/-- One coding step: the part selected lies below the carry as the whole did (R86, R93). -/
theorem Coder.startsZero.encode {c : Coder} (h : c.startsZero c.rc.width.toNat) (hsound : c.rc.sound)
    (hrange : c.probs.inRange) (d : Decision) : (c.encode d).startsZero (c.encode d).rc.width.toNat := by
  obtain ⟨c', heq, hsel⟩ := Coder.encode_selects hsound hrange d
  have hselected : c'.startsZero c'.rc.width.toNat := by
    rw [Coder.startsZero, hsel.out, hsel.cache]
    exact h.imp_right fun ⟨hout, hcache, hend⟩ => ⟨hout, hcache, hsel.upper.trans hend⟩
  rw [heq]
  exact hselected.normalize (Nat.lt_of_lt_of_le (by decide) hsel.wide)

/-- CONFIG's interval `[0, 0xFFFFFFFF)` lies below the carry, and every run keeps that (R92). -/
theorem coderInitial_run_startsZero (path : List Decision) :
    (Coder.initial.run path).startsZero (Coder.initial.run path).rc.width.toNat ∧
      (Coder.initial.run path).rc.sound := by
  obtain ⟨hsound, hrange, hwf, -, -⟩ := coderInitial_carrySafe
  have hrun := Coder.run_induction
    (P := fun c => c.startsZero c.rc.width.toNat ∧ c.rc.sound ∧ c.probs.wf = true ∧ c.probs.inRange)
    (fun _ d ⟨hzero, hsound, hwf, hrange⟩ => ⟨hzero.encode hsound hrange d, Coder.encode_sound hsound hrange d,
      Coder.encode_wf hwf d, Coder.encode_inRange hwf hrange d⟩)
    ⟨.inr ⟨rfl, rfl, by decide⟩, hsound, hwf, hrange⟩ path
  exact ⟨hrun.1, hrun.2.1⟩

/-- Flush cannot defer five times: no interval below the carry is `256^5` wide (R94). -/
theorem Coder.startsZero.flush {c : Coder} {span : Nat} (h : c.startsZero span) (hspan : 0 < span) :
    c.flush.out.head? = some 0 := by
  have hflush : c.flush.startsZero (256 * (256 * (256 * (256 * (256 * span))))) :=
    ((((h.shiftLow hspan).shiftLow (by omega)).shiftLow (by omega)).shiftLow (by omega)).shiftLow (by omega)
  exact hflush.resolve_right fun ⟨_, _, hend⟩ => by omega

/-- Settles O30: what is coded from CONFIG's range coder starts with 0x00 or has emitted nothing yet. -/
theorem firstCodedByteIsZero : Obligations.FirstCodedByteIsZero := by
  intro path
  obtain ⟨hzero, hsound⟩ := coderInitial_run_startsZero path
  refine ⟨fun b hb => ?_, hzero.flush (Nat.lt_of_lt_of_le (by decide) hsound.1)⟩
  rcases hzero with hfirst | ⟨hout, -, -⟩
  · exact Option.some.inj (hb.symm.trans hfirst)
  · rw [hout] at hb
    cases hb

/-! ### FLUSH (R94, R135) -/

theorem exec_flush_of_phase {s : State} (h : s.phase = .coding ∨ s.phase = .ended) :
    exec .flush s = .next (deliver .flush s.coder.flush.out { s.withCoder s.coder.flush with phase := .done }) := by
  rw [exec_flush]
  refine whenAccepted_run ?_ _
  rcases h with h | h <;> rw [h] <;> rfl

/-- With a sink that does not abort a completing command emits all its bytes and counts them (R28, R62). -/
theorem Completes.emitted {s done : State} {i : Instr} {bytes : List Byte} (h : Completes s i bytes done)
    (hsink : s.sinkPlan = []) : emitted s (deliver i bytes done) bytes := by
  obtain ⟨houtput, hcount⟩ := h.output
  rw [h.deliver_eq hsink, houtput, hcount]
  exact ⟨rfl, by rw [BitVec.toNat_add, BitVec.toNat_ofNat, Nat.add_mod_mod]⟩

/-- Settles O20: the command is accepted, the sink takes all its bytes, and `Coder.flush_rc` gives the registers. -/
theorem flushEndsTheStream : Obligations.FlushEndsTheStream := by
  intro s hphase hsink
  have hdone : Completes s .flush _ _ := .flush hphase rfl
  refine ⟨_, exec_flush_of_phase hphase, hdone.emitted hsink, ?_⟩
  rw [hdone.deliver_eq hsink]
  exact ⟨Coder.flush_rc s.coder, rfl, rfl, rfl, rfl, rfl, Coder.flush_probs s.coder, rfl, ⟨rfl, rfl, rfl, rfl, rfl⟩,
    ⟨rfl, rfl, rfl, rfl⟩⟩

end Sys2Proof.Machine
end

section
/-! The bit trees step by step (R96 to R98), and that no coding step leaves its table (R47). -/

namespace Sys2Proof.Machine

/-! ### The forward tree (R96) -/

/-- One step down the forward tree appends the bit just coded to the node's number, and the bits still to come lose it. -/
theorem forwardNode_succ (sym m : Nat) {n k : Nat} (hk : k < n) :
    (2 * m + (sym.testBit n).toNat) * 2 ^ k + sym % 2 ^ n / 2 ^ (n - k) =
      m * 2 ^ (k + 1) + sym % 2 ^ (n + 1) / 2 ^ (n - k) := by
  have hsplit : 2 ^ n * (sym.testBit n).toNat = (sym.testBit n).toNat * 2 ^ k * 2 ^ (n - k) := by
    rw [Nat.mul_assoc, ← Nat.pow_add, Nat.add_sub_cancel' hk.le, Nat.mul_comm]
  rw [Nat.mod_pow_succ, ← Nat.toNat_testBit, hsplit, Nat.add_mul_div_right _ _ (Nat.two_pow_pos _)]
  ring

/-- The forward walk of `n` bits from node `m`, in closed form. -/
theorem treeSteps_eq_map (t : ProbTable) (base sym n m : Nat) :
    treeSteps t base sym n m = (List.range n).map fun k =>
      Decision.bit t (base + (m * 2 ^ k + sym % 2 ^ n / 2 ^ (n - k))) (sym.testBit (n - 1 - k)) := by
  induction n generalizing m with
  | zero => rfl
  | succ n ih =>
    have hroot : sym % 2 ^ (n + 1) / 2 ^ (n + 1) = 0 := Nat.div_eq_of_lt (Nat.mod_lt _ (Nat.two_pow_pos _))
    rw [treeSteps, ih, List.range_succ_eq_map, List.map_cons, List.map_map]
    congr 1
    · simp [hroot]
    · refine List.map_congr_left fun k hk => ?_
      have hbit : n - (k + 1) = n - 1 - k := by omega
      simp [forwardNode_succ sym m (List.mem_range.mp hk), hbit]

/-- Settles O33: the closed form of the forward walk, from the root 1. -/
theorem treeWalksMostSignificantFirst : Obligations.TreeWalksMostSignificantFirst := by
  intro t base n sym
  rw [treeEncode, treeSteps_eq_map]
  simp only [Nat.one_mul, Nat.add_assoc]

@[simp] theorem length_treeEncode (t : ProbTable) (base n sym : Nat) : (treeEncode t base n sym).length = n := by
  rw [treeWalksMostSignificantFirst t base n sym, List.length_map, List.length_range]

/-- The forward tree touches only the entries `base + 1 .. base + 2^n − 1` (R98). -/
theorem mem_treeEncode {t : ProbTable} {base n sym : Nat} {d : Decision} (h : d ∈ treeEncode t base n sym) :
    ∃ i b, d = .bit t i b ∧ base + 1 ≤ i ∧ i < base + 2 ^ n := by
  obtain ⟨node, b, rfl, hnode⟩ := mem_treeSteps h
  obtain ⟨hlow, hhigh⟩ := nodeBelow_root hnode
  exact ⟨base + node, b, rfl, Nat.add_le_add_left hlow base, Nat.add_lt_add_left hhigh base⟩

/-! ### The reverse tree (R97) -/

/-- The node that the bits `coded` lead to from node `m`. -/
def nodeFrom (m : Nat) (coded : List Bool) : Nat := coded.foldl (fun node b => 2 * node + b.toNat) m

@[simp] theorem nodeFrom_one (coded : List Bool) : nodeFrom 1 coded = nodeAfter coded := rfl

@[simp] theorem nodeFrom_cons (m : Nat) (b : Bool) (coded : List Bool) :
    nodeFrom m (b :: coded) = nodeFrom (2 * m + b.toNat) coded := rfl

/-- The low `k + 1` bits of a number, least significant first: its lowest bit, then those of its half. -/
theorem lowBits_succ (sym k : Nat) :
    (List.range (k + 1)).map sym.testBit = sym.testBit 0 :: (List.range k).map (sym >>> 1).testBit := by
  rw [List.range_succ_eq_map, List.map_cons, List.map_map]
  congr 1
  exact List.map_congr_left fun j _ => by rw [Nat.testBit_shiftRight, Nat.add_comm]; rfl

/-- The reverse walk of `n` bits from node `m`, node by node. -/
theorem treeReverseSteps_eq_map (t : ProbTable) (base : Int) (n sym m : Nat) :
    treeReverseSteps t base n sym m = (List.range n).map fun k =>
      Decision.bit t (base + nodeFrom m ((List.range k).map sym.testBit)).toNat (sym.testBit k) := by
  induction n generalizing sym m with
  | zero => rfl
  | succ n ih =>
    rw [treeReverseSteps, ih, List.range_succ_eq_map, List.map_cons, List.map_map]
    congr 1
    refine List.map_congr_left fun k _ => ?_
    rw [Function.comp_apply, Nat.succ_eq_add_one, lowBits_succ, nodeFrom_cons, Nat.testBit_shiftRight, Nat.add_comm 1 k]

/-- The reverse tree codes bit `k` through the node that the bits below it lead to from the root (R97). -/
theorem treeReverseEncode_eq_map (t : ProbTable) (base : Int) (n sym : Nat) :
    treeReverseEncode t base n sym = (List.range n).map fun k =>
      Decision.bit t (base + nodeAfter ((List.range k).map sym.testBit)).toNat (sym.testBit k) := by
  rw [treeReverseEncode, treeReverseSteps_eq_map]
  simp only [nodeFrom_one]

/-- The reverse tree touches only the entries `base + 1 .. base + 2^n − 1` (R98); none is negative from base −1 on. -/
theorem mem_treeReverseEncode {t : ProbTable} {base : Int} {n sym : Nat} {d : Decision} (hbase : -1 ≤ base)
    (h : d ∈ treeReverseEncode t base n sym) :
    ∃ i b, d = .bit t i b ∧ base + 1 ≤ (i : Int) ∧ (i : Int) < base + 2 ^ n := by
  obtain ⟨node, b, rfl, hnode⟩ := mem_treeReverseSteps h
  obtain ⟨hlow, hhigh⟩ := nodeBelow_root hnode
  have hindex : ((base + node).toNat : Int) = base + node := Int.toNat_of_nonneg (by omega)
  refine ⟨_, b, rfl, ?_, ?_⟩ <;> rw [hindex]
  · omega
  · exact Int.add_lt_add_left (by exact_mod_cast hhigh) base

/-- Settles O34: the forward tree by its length and its nodes, the reverse one by its closed form and its nodes. -/
theorem treesStayInTheirNodes : Obligations.TreesStayInTheirNodes := fun t n sym =>
  ⟨fun base => ⟨length_treeEncode t base n sym, fun _ => mem_treeEncode⟩,
    fun base hbase => ⟨treeReverseEncode_eq_map t base n sym, fun _ => mem_treeReverseEncode hbase⟩⟩

/-! ### Every command (R47) -/

/-- Settles O40: `codingSteps_insideTables`, which needs no premise on the operands. -/
theorem codingStaysInsideTables : Obligations.CodingStaysInsideTables := fun i _ hlive _ =>
  codingSteps_insideTables hlive i

end Sys2Proof.Machine
end

section
/-! The length coder (R100, R101): the coding of each sub-range, and no two lengths coded alike. -/

namespace Sys2Proof.Machine

/-- The forward walk of `n` bits determines the low `n` bits of its symbol: each step shows one of them (R96). -/
theorem mod_eq_of_treeSteps_eq {t : ProbTable} {base sym sym' n m : Nat}
    (h : treeSteps t base sym n m = treeSteps t base sym' n m) : sym % 2 ^ n = sym' % 2 ^ n := by
  induction n generalizing m with
  | zero => rw [Nat.pow_zero, Nat.mod_one, Nat.mod_one]
  | succ n ih =>
    obtain ⟨hstep, hrest⟩ := List.cons.inj h
    have hbit : sym.testBit n = sym'.testBit n := (Decision.bit.inj hstep).2.2
    rw [hbit] at hrest
    rw [Nat.mod_pow_succ, Nat.mod_pow_succ, ← Nat.toNat_testBit, ← Nat.toNat_testBit, hbit, ih hrest]

/-- The forward tree of `n` bits codes no two symbols below `2^n` alike (R96). -/
theorem treeEncode_inj {t : ProbTable} {base n sym sym' : Nat} (hsym : sym < 2 ^ n) (hsym' : sym' < 2 ^ n)
    (h : treeEncode t base n sym = treeEncode t base n sym') : sym = sym' := by
  have hmod : sym % 2 ^ n = sym' % 2 ^ n := mod_eq_of_treeSteps_eq h
  rwa [Nat.mod_eq_of_lt hsym, Nat.mod_eq_of_lt hsym'] at hmod

section
variable (c : LenSet) {len : Nat} (ps : Nat)

/-! ### The three sub-ranges (R101) -/

theorem lenEncode_low (hhigh : len ≤ 9) : lenEncode c len ps =
    .bit (.choice1 c) 0 false :: treeEncode (.lowCoder c) (8 * ps) 3 (len - 2) :=
  if_pos (show len - 2 < 8 by omega)

theorem lenEncode_mid (hlow : 10 ≤ len) (hhigh : len ≤ 17) : lenEncode c len ps =
    .bit (.choice1 c) 0 true :: .bit (.choice2 c) 0 false :: treeEncode (.midCoder c) (8 * ps) 3 (len - 10) := by
  have hsym : len - 2 - 8 = len - 10 := by omega
  rw [← hsym]
  exact (if_neg (show ¬ len - 2 < 8 by omega)).trans (if_pos (show len - 2 < 16 by omega))

theorem lenEncode_high (hlow : 18 ≤ len) : lenEncode c len ps =
    .bit (.choice1 c) 0 true :: .bit (.choice2 c) 0 true :: treeEncode (.highCoder c) 0 8 (len - 18) := by
  have hsym : len - 2 - 16 = len - 18 := by omega
  rw [← hsym]
  exact (if_neg (show ¬ len - 2 < 8 by omega)).trans (if_neg (show ¬ len - 2 < 16 by omega))

/-- The number of bits of a length tells its sub-range (R101). -/
theorem length_lenEncode (len : Nat) :
    (lenEncode c len ps).length = if len ≤ 9 then 4 else if len ≤ 17 then 5 else 10 := by
  split
  · simp [lenEncode_low c ps ‹_›]
  · split
    · simp [lenEncode_mid c ps (by omega : 10 ≤ len) ‹_›]
    · simp [lenEncode_high c ps (by omega : 18 ≤ len)]

end

/-- Two lengths coded alike have equally many bits, so they share a sub-range, and its tree tells them apart. -/
theorem lenEncode_inj {c : LenSet} {len len' ps : Nat} (h2 : 2 ≤ len) (h2' : 2 ≤ len') (h273 : len ≤ 273)
    (h273' : len' ≤ 273) (h : lenEncode c len' ps = lenEncode c len ps) : len' = len := by
  have hbits := congrArg List.length h
  rw [length_lenEncode, length_lenEncode] at hbits
  have hrange : (len' ≤ 9 ↔ len ≤ 9) ∧ (len' ≤ 17 ↔ len ≤ 17) := by split_ifs at hbits <;> omega
  obtain hlow | ⟨hmid, hmid'⟩ | hhigh : len ≤ 9 ∨ (10 ≤ len ∧ len ≤ 17) ∨ 18 ≤ len := by omega
  · have hlow' : len' ≤ 9 := by omega
    rw [lenEncode_low c ps hlow, lenEncode_low c ps hlow'] at h
    have := treeEncode_inj (by omega) (by omega) (List.cons.inj h).2
    omega
  · obtain ⟨hlow', hhigh'⟩ : 10 ≤ len' ∧ len' ≤ 17 := by omega
    rw [lenEncode_mid c ps hmid hmid', lenEncode_mid c ps hlow' hhigh'] at h
    have := treeEncode_inj (by omega) (by omega) (List.cons.inj (List.cons.inj h).2).2
    omega
  · have hhigh' : 18 ≤ len' := by omega
    rw [lenEncode_high c ps hhigh, lenEncode_high c ps hhigh'] at h
    have := treeEncode_inj (by omega) (by omega) (List.cons.inj (List.cons.inj h).2).2
    omega

/-- Settles O35: the coding of each sub-range, its number of bits, and `lenEncode_inj`. -/
theorem lengthCodingsAreDistinct : Obligations.LengthCodingsAreDistinct := fun c len ps h2 h273 =>
  ⟨lenEncode_low c ps, lenEncode_mid c ps, lenEncode_high c ps, length_lenEncode c ps len,
    fun _ h2' h273' => lenEncode_inj h2 h2' h273 h273'⟩

end Sys2Proof.Machine
end

section
/-! The distance coder (R103 to R107): the slots cut the distances into ranges, and what is coded below each slot. -/

namespace Sys2Proof.Machine

/-! ### The slot of a distance (R103) -/

theorem distSlot_of_lt_four {d : Nat} (h : d < 4) : distSlot d = d := if_pos h.le

/-- The distance 4, which R103 lists among the small ones, obeys the rule for the large ones too. -/
theorem distSlot_of_four_le {d : Nat} (h : 4 ≤ d) : distSlot d = 2 * d.log2 + d / 2 ^ (d.log2 - 1) % 2 := by
  rcases Nat.eq_or_lt_of_le h with rfl | h
  · decide
  · rw [← Nat.shiftRight_eq_div_pow]
    exact if_neg (Nat.not_le.mpr h)

theorem two_le_log2 {d : Nat} (h : 4 ≤ d) : 2 ≤ d.log2 := (Nat.le_log2 (by omega)).mpr h

theorem four_le_distSlot {d : Nat} (h : 4 ≤ d) : 4 ≤ distSlot d := by
  have hlog := two_le_log2 h
  rw [distSlot_of_four_le h]
  omega

theorem distSlot_le_63 {d : Nat} (h : d < 2 ^ 32) : distSlot d ≤ 63 := by
  rcases Nat.lt_or_ge d 4 with hsmall | hlarge
  · rw [distSlot_of_lt_four hsmall]
    omega
  · have hlog : d.log2 < 32 := (Nat.log2_lt (by omega)).mpr h
    rw [distSlot_of_four_le hlarge]
    omega

/-- Slots 0 to 3 are their distance (R104). -/
theorem distSlot_eq_iff_eq {d slot : Nat} (hslot : slot < 4) : distSlot d = slot ↔ d = slot := by
  rcases Nat.lt_or_ge d 4 with hsmall | hlarge
  · rw [distSlot_of_lt_four hsmall]
  · have := four_le_distSlot hlarge
    omega

/-! ### The range of a slot (R104) -/

theorem footerBits_eq (slot : Nat) : footerBits slot = slot / 2 - 1 := rfl

theorem slotBase_eq (slot : Nat) : slotBase slot = (2 + slot % 2) * 2 ^ (slot / 2 - 1) := by
  have hbits : 2 ||| slot % 2 = 2 + slot % 2 := by
    rcases Nat.mod_two_eq_zero_or_one slot with h | h <;> rw [h] <;> rfl
  rw [slotBase, Nat.and_one_is_mod, hbits, Nat.shiftLeft_eq, footerBits_eq]

/-- What stands above the low `f` bits of a number is its leading 1 and one more bit where its logarithm is `f + 1`. -/
theorem log2_eq_succ_iff {d f : Nat} (hd : d ≠ 0) : d.log2 = f + 1 ↔ 2 ≤ d / 2 ^ f ∧ d / 2 ^ f < 4 := by
  have hpos : 0 < 2 ^ f := Nat.two_pow_pos f
  rw [Nat.log2_eq_iff hd, Nat.le_div_iff_mul_le hpos, Nat.div_lt_iff_lt_mul hpos]
  omega

/-- A large distance is in the slot whose bits `2 | (slot & 1)` stand above its `footer_bits` low bits (R104). -/
theorem distSlot_eq_iff_div {d slot : Nat} (hd : 4 ≤ d) (hslot : 4 ≤ slot) :
    distSlot d = slot ↔ d / 2 ^ (slot / 2 - 1) = 2 + slot % 2 := by
  have hlog := two_le_log2 hd
  have hlead : d.log2 = slot / 2 - 1 + 1 ↔ 2 ≤ d / 2 ^ (slot / 2 - 1) ∧ d / 2 ^ (slot / 2 - 1) < 4 :=
    log2_eq_succ_iff (by omega)
  rw [distSlot_of_four_le hd]
  constructor
  · intro heq
    have hfooter : d.log2 - 1 = slot / 2 - 1 := by omega
    rw [hfooter] at heq
    omega
  · intro hdiv
    have hfooter : d.log2 - 1 = slot / 2 - 1 := by omega
    rw [hfooter, hdiv]
    omega

theorem four_le_slotBase {slot : Nat} (hslot : 4 ≤ slot) : 4 ≤ slotBase slot := by
  have hfooter : 2 ^ 1 ≤ 2 ^ (slot / 2 - 1) := Nat.pow_le_pow_right (by decide) (by omega)
  rw [slotBase_eq]
  exact Nat.mul_le_mul (Nat.le_add_right 2 _) hfooter

/-- A slot from 4 on covers exactly `base .. base + 2^footer_bits − 1` (R104). -/
theorem distSlot_eq_iff_range {d slot : Nat} (hslot : 4 ≤ slot) :
    distSlot d = slot ↔ slotBase slot ≤ d ∧ d < slotBase slot + 2 ^ footerBits slot := by
  rcases Nat.lt_or_ge d 4 with hsmall | hlarge
  · have hbase := four_le_slotBase hslot
    rw [distSlot_of_lt_four hsmall]
    omega
  · have hpos : 0 < 2 ^ (slot / 2 - 1) := Nat.two_pow_pos _
    rw [distSlot_eq_iff_div hlarge hslot, Nat.div_eq_iff hpos, slotBase_eq, footerBits_eq]
    omega

/-! ### What is coded below the slot (R105 to R107) -/

theorem distFooter_small (d : Nat) {slot : Nat} (h : slot < 4) : distFooter d slot = [] := if_neg (Nat.not_le.mpr h)

theorem distFooter_middle (d : Nat) {slot : Nat} (h4 : 4 ≤ slot) (h14 : slot < 14) : distFooter d slot =
    treeReverseEncode .posCoder ((slotBase slot : Int) - slot - 1) (footerBits slot) (d - slotBase slot) :=
  (if_pos h4).trans (if_pos h14)

theorem distFooter_high (d : Nat) {slot : Nat} (h14 : 14 ≤ slot) : distFooter d slot =
    directBits ((d - slotBase slot) >>> 4) (footerBits slot - 4) ++
      treeReverseEncode .alignCoder 0 4 ((d - slotBase slot) &&& 0xF) :=
  (if_pos (show 4 ≤ slot by omega)).trans (if_neg (Nat.not_lt.mpr h14))

/-- The direct bits of a value in closed form, most significant first (R93). -/
theorem directBits_eq_map (value nbits : Nat) :
    directBits value nbits = (List.range nbits).map fun k => .direct (value.testBit (nbits - 1 - k)) := by
  induction nbits with
  | zero => rfl
  | succ nbits ih =>
    rw [directBits, ih, List.range_succ_eq_map, List.map_cons, List.map_map]
    congr 1
    refine List.map_congr_left fun k _ => ?_
    rw [Function.comp_apply, Nat.add_sub_cancel, Nat.succ_eq_add_one, Nat.sub_add_eq, Nat.sub_right_comm]

/-- The direct bits of a value without its low `low` bits are its own upper bits (R107). -/
theorem directBits_shiftRight (value low nbits : Nat) : directBits (value >>> low) (nbits - low) =
    (List.range (nbits - low)).map fun k => .direct (value.testBit (nbits - 1 - k)) := by
  rw [directBits_eq_map]
  refine List.map_congr_left fun k hk => ?_
  have hbit : low + (nbits - low - 1 - k) = nbits - 1 - k := by
    have := List.mem_range.mp hk
    omega
  rw [Nat.testBit_shiftRight, hbit]

/-! ### The obligations -/

/-- Settles O36: `distSlot_le_63`, the slots that are their distance, and the range of each other slot. -/
theorem slotsPartitionDistances : Obligations.SlotsPartitionDistances :=
  ⟨fun _ => distSlot_le_63,
    fun _ hslot dist0 => ⟨distSlot_eq_iff_eq hslot, distFooter_small dist0 hslot⟩,
    fun slot hslot _ => ⟨footerBits_eq slot, slotBase_eq slot, fun _ => distSlot_eq_iff_range hslot⟩⟩

/-- Settles O59: the slot tree, followed by the footer of each of the three ranges of slots. -/
theorem distanceCodedBySlotAndFooter : Obligations.DistanceCodedBySlotAndFooter := by
  intro dist0 len _ _ _ slot footer base slotSteps
  have hsplit : distEncode dist0 len = slotSteps ++ distFooter dist0 slot := rfl
  have hbase : base = slotBase slot := (slotBase_eq slot).symm
  rw [hsplit, hbase]
  refine ⟨fun h => ?_, fun h4 h14 => ?_, fun h14 => ?_⟩
  · rw [distFooter_small dist0 h, List.append_nil]
  · rw [distFooter_middle dist0 h4 h14, footerBits_eq]
  · have halign (red : Nat) : red &&& 0xF = red % 16 := Nat.and_two_pow_sub_one_eq_mod red 4
    rw [distFooter_high dist0 h14, directBits_shiftRight, halign, ← List.append_assoc, footerBits_eq]

end Sys2Proof.Machine
end

section
/-! The literal coder (R111 to R115): its context in plain numbers, and step `k` of its two walks, which codes bit `7 − k`
of the byte. -/

namespace Sys2Proof.Machine

/-! ### The literal context (R111) -/

/-- The bits of the previous byte lie below those of the position. -/
theorem litContext_eq {lc : Nat} (lp : Nat) (totalPos : BitVec 64) (prevByte : Byte) (hlc : lc ≤ 8) :
    litContext lc lp totalPos prevByte = totalPos.toNat % 2 ^ lp * 2 ^ lc + prevByte.toNat / 2 ^ (8 - lc) := by
  have hlow : prevByte.toNat / 2 ^ (8 - lc) < 2 ^ lc := by
    refine Nat.div_lt_of_lt_mul ?_
    rw [← Nat.pow_add, Nat.sub_add_cancel hlc]
    exact prevByte.isLt
  rw [litContext, Nat.one_shiftLeft, Nat.and_two_pow_sub_one_eq_mod, Nat.shiftRight_eq_div_pow,
    ← Nat.shiftLeft_add_eq_or_of_lt hlow, Nat.shiftLeft_eq]

/-- Settles O37: `litContext_eq`, and `litIndex_bounds` for the cluster's last entry. -/
theorem literalClusterInsideTable : Obligations.LiteralClusterInsideTable := fun _ lp totalPos prevByte hlc _ =>
  ⟨congrArg (0x300 * ·) (litContext_eq lp totalPos prevByte hlc), (litIndex_bounds totalPos prevByte hlc).2⟩

/-! ### The accumulator of both walks (R113, R115) -/

/-- The accumulator `symb` before step `k`: the byte below its leading 1, shifted once in each step before. -/
def symbAt (byte : Byte) (k : Nat) : BitVec 32 := (0x100 ||| byte.setWidth 32) <<< k

/-- The match byte's accumulator `match` before step `k`. -/
def matchAt (bMatch : Byte) (k : Nat) : BitVec 32 := bMatch.setWidth 32 <<< k

theorem symbAt_zero (byte : Byte) : symbAt byte 0 = 0x100 ||| byte.setWidth 32 := BitVec.shiftLeft_zero _

theorem matchAt_zero (bMatch : Byte) : matchAt bMatch 0 = bMatch.setWidth 32 := BitVec.shiftLeft_zero _

theorem symbAt_shiftLeft_one (byte : Byte) (k : Nat) : symbAt byte k <<< 1 = symbAt byte (k + 1) :=
  (BitVec.shiftLeft_add _ k 1).symm

theorem matchAt_shiftLeft_one (bMatch : Byte) (k : Nat) : matchAt bMatch k <<< 1 = matchAt bMatch (k + 1) :=
  (BitVec.shiftLeft_add _ k 1).symm

section
variable (byte : Byte) {k : Nat} (hk : k < 8)
include hk

theorem symb_lt_limit : (2 ^ 8 + byte.toNat) * 2 ^ k < 2 ^ 16 :=
  calc (2 ^ 8 + byte.toNat) * 2 ^ k
    _ ≤ 0x1FF * 2 ^ 7 := Nat.mul_le_mul (by omega) (Nat.pow_le_pow_right Nat.two_pos (by omega))
    _ < 2 ^ 16 := by decide

theorem symbAt_toNat : (symbAt byte k).toNat = (2 ^ 8 + byte.toNat) * 2 ^ k := by
  have hstart : (0x100 ||| byte.setWidth 32 : BitVec 32).toNat = 2 ^ 8 + byte.toNat := by
    rw [BitVec.toNat_or, BitVec.toNat_setWidth_of_le (by decide)]
    exact (Nat.two_pow_add_eq_or_of_lt byte.isLt 1).symm
  rw [symbAt, BitVec.toNat_shiftLeft, hstart, Nat.shiftLeft_eq,
    Nat.mod_eq_of_lt ((symb_lt_limit byte hk).trans (by decide))]

/-- The guard of the loops holds before each of the 8 steps. -/
theorem symbAt_lt : symbAt byte k < 0x10000 := by
  rw [BitVec.lt_def, symbAt_toNat byte hk]
  exact symb_lt_limit byte hk

/-- The node of step `k` is the top `k` bits of the byte below the leading 1. -/
theorem symbAt_node : (symbAt byte k >>> 8).toNat = 2 ^ k + byte.toNat / 2 ^ (8 - k) := by
  have hsplit : 2 ^ 8 = 2 ^ (8 - k) * 2 ^ k := by rw [← Nat.pow_add, Nat.sub_add_cancel hk.le]
  rw [BitVec.toNat_ushiftRight, symbAt_toNat byte hk, Nat.shiftRight_eq_div_pow, hsplit,
    Nat.mul_div_mul_right _ _ (Nat.two_pow_pos k), Nat.mul_add_div (Nat.two_pow_pos _)]

theorem symbAt_node_lt : 2 ^ k + byte.toNat / 2 ^ (8 - k) < 2 ^ 8 := by
  rw [← symbAt_node byte hk, BitVec.toNat_ushiftRight, symbAt_toNat byte hk, Nat.shiftRight_eq_div_pow]
  exact Nat.div_lt_of_lt_mul (symb_lt_limit byte hk)

end

theorem matchAt_bit (bMatch : Byte) {k i : Nat} (hk : k ≤ i) (hi : i < 32) :
    (matchAt bMatch k).getLsbD i = bMatch.toNat.testBit (i - k) := by
  have hshift : ¬ i < k := by omega
  have hwidth : i - k < 32 := by omega
  rw [matchAt, BitVec.getLsbD_shiftLeft, BitVec.getLsbD_setWidth, BitVec.testBit_toNat]
  simp [hshift, hwidth, hi]

/-- Below the leading 1 stand the bits of the byte. -/
theorem symbAt_bit (byte : Byte) {k i : Nat} (hk : k ≤ i) (hi : i < k + 8) (hwidth : i < 32) :
    (symbAt byte k).getLsbD i = byte.toNat.testBit (i - k) := by
  have hmarker : ((0x100 : BitVec 32) <<< k).getLsbD i = false := by
    have hbit : (0x100 : BitVec 32) = BitVec.twoPow 32 8 := rfl
    have hne : 8 ≠ i - k := by omega
    rw [BitVec.getLsbD_shiftLeft, hbit, BitVec.getLsbD_twoPow, decide_eq_false hne, Bool.and_false, Bool.and_false]
  rw [symbAt, BitVec.shiftLeft_or_distrib, BitVec.getLsbD_or, hmarker, Bool.false_or]
  exact matchAt_bit byte hk hwidth

/-- The bit that step `k` codes. -/
theorem symbAt_stepBit (byte : Byte) {k : Nat} (hk : k < 8) :
    (symbAt byte k).getLsbD 7 = byte.toNat.testBit (7 - k) :=
  symbAt_bit byte (Nat.le_of_lt_succ hk) (by omega) (by decide)

/-! ### The plain walk (R113) -/

/-- The last `n` of the 8 steps of the plain walk. -/
theorem litPlainSteps_eq_map (idx : Nat) (byte : Byte) {n k : Nat} (hk : k + n = 8) :
    litPlainSteps idx n (symbAt byte k) = (List.range' k n).map fun k =>
      Decision.bit .lit (idx + (2 ^ k + byte.toNat / 2 ^ (8 - k))) (byte.toNat.testBit (7 - k)) := by
  induction n generalizing k with
  | zero => rfl
  | succ n ih =>
    have hlt : k < 8 := by omega
    rw [litPlainSteps, if_pos (symbAt_lt byte hlt), symbAt_node byte hlt, symbAt_stepBit byte hlt,
      symbAt_shiftLeft_one, ih (by omega), List.range'_succ, List.map_cons]

/-- Settles O38: the plain walk and the forward tree have the same closed form. -/
theorem plainLiteralIsATree : Obligations.PlainLiteralIsATree := by
  intro idx byte
  have htop : byte.toNat % 2 ^ 8 = byte.toNat := Nat.mod_eq_of_lt byte.isLt
  rw [litPlain, ← symbAt_zero, litPlainSteps_eq_map idx byte rfl, treeEncode, treeSteps_eq_map, List.range_eq_range',
    htop]
  simp only [Nat.one_mul]

/-! ### The matched walk (R115) -/

/-- The walk's offset before step `k`: bit 8 while the top `k` bits of the byte are the match byte's. -/
def offsAt (byte bMatch : Byte) (k : Nat) : BitVec 32 :=
  if byte.toNat / 2 ^ (8 - k) = bMatch.toNat / 2 ^ (8 - k) then BitVec.twoPow 32 8 else 0

/-- Where in the cluster step `k` finds its node: in the half that the match byte's bit selects while the top `k` bits of
the byte are the match byte's, among the plain entries afterwards. -/
def matchedPart (byte bMatch : Byte) (k : Nat) : Nat :=
  if byte.toNat / 2 ^ (8 - k) = bMatch.toNat / 2 ^ (8 - k) then 0x100 + 0x100 * (bMatch.toNat / 2 ^ (7 - k) % 2) else 0

/-- No bit is walked before step 0, so the offset starts at `0x100`. -/
theorem offsAt_zero (byte bMatch : Byte) : offsAt byte bMatch 0 = 0x100 := by
  have hagree : byte.toNat / 2 ^ 8 = bMatch.toNat / 2 ^ 8 := by
    rw [Nat.div_eq_of_lt byte.isLt, Nat.div_eq_of_lt bMatch.isLt]
  exact if_pos hagree

section
variable (byte bMatch : Byte) {k : Nat} (hk : k < 8)
include hk

/-- The top `k + 1` bits agree with the match byte's where the top `k` bits and bit `7 − k` do. -/
theorem agree_succ : byte.toNat / 2 ^ (8 - (k + 1)) = bMatch.toNat / 2 ^ (8 - (k + 1)) ↔
    byte.toNat / 2 ^ (8 - k) = bMatch.toNat / 2 ^ (8 - k) ∧
      byte.toNat.testBit (7 - k) = bMatch.toNat.testBit (7 - k) := by
  have hexp : 8 - k = 7 - k + 1 := by omega
  rw [Nat.add_sub_add_right 7 1 k, hexp, Nat.pow_succ, ← Nat.div_div_eq_div_mul, ← Nat.div_div_eq_div_mul,
    Nat.testBit_eq_decide_div_mod_eq, Nat.testBit_eq_decide_div_mod_eq, decide_eq_decide]
  omega

/-- The offset drops to 0 at the first bit that differs from the match byte's (D13). -/
theorem offsAt_succ : offsAt byte bMatch k &&& ~~~(matchAt bMatch (k + 1) ^^^ symbAt byte (k + 1)) =
    offsAt byte bMatch (k + 1) := by
  simp only [offsAt, agree_succ byte bMatch hk]
  split
  case isTrue hagree =>
    rw [BitVec.twoPow_and, BitVec.getLsbD_not, BitVec.getLsbD_xor, matchAt_bit bMatch hk (by decide),
      symbAt_bit byte hk (by omega) (by decide), Bool.xor_comm]
    simp [hagree]
  case isFalse hdiffer => simp [hdiffer]

/-- The offset and the match byte's bit under it select the part of the cluster. -/
theorem offsAt_add_masked_toNat : (offsAt byte bMatch k + (matchAt bMatch (k + 1) &&& offsAt byte bMatch k)).toNat =
    matchedPart byte bMatch k := by
  unfold offsAt matchedPart
  split
  · rw [BitVec.and_comm, BitVec.twoPow_and, matchAt_bit bMatch hk (by decide), Nat.add_sub_add_right 7 1 k,
      ← Nat.toNat_testBit]
    cases bMatch.toNat.testBit (7 - k) <;> rfl
  · simp

/-- The entry of step `k`, counted from the start of the cluster. -/
theorem matchedEntry_toNat : (offsAt byte bMatch k + (matchAt bMatch (k + 1) &&& offsAt byte bMatch k) +
      symbAt byte k >>> 8).toNat = 2 ^ k + byte.toNat / 2 ^ (8 - k) + matchedPart byte bMatch k := by
  have hnode := symbAt_node_lt byte hk
  have hpart : matchedPart byte bMatch k ≤ 0x200 := by
    unfold matchedPart
    split <;> omega
  rw [BitVec.toNat_add, symbAt_node byte hk, offsAt_add_masked_toNat byte bMatch hk, Nat.mod_eq_of_lt (by omega),
    Nat.add_comm]

end

/-- The last `n` of the 8 steps of the matched walk. -/
theorem litMatchedSteps_eq_map (idx : Nat) (byte bMatch : Byte) {n k : Nat} (hk : k + n = 8) :
    litMatchedSteps idx n (symbAt byte k) (matchAt bMatch k) (offsAt byte bMatch k) =
      (List.range' k n).map fun k => Decision.bit .lit
        (idx + 2 ^ k + byte.toNat / 2 ^ (8 - k) + matchedPart byte bMatch k) (byte.toNat.testBit (7 - k)) := by
  induction n generalizing k with
  | zero => rfl
  | succ n ih =>
    have hlt : k < 8 := by omega
    rw [litMatchedSteps, if_pos (symbAt_lt byte hlt)]
    dsimp only
    rw [matchAt_shiftLeft_one, symbAt_shiftLeft_one, matchedEntry_toNat byte bMatch hlt,
      symbAt_stepBit byte hlt, offsAt_succ byte bMatch hlt, ih (by omega), List.range'_succ, List.map_cons,
      ← Nat.add_assoc, ← Nat.add_assoc]

/-- Settles O39: `litMatchedSteps_eq_map` for all 8 steps, from the offset `0x100`. -/
theorem matchedLiteralFollowsTheMatchByte : Obligations.MatchedLiteralFollowsTheMatchByte := by
  intro idx byte bMatch
  rw [litMatched, ← symbAt_zero, ← matchAt_zero, ← offsAt_zero byte bMatch,
    litMatchedSteps_eq_map idx byte bMatch rfl, List.range_eq_range']
  rfl

end Sys2Proof.Machine
end

section
/-! The token commands (R122 to R129): one completion lemma for the common body, then each command's plan. -/

namespace Sys2Proof.Machine

/-! ### The bytes a token stores (R59, R60, R130) -/

/-- `t` holds the bytes of a token of `s`: a literal's byte at the old cursor and nearest to the new one, or a copy. -/
def Source.stored (src : Source) (s t : State) : Prop :=
  match src with
  | .literal b => t.hist.read s.es.r.toNat = some b ∧ histRead 1 t = some b
  | .copy dist len => copied s t dist len

theorem Source.commit_stored {src : Source} {s t : State} (hc : src.commit s = some t)
    (hcursor : s.es.r.toNat < s.histN.toNat) (hroom : src.length ≤ s.histN.toNat)
    (hsrc : ∀ dist len, src = .copy dist len → 1 ≤ dist ∧ dist ≤ s.histN.toNat) : src.stored s t := by
  cases src with
  | literal b =>
    obtain rfl := Option.some.inj hc
    exact ⟨History.read_write_same _ _ _, histRead_one_histWrite b hcursor⟩
  | copy dist len =>
    obtain ⟨h1, hN⟩ := hsrc dist len rfl
    exact histCopy_bytes hc hcursor h1 hN hroom

/-! ### Completion of a token (R124, R125) -/

section
variable {s : State} {i : Instr} {plan : TokenPlan}

/-- A token command that is accepted and past its checks runs the common body (R125). -/
theorem TokenPlan.IsFor.exec_eq (hplan : plan.IsFor s i) (hphase : s.phase = .coding) :
    exec i s = runToken i plan.path plan.table plan.mru plan.src s := by
  cases hplan with
  | lit hpath => rw [exec_lit, whenAccepted_run (by rw [hphase]; rfl), hpath]
  | shortrep hdist => rw [exec_shortrep, whenAccepted_run (by rw [hphase]; rfl), hdist, require_true]
  | rep hlen hdist =>
    rw [exec_rep, whenAccepted_run (by rw [hphase]; rfl), hlen, require_true, hdist, require_true]
  | simpleMatch hlen hdist =>
    rw [exec_simpleMatch, whenAccepted_run (by rw [hphase]; rfl), hlen, require_true, hdist, require_true]

/-- What a token leaves when its history writes and Advance are done and the sink takes its bytes (R124, R125). -/
theorem TokenPlan.IsFor.tokenDone (hplan : plan.IsFor s i) (hlive : s.Live) (hphase : s.phase = .coding)
    (hsink : s.sinkPlan = []) {next : BitVec 4} {s2 : State} {b : Byte}
    (hnext : fsmNext plan.table s.es.state = some next)
    (hcommit : plan.src.commit (s.beforeCommit plan next) = some s2) (hlast : histRead 1 s2 = some b)
    (hcursor : s2.es.r.toNat = (s.es.r.toNat + plan.src.length) % s.histN.toNat) :
    TokenDone s (deliver i (s.coder.run plan.path).out (s2.advanced plan.src.length b))
      plan.path plan.table plan.mru plan.src.length := by
  have hdone : Completes s i _ _ := .token hphase hplan hnext hcommit hlast
  have hemitted := hdone.emitted hsink
  rw [hdone.deliver_eq hsink] at hemitted ⊢
  obtain ⟨hist, r, rfl⟩ := Source.commit_frame hcommit
  exact
    { coding := ⟨rfl, rfl, hemitted⟩
      fsm := hnext
      stack := rfl
      position := (BitVec.toNat_add _ _).trans (by rw [BitVec.toNat_ofNat, Nat.add_mod_mod]; rfl)
      posState := positionState_toNat s.cfg.pb _ hlive.config_bounds.2.2
      cursor := hcursor
      last := hlast
      record := ⟨rfl, rfl, rfl, rfl⟩
      configuration := ⟨rfl, rfl, rfl, rfl, rfl⟩
      ports := ⟨rfl, rfl, rfl, rfl⟩ }

/-- A token past its checks completes, and its bytes are stored (R125 to R130). -/
theorem TokenPlan.IsFor.completes (hplan : plan.IsFor s i) (hinv : s.Inv) (hphase : s.phase = .coding)
    (hsink : s.sinkPlan = []) : ∃ t, exec i s = .next t ∧
      TokenDone s t plan.path plan.table plan.mru plan.src.length ∧ plan.src.stored s t := by
  have hlive : s.Live := hinv.live (by rw [hphase]; rfl)
  obtain ⟨t, ht⟩ := hplan.runToken_answers hlive
  obtain ⟨next, s2, b, hnext, hcommit, hlast, rfl⟩ := runToken_next ht
  have hr : s.es.r.toNat < s.histN.toNat := hlive.history.cursor_lt hlive.sizes
  have hroom : plan.src.length ≤ s.histN.toNat := by
    obtain ⟨hmin, hdict, -⟩ := hlive.sizes
    have hfour : minDict = 4096 := rfl
    have hlen := hplan.length_bounds
    omega
  obtain ⟨hcursor, -⟩ := Source.commit_facts hcommit hr hroom
  have hstored := Source.commit_stored hcommit hr hroom fun dist len h => hplan.src_bounds hlive h
  refine ⟨_, (hplan.exec_eq hphase).trans ht, hplan.tokenDone hlive hphase hsink hnext hcommit hlast hcursor, ?_⟩
  have hdone : Completes s i _ _ := .token hphase hplan hnext hcommit hlast
  exact (congrArg (plan.src.stored s) (hdone.deliver_eq hsink)).mpr hstored

end

/-! ### LIT (R114, R116, R126) -/

section
variable {s : State} (byte : Byte)

theorem litPath_plain (h : s.es.state.toNat < 7) :
    litPath byte s = some (plainLitPath s.litIndex byte s.es.state s.es.posState) := if_pos h

theorem litPath_matched {bMatch : Byte} (h : 7 ≤ s.es.state.toNat)
    (hread : histRead (copyDistance s.es.mru.rep0) s = some bMatch) :
    litPath byte s = some (matchedLitPath s.litIndex byte bMatch s.es.state s.es.posState) := by
  rw [litPath, if_neg (BitVec.not_lt.mpr h), hread]

end

/-- Settles O21: on either side of `state = 7` the path is LIT's plan, and the byte nearest to the new cursor is both
the one stored and `prev_byte`. -/
theorem litCommitsItsByte : Obligations.LitCommitsItsByte := by
  intro byte s hinv hphase hsink
  rcases Nat.lt_or_ge s.es.state.toNat 7 with hplain | hmatched
  · obtain ⟨t, hexec, hdone, hread, hlast⟩ :=
      (TokenPlan.IsFor.lit (litPath_plain byte hplain)).completes hinv hphase hsink
    exact ⟨t, _, hexec, hdone, fun _ => rfl, fun h7 => absurd hplain (Nat.not_lt.mpr h7),
      Option.some.inj (hdone.last.symm.trans hlast), hread⟩
  · have hlive : s.Live := hinv.live (by rw [hphase]; rfl)
    obtain ⟨bMatch, hmatch⟩ := Option.isSome_iff_exists.mp (hlive.matched (.inr hphase) hmatched)
    obtain ⟨t, hexec, hdone, hread, hlast⟩ :=
      (TokenPlan.IsFor.lit (litPath_matched byte hmatched hmatch)).completes hinv hphase hsink
    exact ⟨t, _, hexec, hdone, fun hlt => absurd hlt (Nat.not_lt.mpr hmatched), fun _ => ⟨bMatch, hmatch, rfl⟩,
      Option.some.inj (hdone.last.symm.trans hlast), hread⟩

/-! ### SHORTREP, REP and MATCH (R127 to R129) -/

/-- Settles O22: SHORTREP's plan past its history check. -/
theorem shortrepCopiesOneByte : Obligations.ShortrepCopiesOneByte := fun s hinv hphase hsink hpos hdict =>
  (TokenPlan.IsFor.shortrep ((histCheck_iff _ s).mpr ⟨hpos, hdict⟩)).completes hinv hphase hsink

/-- The stack after REP `i`, slot by slot (R123). -/
theorem Mru.get_rotate (m : Mru) (i j : BitVec 2) :
    (m.rotate i).get j =
      if j = 0 then m.get i else if j.toNat ≤ i.toNat then m.get (j - 1) else m.get j := by
  have slots : ∀ k : BitVec 2, k = 0 ∨ k = 1 ∨ k = 2 ∨ k = 3 := by decide
  rcases slots i with rfl | rfl | rfl | rfl <;> rcases slots j with rfl | rfl | rfl | rfl <;> rfl

/-- Settles O23: REP's plan past its checks of length and history, with `Mru.get_rotate` for the stack. -/
theorem repCopiesAndRotates : Obligations.RepCopiesAndRotates := by
  intro i len s hinv hphase hsink hmin hmax hpos hdict
  have hplan : TokenPlan.IsFor s (.rep i len) _ :=
    .rep ((lengthInRange_iff len).mpr ⟨hmin, hmax⟩) ((histCheck_iff _ s).mpr ⟨hpos, hdict⟩)
  obtain ⟨t, hexec, hdone, hcopied⟩ := hplan.completes hinv hphase hsink
  have hstack : t.es.mru = s.es.mru.rotate i := hdone.stack
  rw [← hstack] at hdone
  refine ⟨t, repIndexBits i s.es.state s.es.posState, hexec, hdone, ?_, ?_, ?_, ?_, ?_, ?_, ?_, hcopied⟩
  · rintro rfl; rfl
  · rintro rfl; rfl
  · rintro rfl; rfl
  · rintro rfl; rfl
  · rw [hstack, Mru.get_rotate, if_pos rfl]
  · intro j h0 hle
    rw [hstack, Mru.get_rotate, if_neg (by rintro rfl; cases h0), if_pos hle]
  · intro j hlt
    rw [hstack, Mru.get_rotate, if_neg (by rintro rfl; cases hlt), if_neg (Nat.not_le.mpr hlt)]

/-- Settles O24: MATCH's plan past its checks of length and history. -/
theorem matchCopiesAndPushes : Obligations.MatchCopiesAndPushes :=
  fun dist0 len s hinv hphase hsink hmin hmax hpos hdict =>
    have hplan : TokenPlan.IsFor s (.simpleMatch dist0 len) _ :=
      .simpleMatch ((lengthInRange_iff len).mpr ⟨hmin, hmax⟩) ((histCheck_iff _ s).mpr ⟨hpos, hdict⟩)
    hplan.completes hinv hphase hsink

end Sys2Proof.Machine
end

section
/-! CONFIG, SETSIZE, HEADER and EOS (R131 to R134): when each is accepted, and what it leaves. -/

namespace Sys2Proof.Machine

/-! ### The checks that fail (R151, R152) -/

theorem whenAccepted_sequenceError {i : Instr} {s : State} (h : acceptance i s.phase = .sequenceError)
    (rest : Unit → Result) : whenAccepted i s rest = .next (faultRecorded .sequenceError i s) := by
  rw [whenAccepted, h]
  rfl

theorem whenAccepted_discard {i : Instr} {s : State} (h : acceptance i s.phase = .discard) (rest : Unit → Result) :
    whenAccepted i s rest = .next s := by
  rw [whenAccepted, h]

theorem require_false (cause : Cause) (i : Instr) (s : State) (rest : Unit → Result) :
    require false cause i s rest = .next (faultRecorded cause i s) := rfl

/-! ### CONFIG (R131) -/

theorem configInRange_eq_false_iff (lc lp pb : BitVec 4) :
    configInRange lc lp pb = false ↔ 8 < lc.toNat ∨ 4 < lp.toNat ∨ 4 < pb.toNat := by
  rw [← Bool.not_eq_true, configInRange_iff]
  omega

/-- Settles O16: the acceptance matrix runs CONFIG in every phase (`exec_config`), and its range check fails. -/
theorem configOutOfRangeFaults : Obligations.ConfigOutOfRangeFaults := by
  intro s lc lp pb hdrSize roundPow2 dictSize hrange
  rw [exec_config, (configInRange_eq_false_iff lc lp pb).mpr hrange, require_false]

/-- An unwritten entry of an initialised history reads 0, and so does every address beyond the buffer (R48, R53). -/
theorem observe_space2_unwritten {s : State} {i : Nat} (hread : s.hist.read i = none)
    (hinitial : s.hist.background = .initial) : observe s 2 i = 0 := by
  obtain ⟨-, hunwritten, -, -, hbeyond⟩ := historyWindow s i
  rcases Nat.lt_or_ge i s.histN.toNat with hinside | hbeyond'
  · exact hunwritten hinside hread hinitial
  · exact hbeyond hbeyond'

/-- CONFIG leaves every probability at ½ (R46). -/
theorem configured_probs_read (cfg : CfgRegs) (s : State) (t : ProbTable) (index : Nat) :
    (configured cfg s).probs.read t index = 1024 := rfl

/-- CONFIG leaves every history entry unwritten (R48). -/
theorem configured_hist_read (cfg : CfgRegs) (s : State) (i : Nat) : (configured cfg s).hist.read i = none := rfl

theorem configured_samePorts (cfg : CfgRegs) (s : State) : samePorts s (configured cfg s) := ⟨rfl, rfl, rfl, rfl⟩

/-- Settles O13: past its range check CONFIG leaves `configured`, whose memories hold no cell. -/
theorem configStartsInvocation : Obligations.ConfigStartsInvocation := by
  intro s lc lp pb hdrSize roundPow2 dictSize hlc hlp hpb
  have hrange := (configInRange_iff lc lp pb).mpr ⟨hlc, hlp, hpb⟩
  refine ⟨_, exec_config_of_inRange hrange hdrSize roundPow2 dictSize s, ?_⟩
  have hunwritten := configured_hist_read ⟨lc, lp, pb, hdrSize, roundPow2, dictSize⟩ s
  exact ⟨rfl, rfl, rfl, rfl, rfl, rfl, rfl, rfl, rfl, rfl, configured_probs_read _ s, hunwritten,
    fun i => observe_space2_unwritten (hunwritten i) rfl, rfl, configured_samePorts _ s⟩

/-! ### SETSIZE (R132) -/

/-- In the four phases other than CONFIGURED and FAULT, SETSIZE and HEADER are out of sequence (R151). -/
theorem setupAcceptance_sequenceError {p : Phase} (hconfigured : p ≠ .configured) (hfault : p ≠ .fault) :
    setupAcceptance p = .sequenceError := by
  cases p with
  | configured => exact absurd rfl hconfigured
  | fault => exact absurd rfl hfault
  | unconfigured | coding | ended | done => rfl

/-- Settles O17, by SETSIZE's row of the acceptance matrix. -/
theorem setsizeRecordsSize : Obligations.SetsizeRecordsSize := by
  intro s size
  rw [exec_setsize]
  have hrow : acceptance (.setsize size) s.phase = setupAcceptance s.phase := rfl
  refine ⟨fun h => whenAccepted_run ?_ _, fun hconfigured hfault => whenAccepted_sequenceError ?_ _,
    fun h => whenAccepted_discard ?_ _⟩
  · rw [hrow, h, setupAcceptance]
  · rw [hrow, setupAcceptance_sequenceError hconfigured hfault]
  · rw [hrow, h, setupAcceptance]

/-! ### HEADER (R133) -/

/-- The byte `k` of a register is its base-256 digit (R65). -/
theorem byteOf_toNat (v : BitVec 64) (k : Nat) : (byteOf v k).toNat = v.toNat / 256 ^ k % 256 := by
  rw [byteOf, BitVec.extractLsb'_toNat, Nat.shiftRight_eq_div_pow, Nat.pow_mul]

theorem map_byteOf_toNat (v : BitVec 64) (n : Nat) :
    ((List.range n).map (byteOf v)).map BitVec.toNat = (List.range n).map fun k => v.toNat / 256 ^ k % 256 := by
  rw [List.map_map]
  exact List.map_congr_left fun k _ => byteOf_toNat v k

/-- The property byte does not wrap for a legal configuration: it is at most 224 (R133). -/
theorem propertyByte_toNat {cfg : CfgRegs} (h : configInRange cfg.lc cfg.lp cfg.pb = true) :
    (propertyByte cfg).toNat = cfg.lc.toNat + 9 * cfg.lp.toNat + 45 * cfg.pb.toNat := by
  obtain ⟨hlc, hlp, hpb⟩ := (configInRange_iff _ _ _).mp h
  rw [propertyByte, BitVec.toNat_ofNat, Nat.mod_eq_of_lt (by omega)]

/-- The header in plain numbers (R133, R65). -/
theorem headerBytes_toNat {cfg : CfgRegs} (h : configInRange cfg.lc cfg.lp cfg.pb = true) (dictEff : BitVec 32)
    (sizeValue : BitVec 64) : (headerBytes cfg dictEff sizeValue).map BitVec.toNat =
      (cfg.lc.toNat + 9 * cfg.lp.toNat + 45 * cfg.pb.toNat) ::
        (List.range 4).map (fun k => dictEff.toNat / 256 ^ k % 256) ++
        (if cfg.hdrSize then (List.range 8).map (fun k => sizeValue.toNat / 256 ^ k % 256) else []) := by
  rw [headerBytes, List.map_append, List.map_cons, propertyByte_toNat h, map_byteOf_toNat,
    zeroExtended_toNat (by decide) dictEff]
  cases cfg.hdrSize with
  | false => rfl
  | true => exact congrArg (_ ++ ·) (map_byteOf_toNat sizeValue 8)

theorem exec_header_of_phase {s : State} (h : s.phase = .configured) : exec .header s =
    .next (deliver .header (headerBytes s.cfg s.dictEff s.sizeValue) { s with phase := .coding }) := by
  rw [exec_header, whenAccepted_run (by rw [h]; rfl)]

/-- Settles O18: HEADER completes, the sink takes all its bytes, and `headerBytes_toNat` says which they are. -/
theorem headerEmitsItsFields : Obligations.HeaderEmitsItsFields := by
  intro s hphase hsink hrange
  have hdone : Completes s .header _ _ := .header hphase
  refine ⟨_, _, exec_header_of_phase hphase, hdone.emitted hsink, headerBytes_toNat hrange _ _, ?_⟩
  rw [hdone.deliver_eq hsink]
  exact ⟨rfl, rfl, rfl, rfl, ⟨rfl, rfl, rfl, rfl, rfl⟩, rfl, rfl, rfl, rfl, hdone.samePorts⟩

/-! ### EOS (R134) -/

/-- The end-of-stream marker, step by step (R134, R122). -/
theorem eosPath_eq (st ps : BitVec 4) : eosPath st ps =
    [.bit .matchSwitch (16 * st.toNat + ps.toNat) true, .bit .rep st.toNat false] ++
      lenEncode .len 2 ps.toNat ++ distEncode 0xFFFFFFFF 2 := by
  have hdist : eosMagicDist.toNat = 0xFFFFFFFF := rfl
  rw [eosPath, hdist]
  rfl

/-- Settles O19: `state` has its FSM entry, EOS completes, and the sink takes all its bytes. -/
theorem eosCodesTheMarker : Obligations.EosCodesTheMarker := by
  intro s hphase hsink hstate
  obtain ⟨next, hnext⟩ := fsmNext_exists (table := updateMatch) rfl hstate
  refine ⟨_, next, exec_eos hphase hnext, ?_⟩
  rw [← eosPath_eq, coded]
  -- The coder stays a name from here on, so that no check below runs its steps.
  obtain ⟨coder, hcoder⟩ : ∃ coder, coder = s.coder.run (eosPath s.es.state s.es.posState) := ⟨_, rfl⟩
  rw [← hcoder]
  have hdone : Completes s .eos coder.out _ := .eos hphase hnext hcoder
  have hemitted := hdone.emitted hsink
  rw [hdone.deliver_eq hsink] at hemitted ⊢
  exact ⟨⟨rfl, rfl, hemitted⟩, hnext, rfl, rfl, rfl, rfl, rfl, rfl, ⟨rfl, rfl, rfl, rfl, rfl⟩, hdone.samePorts⟩

end Sys2Proof.Machine
end

section
/-! How many bits each command codes (R174). -/

namespace Sys2Proof.Machine

/-! ### The coders -/

@[simp] theorem length_treeReverseEncode (t : ProbTable) (base : Int) (n sym : Nat) :
    (treeReverseEncode t base n sym).length = n := by
  rw [treeReverseEncode_eq_map, List.length_map, List.length_range]

@[simp] theorem length_directBits (value nbits : Nat) : (directBits value nbits).length = nbits := by
  rw [directBits_eq_map, List.length_map, List.length_range]

/-- Below its slot a distance is coded in `footer_bits` bits, slots 0 to 3 in none (R104 to R107). -/
theorem length_distFooter (dist0 slot : Nat) :
    (distFooter dist0 slot).length = if slot < 4 then 0 else footerBits slot := by
  split
  · rw [distFooter_small dist0 ‹_›, List.length_nil]
  · rcases Nat.lt_or_ge slot 14 with hmiddle | hhigh
    · rw [distFooter_middle dist0 (Nat.le_of_not_lt ‹_›) hmiddle, length_treeReverseEncode]
    · rw [distFooter_high dist0 hhigh, List.length_append, length_directBits, length_treeReverseEncode, footerBits_eq]
      omega

theorem length_distEncode (dist0 len : Nat) : (distEncode dist0 len).length =
    6 + if distSlot dist0 < 4 then 0 else footerBits (distSlot dist0) := by
  rw [← length_distFooter dist0]
  exact List.length_append.trans (congrArg (· + _) (length_treeEncode _ _ _ _))

@[simp] theorem length_litPlain (idx : Nat) (byte : Byte) : (litPlain idx byte).length = 8 := by
  rw [plainLiteralIsATree idx byte, length_treeEncode]

@[simp] theorem length_litMatched (idx : Nat) (byte bMatch : Byte) : (litMatched idx byte bMatch).length = 8 := by
  rw [matchedLiteralFollowsTheMatchByte idx byte bMatch, List.length_map, List.length_range]

/-! ### The commands -/

theorem length_litPath {byte : Byte} {s : State} {path : List Decision} (h : litPath byte s = some path) :
    path.length = 9 := by
  unfold litPath at h
  split at h
  · obtain rfl := Option.some.inj h
    rw [plainLitPath, List.length_cons, length_litPlain]
  · split at h
    · cases h
    · obtain rfl := Option.some.inj h
      rw [matchedLitPath, List.length_cons, length_litMatched]

/-- The rep index takes 2 bits for 0 and 1, 3 bits for 2 and 3 (R122). -/
theorem length_repIndexBits (i : BitVec 2) (st ps : BitVec 4) :
    (repIndexBits i st ps).length = if i = 0 ∨ i = 1 then 2 else 3 := by
  obtain rfl | rfl | rfl | rfl : i = 0 ∨ i = 1 ∨ i = 2 ∨ i = 3 := by decide +revert
  all_goals rfl

theorem length_repPath (i : BitVec 2) (len : Nat) (st ps : BitVec 4) : (repPath i len st ps).length =
    2 + (if i = 0 ∨ i = 1 then 2 else 3) + if len ≤ 9 then 4 else if len ≤ 17 then 5 else 10 := by
  rw [repPath, List.length_append, List.length_append, length_repIndexBits, length_lenEncode]
  rfl

theorem length_simpleMatchPath (dist0 len : Nat) (st ps : BitVec 4) : (simpleMatchPath dist0 len st ps).length =
    2 + (if len ≤ 9 then 4 else if len ≤ 17 then 5 else 10) +
      (6 + if distSlot dist0 < 4 then 0 else footerBits (distSlot dist0)) := by
  rw [simpleMatchPath, List.length_append, List.length_append, length_lenEncode, length_distEncode]
  rfl

/-- A distance of `n` bits is in one of the first `2n` slots (R103). -/
theorem distSlot_lt {d n : Nat} (hn : 2 ≤ n) (h : d < 2 ^ n) : distSlot d < 2 * n := by
  rcases Nat.lt_or_ge d 4 with hsmall | hlarge
  · rw [distSlot_of_lt_four hsmall]
    omega
  · have hlog : d.log2 < n := (Nat.log2_lt (by omega)).mpr h
    rw [distSlot_of_four_le hlarge]
    omega

/-- A distance that the history check accepts has at most 25 bits, as the dictionary has at most `2^25` bytes (R10,
R153). -/
theorem State.Live.dist0_lt {s : State} (hlive : s.Live) {dist0 : BitVec 32}
    (hcheck : histCheck (copyDistance dist0) s = true) : dist0.toNat < 2 ^ 25 := by
  obtain ⟨-, hdict, k, -, hk, hN⟩ := hlive.sizes
  obtain ⟨-, hdist⟩ := (histCheck_iff _ s).mp hcheck
  have hpow : 2 ^ k ≤ 2 ^ 25 := Nat.pow_le_pow_right Nat.two_pos hk
  rw [copyDistance] at hdist
  omega

/-- The marker's distance is in the last slot (R134). -/
theorem distSlot_eosMagicDist : distSlot eosMagicDist.toNat = 63 := (distSlot_eq_iff_range (by decide)).mpr (by decide)

/-- Settles O42: each command's bits are those of its switch bits and its coders; an accepted distance is in one of the
first 50 slots, whose footers have at most 23 bits. -/
theorem bitsPerCommand : Obligations.BitsPerCommand := by
  intro s hlive
  refine ⟨fun byte hphase => ?_, rfl, fun i len _ => ?_, fun dist0 len _ hcheck => ?_, ?_⟩
  · obtain ⟨path, hpath⟩ := hlive.litPath_exists hphase byte
    rw [codingSteps, hpath]
    exact length_litPath hpath
  · rw [codingSteps, length_repPath]
    split_ifs <;> omega
  · have hslot := distSlot_lt (by decide) (hlive.dist0_lt hcheck)
    rw [codingSteps, length_simpleMatchPath, footerBits_eq]
    split_ifs <;> omega
  · rw [codingSteps, eosPath, length_simpleMatchPath, distSlot_eosMagicDist]
    rfl

end Sys2Proof.Machine
end

section
/-! Checks and their faults (R149 to R156), the idle block and the idle abort (R158, R168), and what CONFIG forgets
(R170). -/

namespace Sys2Proof.Machine

/-! ### The step without a command -/

theorem taken_of_input {s : State} {e : HostEvent} {rest : List HostEvent} (h : s.input = e :: rest) :
    s.taken = { s with input := rest } := by
  rw [State.taken, h, List.tail_cons]

/-- Settles O6: with no event the block is idle. -/
theorem idleHoldsState : Obligations.IdleHoldsState := by
  intro s hinput
  rw [step, arrival, hinput]

/-- Settles O49: the arrival is the abort, which is ignored in FAULT and recorded in every other phase. -/
theorem idleAbort : Obligations.IdleAbort := by
  intro s rest hinput
  have hstep : step s = .next (abortIdle { s with input := rest }) := by
    rw [← taken_of_input hinput, step, arrival, hinput]
    rfl
  rw [hstep]
  exact ⟨fun hphase => congrArg _ (if_neg hphase), fun hphase => congrArg _ (if_pos hphase)⟩

/-! ### CONFIG (R170) -/

/-- Settles O15: CONFIG writes every field but the ports and the counter of free values. -/
theorem configForgetsEverything : Obligations.ConfigForgetsEverything := by
  intro s s' lc lp pb hdrSize roundPow2 dictSize hlc hlp hpb ⟨hinput, hreadData, hsinkPlan, hfreeCount⟩ houtput
  have hrange := (configInRange_iff lc lp pb).mpr ⟨hlc, hlp, hpb⟩
  rw [exec_config_of_inRange hrange, exec_config_of_inRange hrange, configured, configured, hinput, houtput, hreadData,
    hsinkPlan, hfreeCount]

/-! ### The acceptance matrix (R151) -/

/-- The matrix, cell by cell: "yes" in the phases listed, else "drop" in FAULT and "SEQ" elsewhere. -/
theorem acceptance_eq (i : Instr) (p : Phase) : acceptance i p =
    if p ∈ acceptedIn i then .run else if p = .fault then .discard else .sequenceError := by
  cases i <;> cases p <;> rfl

/-- Every command begins with the acceptance check (R152). -/
theorem exec_eq_whenAccepted (i : Instr) (s : State) : ∃ rest, exec i s = whenAccepted i s rest := by
  cases i with
  | config => exact ⟨_, by rw [exec, execConfig]⟩
  | setsize => exact ⟨_, exec_setsize _ s⟩
  | header => exact ⟨_, exec_header s⟩
  | lit => exact ⟨_, exec_lit _ s⟩
  | shortrep => exact ⟨_, exec_shortrep s⟩
  | rep => exact ⟨_, exec_rep _ _ s⟩
  | simpleMatch => exact ⟨_, exec_simpleMatch _ _ s⟩
  | eos => exact ⟨_, by rw [exec, execEos]⟩
  | flush => exact ⟨_, exec_flush s⟩

/-- Settles O43: the cells of the matrix that are not "yes". -/
theorem phaseGatesEveryCommand : Obligations.PhaseGatesEveryCommand := by
  intro i s hnot
  obtain ⟨rest, hexec⟩ := exec_eq_whenAccepted i s
  have hcell := acceptance_eq i s.phase
  rw [if_neg hnot] at hcell
  rw [hexec]
  exact ⟨fun hphase => whenAccepted_sequenceError (hcell.trans (if_neg hphase)) rest,
    fun hphase => whenAccepted_discard (hcell.trans (if_pos hphase)) rest⟩

/-- Only CONFIG is accepted in FAULT (R155, R156). -/
theorem fault_notMem_acceptedIn {i : Instr} (h : i.opcode ≠ 0x01) : Phase.fault ∉ acceptedIn i := by
  cases i with
  | config => exact absurd rfl h
  | setsize | header | lit | shortrep | rep | simpleMatch | eos | flush => simp [acceptedIn]

/-! ### The checks of the operands (R150, R153) -/

theorem lengthInRange_eq_false {len : BitVec 9} (h : len.toNat < 2 ∨ 273 < len.toNat) : lengthInRange len = false := by
  rw [← Bool.not_eq_true, lengthInRange_iff]
  omega

theorem histCheck_eq_false {dist : Nat} {s : State} (h : s.es.totalPos.toNat < dist ∨ s.dictEff.toNat < dist) :
    histCheck dist s = false := by
  rw [← Bool.not_eq_true, histCheck_iff]
  omega

/-- Settles O45: the length check comes before the history check (R152). -/
theorem lengthOutOfRangeFaults : Obligations.LengthOutOfRangeFaults := by
  intro s len hphase hlen
  have hcheck := lengthInRange_eq_false hlen
  refine ⟨fun i => ?_, fun dist0 => ?_⟩
  · rw [exec_rep, whenAccepted_run (by rw [hphase]; rfl), hcheck, require_false]
  · rw [exec_simpleMatch, whenAccepted_run (by rw [hphase]; rfl), hcheck, require_false]

/-- Settles O46: the history check is the last of each copying command, and the copy distance does not wrap. -/
theorem distanceOutsideHistoryFaults : Obligations.DistanceOutsideHistoryFaults := by
  intro s hphase
  refine ⟨fun dist0 len hmin hmax hdist => ?_, fun i len hmin hmax hdist => ?_, fun hdist => ?_⟩
  · rw [exec_simpleMatch, whenAccepted_run (by rw [hphase]; rfl), (lengthInRange_iff len).mpr ⟨hmin, hmax⟩,
      require_true, copyDistance, histCheck_eq_false hdist, require_false]
  · rw [exec_rep, whenAccepted_run (by rw [hphase]; rfl), (lengthInRange_iff len).mpr ⟨hmin, hmax⟩, require_true,
      copyDistance, histCheck_eq_false hdist, require_false]
  · rw [exec_shortrep, whenAccepted_run (by rw [hphase]; rfl), copyDistance, histCheck_eq_false hdist, require_false]

/-! ### Words (R72, R81, R149, R155) -/

/-- A command's word carries its opcode and its argument. -/
theorem fields_of_decode {w : CommandWord} {i : Instr} (h : decode w = .command i) :
    opField w = i.opcode ∧ argField w = i.argument := by
  rw [← encodeOfDecode w i h]
  exact ⟨Laws.opField_encode i, Laws.argField_encode i⟩

/-- A word on the command port is a command, or it is answered as illegal (R81). -/
theorem step_word_cases {s : State} {w : CommandWord} {rest : List HostEvent} (hinput : s.input = .command w :: rest) :
    (∃ i, decode w = .command i ∧ step s = exec i { s with input := rest }) ∨
    ((∀ i, decode w ≠ .command i) ∧ step s = .next (illegalCommand w { s with input := rest })) := by
  by_cases hlegal : ∃ i, decode w = .command i
  · obtain ⟨i, hdecode⟩ := hlegal
    exact .inl ⟨i, hdecode, stepRunsDecodedCommand s w rest i hinput hdecode⟩
  · have hillegal := not_exists.mp hlegal
    exact .inr ⟨hillegal, taken_of_input hinput ▸ step_illegalWord hinput hillegal⟩

/-- Settles O44: the matrix discards every command but CONFIG, and so does `illegalCommand` every word of another
opcode. -/
theorem faultPhaseDiscards : Obligations.FaultPhaseDiscards := by
  intro s rest hphase
  refine ⟨fun w hinput hop => ?_, fun space addr hinput => readHasNoSideEffect s space addr rest hinput,
    fun w hinput hop hdecode => ?_⟩
  · rcases step_word_cases hinput with ⟨i, hdecode, hstep⟩ | ⟨-, hstep⟩
    · rw [(fields_of_decode hdecode).1] at hop
      have hnot : s.phase ∉ acceptedIn i := hphase ▸ fault_notMem_acceptedIn hop
      exact hstep.trans ((phaseGatesEveryCommand i { s with input := rest } hnot).2 hphase)
    · exact hstep.trans (congrArg _ (if_pos ⟨hphase, hop⟩))
  · rcases step_word_cases hinput with ⟨i, hcommand, -⟩ | ⟨-, hstep⟩
    · rw [hdecode] at hcommand
      cases hcommand
    · rw [hstep, illegalCommand, if_neg fun h => h.2 hop, raiseFault, hop, hphase]

/-- CONFIG completes or records ConfigRange, in every phase (R131, R151). -/
theorem exec_config_cases {i : Instr} (hconfig : isConfig i = true) (s : State) :
    (∃ cfg, exec i s = .next (configured cfg s)) ∨
    exec i s = .next (raiseFault .configRange i.opcode i.argument s) := by
  cases i with
  | config lc lp pb hdrSize roundPow2 dictSize =>
    rw [exec_config]
    cases configInRange lc lp pb with
    | true => exact .inl ⟨_, rfl⟩
    | false => exact .inr rfl
  | setsize | header | lit | shortrep | rep | simpleMatch | eos | flush => cases hconfig

/-- A command that ends in FAULT with a cause other than SinkAborted was discarded there, or a check of it failed. -/
theorem exec_fault_cases {i : Instr} {s t : State} (h : exec i s = .next t) (hphase : t.phase = .fault)
    (hcause : t.cause ≠ .sinkAborted) :
    (s.phase = .fault ∧ isConfig i = false ∧ t = s) ∨
    ∃ cause, cause ≠ .none ∧ t = raiseFault cause i.opcode i.argument s := by
  cases hconfig : isConfig i with
  | true =>
    rcases exec_config_cases hconfig s with ⟨cfg, heq⟩ | heq
    · obtain rfl := Host.Outcome.next.inj (heq.symm.trans h)
      cases hphase
    · exact .inr ⟨.configRange, by decide, (Host.Outcome.next.inj (heq.symm.trans h)).symm⟩
  | false =>
    cases exec_result h with
    | discarded hfault => exact .inl ⟨hfault, rfl, rfl⟩
    | faulted hnone => exact .inr ⟨_, hnone.1, rfl⟩
    | configured => cases hphase
    | @completed bytes done hdone =>
      rcases deliver_cases i bytes done with ⟨plan, -, heq⟩ | ⟨n, plan, -, -, heq⟩ <;> rw [heq] at hphase hcause
      · have hlive := hdone.phase_live.2
        rw [show done.phase = .fault from hphase] at hlive
        cases hlive
      · exact absurd rfl hcause

theorem isConfig_of_opcode {i : Instr} (h : i.opcode = 0x01) : isConfig i = true := by
  cases i with
  | config => rfl
  | setsize | header | lit | shortrep | rep | simpleMatch | eos | flush => cases h

/-- Settles O47: a command by `exec_fault_cases`, an illegal word by the two cases of `illegalCommand`. -/
theorem checkFaultsArePrecise : Obligations.CheckFaultsArePrecise := by
  intro s t w rest hinput hstep hphase hcause
  rcases step_word_cases hinput with ⟨i, hdecode, heq⟩ | ⟨-, heq⟩
  · obtain ⟨hop, harg⟩ := fields_of_decode hdecode
    rw [hop, harg]
    rcases exec_fault_cases (heq.symm.trans hstep) hphase hcause with ⟨hfault, hconfig, ht⟩ | ⟨cause, hnone, rfl⟩
    · refine .inl ⟨hfault, fun hone => ?_, ht⟩
      rw [isConfig_of_opcode hone] at hconfig
      cases hconfig
    · exact .inr ⟨hnone, rfl⟩
  · obtain rfl := Host.Outcome.next.inj (heq.symm.trans hstep)
    rw [illegalCommand]
    split
    · next hdiscard => exact .inl ⟨hdiscard.1, hdiscard.2, rfl⟩
    · exact .inr ⟨Cause.noConfusion, rfl⟩

end Sys2Proof.Machine
end

section
/-! The sink (R62, R158): what a command computes does not depend on the sink's plan, so an abort cuts its bytes. -/

namespace Sys2Proof.Machine

/-! ### The bytes under a plan -/

/-- A sink that takes fewer bytes than the command emits aborts it after those (R158). -/
theorem deliver_abort {done : State} {bytes : List Byte} {n : Nat} {plan : List Nat}
    (hplan : done.sinkPlan = n :: plan) (h : n < bytes.length) (i : Instr) : deliver i bytes done =
      abortRunning i { done with output := done.output ++ bytes.take n, sinkPlan := plan,
                                 outCount := done.outCount + BitVec.ofNat 64 (bytes.take n).length } := by
  rw [deliver, hplan, sinkTake_abort h]
  rfl

/-- A sink with room for the command's bytes takes them as one that never aborts does (R62). -/
theorem deliver_room {done : State} {bytes : List Byte} {n : Nat} {plan : List Nat}
    (hplan : done.sinkPlan = n :: plan) (h : bytes.length ≤ n) (i : Instr) : deliver i bytes done =
      { done with output := done.output ++ bytes, sinkPlan := (n - bytes.length) :: plan,
                  outCount := done.outCount + BitVec.ofNat 64 bytes.length } := by
  rw [deliver, hplan, sinkTake_room h]
  rfl

/-! ### Commands do not look at the plan -/

/-- The state with another plan of the sink (assumption log 2). -/
def State.withPlan (s : State) (plan : List Nat) : State := { s with sinkPlan := plan }

@[simp] theorem withPlan_cfg (s : State) (plan : List Nat) : (s.withPlan plan).cfg = s.cfg := rfl
@[simp] theorem withPlan_dictEff (s : State) (plan : List Nat) : (s.withPlan plan).dictEff = s.dictEff := rfl
@[simp] theorem withPlan_sizeValue (s : State) (plan : List Nat) : (s.withPlan plan).sizeValue = s.sizeValue := rfl
@[simp] theorem withPlan_es (s : State) (plan : List Nat) : (s.withPlan plan).es = s.es := rfl
@[simp] theorem withPlan_coder (s : State) (plan : List Nat) : (s.withPlan plan).coder = s.coder := rfl
@[simp] theorem histCheck_withPlan (dist : Nat) (s : State) (plan : List Nat) :
    histCheck dist (s.withPlan plan) = histCheck dist s := rfl
@[simp] theorem litPath_withPlan (byte : Byte) (s : State) (plan : List Nat) :
    litPath byte (s.withPlan plan) = litPath byte s := rfl

theorem histCopy_withPlan {dist len : Nat} {s t : State} (h : histCopy dist len s = some t) (plan : List Nat) :
    histCopy dist len (s.withPlan plan) = some (t.withPlan plan) := by
  induction len generalizing s with
  | zero =>
    obtain rfl := Option.some.inj h
    rfl
  | succ len ih =>
    have hread : histRead dist (s.withPlan plan) = histRead dist s := rfl
    rw [histCopy] at h ⊢
    rw [hread]
    split at h
    · cases h
    · exact ih h

theorem Source.commit_withPlan {src : Source} {s t : State} (h : src.commit s = some t) (plan : List Nat) :
    src.commit (s.withPlan plan) = some (t.withPlan plan) := by
  cases src with
  | literal b =>
    obtain rfl := Option.some.inj h
    rfl
  | copy dist len => exact histCopy_withPlan h plan

/-- If `run` answers under one plan of the sink, then under every plan it answers by delivering the same bytes and the
same effect, which has itself touched no port of `s`. -/
def SinkBlind (i : Instr) (s : State) (run : List Nat → Result) : Prop :=
  ∀ (plan : List Nat) (t : State), run plan = .next t → ∃ (bytes : List Byte) (done : State),
    done.output = s.output ∧ done.input = s.input ∧ done.readData = s.readData ∧
      ∀ plan, run plan = .next (deliver i bytes (done.withPlan plan))

section
variable {i : Instr} {s : State}

/-- A command past its checks, whose bytes the sink takes. -/
theorem SinkBlind.of_delivers {bytes : List Byte} {done : State} (houtput : done.output = s.output)
    (hinput : done.input = s.input) (hreadData : done.readData = s.readData) :
    SinkBlind i s fun plan => .next (deliver i bytes (done.withPlan plan)) :=
  fun _ _ _ => ⟨bytes, done, houtput, hinput, hreadData, fun _ => rfl⟩

/-- A check that fails, or a command that emits nothing. -/
theorem SinkBlind.silent {done : State} (houtput : done.output = s.output) (hinput : done.input = s.input)
    (hreadData : done.readData = s.readData) : SinkBlind i s fun plan => .next (done.withPlan plan) :=
  fun _ _ _ => ⟨[], done, houtput, hinput, hreadData, fun _ => by rw [deliver_nil]⟩

theorem SinkBlind.stops (fault : Fault) : SinkBlind i s fun _ => .fault fault := fun _ _ h => by cases h

theorem SinkBlind.of_whenAccepted {rest : List Nat → Unit → Result} (hrest : SinkBlind i s fun plan => rest plan ()) :
    SinkBlind i s fun plan => whenAccepted i (s.withPlan plan) (rest plan) := by
  cases haccept : acceptance i s.phase with
  | run =>
    have hrun := funext fun plan => whenAccepted_run (s := s.withPlan plan) haccept (rest plan)
    rwa [hrun]
  | sequenceError =>
    have hfault := funext fun plan => whenAccepted_sequenceError (s := s.withPlan plan) haccept (rest plan)
    rw [hfault]
    exact SinkBlind.silent (done := faultRecorded .sequenceError i s) rfl rfl rfl
  | discard =>
    have hdiscard := funext fun plan => whenAccepted_discard (s := s.withPlan plan) haccept (rest plan)
    rw [hdiscard]
    exact SinkBlind.silent rfl rfl rfl

theorem SinkBlind.of_require {holds : Bool} {cause : Cause} {rest : List Nat → Unit → Result}
    (hrest : SinkBlind i s fun plan => rest plan ()) :
    SinkBlind i s fun plan => require holds cause i (s.withPlan plan) (rest plan) := by
  cases holds with
  | true => exact hrest
  | false => exact SinkBlind.silent (done := faultRecorded cause i s) rfl rfl rfl

theorem SinkBlind.of_runToken {path : List Decision} {table : List (BitVec 4)} {mru : Mru} {src : Source} :
    SinkBlind i s fun plan => runToken i path table mru src (s.withPlan plan) := by
  intro plan t h
  obtain ⟨next, s2, b, hnext, hcommit, hlast, -⟩ := runToken_next h
  obtain ⟨houtput, hinput, hreadData⟩ : s2.output = s.output ∧ s2.input = s.input ∧ s2.readData = s.readData := by
    obtain ⟨hist, r, rfl⟩ := Source.commit_frame hcommit
    exact ⟨rfl, rfl, rfl⟩
  exact ⟨(s.coder.run path).out, s2.advanced src.length b, houtput, hinput, hreadData, fun plan' =>
    runToken_of hnext (Source.commit_withPlan hcommit plan') (advance_of_histRead (s := s2.withPlan plan') hlast _)⟩

end

/-- EOS where its FSM entry exists. -/
theorem exec_eos_of_fsmNext {s : State} {next : BitVec 4} (hnext : fsmNext updateMatch s.es.state = some next) :
    exec .eos s = whenAccepted .eos s fun _ =>
      .next (deliver .eos (s.coder.run (eosPath s.es.state s.es.posState)).out
        { s.withCoder (s.coder.run (eosPath s.es.state s.es.posState)) with
          es := { s.es with state := next }, phase := .ended }) := by
  rw [exec, execEos, hnext]
  generalize eosPath s.es.state s.es.posState = path
  rfl

/-- The plan of the sink decides only what becomes of a command's bytes. -/
theorem exec_sinkBlind (i : Instr) (s : State) : SinkBlind i s fun plan => exec i (s.withPlan plan) := by
  cases i with
  | config =>
    simp only [exec_config]
    exact .of_require (.silent (done := configured _ s) rfl rfl rfl)
  | setsize size =>
    simp only [exec_setsize]
    exact .of_whenAccepted (.silent (done := { s with sizeKnown := true, sizeValue := size }) rfl rfl rfl)
  | header =>
    simp only [exec_header, withPlan_cfg, withPlan_dictEff, withPlan_sizeValue]
    exact .of_whenAccepted (.of_delivers (done := { s with phase := .coding }) rfl rfl rfl)
  | lit byte =>
    simp only [exec_lit, litPath_withPlan, withPlan_es]
    refine .of_whenAccepted ?_
    cases litPath byte s with
    | none => exact .stops _
    | some path => exact SinkBlind.of_runToken (path := path)
  | shortrep =>
    simp only [exec_shortrep, withPlan_es, histCheck_withPlan]
    exact .of_whenAccepted (.of_require .of_runToken)
  | rep =>
    simp only [exec_rep, withPlan_es, histCheck_withPlan]
    exact .of_whenAccepted (.of_require (.of_require .of_runToken))
  | simpleMatch =>
    simp only [exec_simpleMatch, withPlan_es, histCheck_withPlan]
    exact .of_whenAccepted (.of_require (.of_require .of_runToken))
  | eos =>
    cases hnext : fsmNext updateMatch s.es.state with
    | none =>
      simp only [exec, execEos, withPlan_es, hnext]
      exact .of_whenAccepted (.stops _)
    | some next =>
      have hexec := funext fun plan => exec_eos_of_fsmNext (s := s.withPlan plan) hnext
      rw [hexec]
      simp only [withPlan_es, withPlan_coder]
      generalize s.coder.run (eosPath s.es.state s.es.posState) = coder
      exact .of_whenAccepted (.of_delivers
        (done := { s.withCoder coder with es := { s.es with state := next }, phase := .ended }) rfl rfl rfl)
  | flush =>
    simp only [exec_flush, withPlan_coder]
    exact .of_whenAccepted (.of_delivers (done := { s.withCoder s.coder.flush with phase := .done }) rfl rfl rfl)

/-- A command that answers delivers, under every plan of the sink, the same bytes and the same effect. -/
theorem exec_delivers {i : Instr} {s t : State} (h : exec i s = .next t) : ∃ (bytes : List Byte) (done : State),
    done.output = s.output ∧ done.input = s.input ∧ done.readData = s.readData ∧
      ∀ plan, exec i (s.withPlan plan) = .next (deliver i bytes (done.withPlan plan)) :=
  exec_sinkBlind i s s.sinkPlan t h

/-- Settles O48: under both plans the command has the same bytes and effect, and the sink takes `n` of the bytes or
all. -/
theorem sinkAbortStopsBetweenBytes : Obligations.SinkAbortStopsBetweenBytes := by
  intro i s t bytes n plan hsink hexec houtput
  obtain ⟨emittedBytes, done, hdone, hinput, hreadData, hrun⟩ := exec_delivers hexec
  have hnever : s.withPlan [] = s := by rw [State.withPlan, ← hsink]
  have ht := hrun []
  rw [hnever, hexec, deliver_never rfl] at ht
  obtain rfl := Host.Outcome.next.inj ht
  have houtput : done.output ++ emittedBytes = s.output ++ bytes := houtput
  rw [hdone] at houtput
  obtain rfl := List.append_cancel_left houtput
  refine ⟨fun hfewer => ⟨_, (hrun (n :: plan)).trans (congrArg _ (deliver_abort rfl hfewer i)), ?_⟩,
    fun hroom => (hrun (n :: plan)).trans (congrArg _ (deliver_room rfl hroom i))⟩
  exact ⟨congrArg (· ++ _) hdone, rfl, rfl, rfl, rfl, rfl, hinput, hreadData⟩

end Sys2Proof.Machine
end
